-- ==== Sys2Proof/Word.lean ====
section
/-! DEFINITION. The word types of the core (00_scope.md R6, R8; 10_state.md R22 to R38): every width the spec
fixes, named once. -/

namespace Sys2Proof

/-- A byte: 8 bits, bit 0 least significant (R8). -/
abbrev Byte := BitVec 8

/-- A 32-bit register or counter: `FREQ_WIDTH` and `RESULT_WIDTH` of R6. -/
abbrev Word := BitVec 32

/-- A 16-bit command word: `CMD_WIDTH` of R6, R70. -/
abbrev CmdWord := BitVec 16

/-- A 9-bit node slot index: ROOT and the `low` and `high` fields (R22, R24). -/
abbrev Slot := BitVec 9

/-- The 255-bit storage of one code: `CODE_MAX` of R6, R29. -/
abbrev CodeWord := BitVec 255

end Sys2Proof
end

