-- ==== Sys2Proof/Config.lean ====
section
/-! DEFINITION. What is fixed for one core: the constants of 00_scope.md R6 and the two open parameters,
TIE_MERGED (a value held in State, so that every statement covers both) and HTB_BASE (no rule reads it). -/

namespace Sys2Proof

/-- `TIE_MERGED` (R7): where a newly merged node goes among forest entries of equal frequency. The spec leaves it
OPEN (D9, N6) with default AFTER. DESIGN CHOICE (log entry 3): the value in force is a field of State that no
step writes. -/
inductive TieMerged where
  | after
  | before
deriving DecidableEq, Repr

/-- `HTB_BASE` (R57): the platform address of the register block. OPEN; no rule depends on its value (I19), so it
is a constant with no body (log entry 6). -/
opaque Config.htbBase : Nat

/-- `NODE_CAP` of R6: the node store has 511 slots. -/
def Config.nodeCap : Nat := 511

/-- `COUNT_MAX` of R6: the largest total symbol count, 2^31 - 1. -/
def Config.countMax : Word := 0x7FFFFFFF

end Sys2Proof
end

