-- ==== Sys2Proof/Syntax.lean ====
section
/-! DEFINITION. The command set HTB-CMD v1 (30_encoding.md R71), one constructor per row of the opcode table, and
the written forms of 30_encoding.md R75 (a source command) and R76 (the pseudo-commands). -/

namespace Sys2Proof

/-- The 22 commands. An operand has the type of its form (R72): `bit` is one bit, `byte` and `sym` are 8 bits. -/
inductive Instr where
  | nop
  | reset
  | bwPutbit (bit : Bool)
  | bwPutbyte (byte : Byte)
  | bwFlush
  | brGetbit
  | brGetbyte
  | brAlign
  | ftClear
  | ftCount (sym : Byte)
  | ftRead (sym : Byte)
  | tbBuild
  | tsSerialize
  | tdDeserialize
  | ctGenerate
  | ctReadlen (sym : Byte)
  | heEncode (sym : Byte)
  | hdDecode
  | hdrWrite
  | hdrRead
  | compress
  | decompress
deriving DecidableEq, Repr

/-- The three operand forms of R72. -/
inductive Form where
  | noOperand
  | bit
  | byteOrSym
deriving DecidableEq, Repr

/-- A command as it is written (R75): a mnemonic and at most one operand, before its range is checked. -/
structure AsmCommand where
  mnemonic : String
  operand : Option Nat
deriving DecidableEq, Repr

/-- The pseudo-commands of R76. -/
inductive Pseudo where
  | putU32 (v : Word)
  | putCode (bits : List Bool)
  | countStr (s : List Byte)
  | encodeStr (s : List Byte)
  | decodeN (n : Nat)
  | manualCompress (s : List Byte)
deriving DecidableEq, Repr

end Sys2Proof
end

