-- ==== Sys2Proof/WellFormed.lean ====
section
/-! DEFINITION. Which commands are well formed: the reserved-bit masks of 30_encoding.md R72 and R73 for an
instruction, and the operand rules of R75 for a written command. -/

namespace Sys2Proof

/-- The operand form of each command: the "arg form" column of R71. -/
def Instr.form : Instr → Form
  | .nop | .reset | .bwFlush | .brGetbit | .brGetbyte | .brAlign | .ftClear | .tbBuild | .tsSerialize
  | .tdDeserialize | .ctGenerate | .hdDecode | .hdrWrite | .hdrRead | .compress | .decompress => .noOperand
  | .bwPutbit _ => .bit
  | .bwPutbyte _ | .ftCount _ | .ftRead _ | .ctReadlen _ | .heEncode _ => .byteOrSym

/-- The argument byte that carries a command's operand (R72). -/
def Instr.arg : Instr → Byte
  | .nop | .reset | .bwFlush | .brGetbit | .brGetbyte | .brAlign | .ftClear | .tbBuild | .tsSerialize
  | .tdDeserialize | .ctGenerate | .hdDecode | .hdrWrite | .hdrRead | .compress | .decompress => 0
  | .bwPutbit b => if b then 1 else 0
  | .bwPutbyte v | .ftCount v | .ftRead v | .ctReadlen v | .heEncode v => v

/-- RESV(op) of R73: the argument bits a form reserves. -/
def Form.reserved : Form → Byte
  | .noOperand => 0xFF
  | .bit => 0xFE
  | .byteOrSym => 0x00

/-- R73 (b) as a check on an instruction: no reserved argument bit is set. The operand types make it true of
every instruction (`instr_wellFormed` in Laws/Encoding.lean). -/
def Instr.wellFormed (i : Instr) : Bool := (i.arg &&& i.form.reserved) == 0

/-- The operand form of each mnemonic (R71). -/
def mnemonicForms : List (String × Form) :=
  [("NOP", .noOperand), ("RESET", .noOperand), ("BW_PUTBIT", .bit), ("BW_PUTBYTE", .byteOrSym),
   ("BW_FLUSH", .noOperand), ("BR_GETBIT", .noOperand), ("BR_GETBYTE", .noOperand), ("BR_ALIGN", .noOperand),
   ("FT_CLEAR", .noOperand), ("FT_COUNT", .byteOrSym), ("FT_READ", .byteOrSym)] ++
  [("TB_BUILD", .noOperand), ("TS_SERIALIZE", .noOperand), ("TD_DESERIALIZE", .noOperand),
   ("CT_GENERATE", .noOperand), ("CT_READLEN", .byteOrSym), ("HE_ENCODE", .byteOrSym), ("HD_DECODE", .noOperand),
   ("HDR_WRITE", .noOperand), ("HDR_READ", .noOperand), ("COMPRESS", .noOperand), ("DECOMPRESS", .noOperand)]

/-- The operand rule of R75: a `noOperand` command takes none, a `bit` operand is 0 or 1, a `byte` or `sym`
operand is 0 to 255; anything else is an assembly error. -/
def Form.admits : Form → Option Nat → Bool
  | .noOperand, none => true
  | .noOperand, some _ => false
  | .bit, some v => v ≤ 1
  | .byteOrSym, some v => v ≤ 255
  | .bit, none | .byteOrSym, none => false

/-- A written command is well formed when its mnemonic is one of R71 and its operand fits the form (R75). -/
def AsmCommand.wellFormed (c : AsmCommand) : Bool :=
  match mnemonicForms.lookup c.mnemonic with
  | some f => f.admits c.operand
  | none => false

end Sys2Proof
end

