-- ==== Sys2Proof/Decode.lean ====
section
/-! DEFINITION. Decoding a command word and encoding an instruction (30_encoding.md R70 to R74), both from the
opcode map of R71. Decoding is total and rejects by name. -/

namespace Sys2Proof

/-- `op = w[15:8]` (R70). -/
def opField (w : CmdWord) : Byte := w.extractLsb' 8 8

/-- `arg = w[7:0]` (R70). -/
def argField (w : CmdWord) : Byte := w.extractLsb' 0 8

/-- Why a word is illegal (R73): (a) its opcode is not in the table, or (b) a reserved argument bit is set. -/
inductive DecodeError where
  | unassignedOpcode (op : Byte)
  | reservedBits (op arg : Byte)
deriving DecidableEq, Repr

/-- One row of the opcode map of R71: opcode, mnemonic, operand form, and the command its argument byte gives. -/
structure OpRow where
  op : Byte
  mnemonic : String
  form : Form
  make : Byte → Instr

/-- The opcode map of R71, in its order. -/
def opTable : List OpRow :=
  [⟨0x00, "NOP", .noOperand, fun _ => .nop⟩,
   ⟨0x01, "RESET", .noOperand, fun _ => .reset⟩,
   ⟨0x10, "BW_PUTBIT", .bit, fun a => .bwPutbit (a.getLsbD 0)⟩,
   ⟨0x11, "BW_PUTBYTE", .byteOrSym, fun a => .bwPutbyte a⟩,
   ⟨0x12, "BW_FLUSH", .noOperand, fun _ => .bwFlush⟩,
   ⟨0x18, "BR_GETBIT", .noOperand, fun _ => .brGetbit⟩,
   ⟨0x19, "BR_GETBYTE", .noOperand, fun _ => .brGetbyte⟩,
   ⟨0x1A, "BR_ALIGN", .noOperand, fun _ => .brAlign⟩,
   ⟨0x20, "FT_CLEAR", .noOperand, fun _ => .ftClear⟩,
   ⟨0x21, "FT_COUNT", .byteOrSym, fun a => .ftCount a⟩,
   ⟨0x22, "FT_READ", .byteOrSym, fun a => .ftRead a⟩] ++
  [⟨0x28, "TB_BUILD", .noOperand, fun _ => .tbBuild⟩,
   ⟨0x30, "TS_SERIALIZE", .noOperand, fun _ => .tsSerialize⟩,
   ⟨0x31, "TD_DESERIALIZE", .noOperand, fun _ => .tdDeserialize⟩,
   ⟨0x38, "CT_GENERATE", .noOperand, fun _ => .ctGenerate⟩,
   ⟨0x39, "CT_READLEN", .byteOrSym, fun a => .ctReadlen a⟩,
   ⟨0x40, "HE_ENCODE", .byteOrSym, fun a => .heEncode a⟩,
   ⟨0x48, "HD_DECODE", .noOperand, fun _ => .hdDecode⟩,
   ⟨0x50, "HDR_WRITE", .noOperand, fun _ => .hdrWrite⟩,
   ⟨0x51, "HDR_READ", .noOperand, fun _ => .hdrRead⟩,
   ⟨0x60, "COMPRESS", .noOperand, fun _ => .compress⟩,
   ⟨0x61, "DECOMPRESS", .noOperand, fun _ => .decompress⟩]

/-- The decoder (R70 to R73): look the opcode up, then check the reserved argument bits. No mode and no state
changes how a word decodes (R74). -/
def decode (w : CmdWord) : Except DecodeError Instr :=
  match opTable.find? (fun row => row.op == opField w) with
  | none => .error (.unassignedOpcode (opField w))
  | some row =>
    if (argField w &&& row.form.reserved) == 0 then .ok (row.make (argField w))
    else .error (.reservedBits (opField w) (argField w))

/-- The opcode of each command (R71); it is what ERR_OP records (R226). -/
def opcodeOf : Instr → Byte
  | .nop => 0x00
  | .reset => 0x01
  | .bwPutbit _ => 0x10
  | .bwPutbyte _ => 0x11
  | .bwFlush => 0x12
  | .brGetbit => 0x18
  | .brGetbyte => 0x19
  | .brAlign => 0x1A
  | .ftClear => 0x20
  | .ftCount _ => 0x21
  | .ftRead _ => 0x22
  | .tbBuild => 0x28
  | .tsSerialize => 0x30
  | .tdDeserialize => 0x31
  | .ctGenerate => 0x38
  | .ctReadlen _ => 0x39
  | .heEncode _ => 0x40
  | .hdDecode => 0x48
  | .hdrWrite => 0x50
  | .hdrRead => 0x51
  | .compress => 0x60
  | .decompress => 0x61

/-- The encoder: the command word `{op, arg}` of an instruction (R70, R71). -/
def encode (i : Instr) : CmdWord := opcodeOf i ++ i.arg

/-- What the decoder reads from an instruction whose bits are `w`, numbered as the opcode table numbers them; the
bits at and above `nbits` are 0. A command is one 16-bit word (R74), so anything wider is refused. -/
def decodeTableWord (nbits w : Nat) : Option Instr :=
  if w % 2 ^ nbits < 2 ^ 16 then
    match decode (BitVec.ofNat 16 (w % 2 ^ nbits)) with
    | .ok i => some i
    | .error _ => none
  else none

end Sys2Proof
end

