-- ==== Sys2Proof/Machine/State.lean ====
section
/-! DEFINITION. The state of the core and of its environment (10_state.md), as plain data, and its value after
reset (10_state.md R42). -/

namespace Sys2Proof.Machine

/-- STATUS (R34, R220): one of four codes. -/
inductive Status where
  | success
  | outOfMemory
  | wrongInput
  | illegalCommand
deriving DecidableEq, Repr

/-- The error kinds a command may raise (R12, R220). -/
inductive ErrorKind where
  | outOfMemory
  | wrongInput
  | illegalCommand
deriving DecidableEq, Repr

/-- One allocated node slot (R22). The fields R22 calls meaningless (`sym` of an internal node, `low` and `high`
of a leaf) may hold any value and no rule reads them (93_implementation_defined.md I5): they are not
represented (log entry 2). -/
inductive Node where
  | leaf (sym : Byte) (freq : Word)
  | internal (freq : Word) (low high : Slot)
deriving DecidableEq, Repr

/-- The node store (R22 to R25): NODE as the list of its allocated slots, so that NODE_COUNT is its length (R42),
ROOT and TREE_VALID. -/
structure NodeStore where
  nodes : List Node
  root  : Slot
  valid : Bool
deriving DecidableEq, Repr

/-- The frequency table: FREQ (R26) and TOTAL (R27). -/
structure FreqTable where
  freq  : Vector Word 256
  total : Word
deriving DecidableEq, Repr

/-- One symbol's entry of the code table: CODE_VALID[s], CODE_LEN[s] and CODE[s] (R29). -/
structure CodeEntry where
  valid : Bool
  len   : Byte
  code  : CodeWord
deriving DecidableEq, Repr

/-- The code table (R29) and CT_VALID (R30). -/
structure CodeTable where
  entries : Vector CodeEntry 256
  valid   : Bool
deriving DecidableEq, Repr

/-- The bit writer, ACC and NACC (R31), and the output sink OUT it drives (R39). -/
structure BitWriter where
  acc  : Byte
  nacc : BitVec 3
  out  : List Byte
deriving DecidableEq, Repr

/-- The bit reader, RBUF and RCNT (R32), and the input source it draws from, IN and IPOS (R39). IPOS is "32 bits
or more, a model parameter" (R50): a natural number here (log entry 5). -/
structure BitReader where
  rbuf  : Byte
  rcnt  : BitVec 4
  input : List Byte
  ipos  : Nat
deriving DecidableEq, Repr

/-- What the host can do between commands (R21, R233, R251): write a 32-bit value to a register address, read a
register, present an input source (IN becomes the bytes, IPOS 0, as in R232 and program P5), take what the sink
holds (OUT becomes empty, program P5), and power the core on. -/
inductive HostMove where
  | writeReg (addr : Nat) (data : Word)
  | readReg (addr : Nat)
  | presentInput (bytes : List Byte)
  | takeOutput
  | powerOn
deriving DecidableEq, Repr

/-- The whole state. The core's own registers are those of R20; CMD keeps no value (R38) and INFO has no storage
(R37). `tieMerged` is the parameter TIE_MERGED (R7; log entry 3): no step writes it. `hostQueue` and `answers`
are the model's own fields for the host's side (log entry 1): the moves not yet served, oldest first, and the
data the register port has answered, oldest first. -/
structure State where
  status    : Status
  errOp     : Byte
  result    : Word
  ft        : FreqTable
  dcount    : Word
  store     : NodeStore
  ct        : CodeTable
  writer    : BitWriter
  reader    : BitReader
  tieMerged : TieMerged
  hostQueue : List HostMove
  answers   : List Word
deriving DecidableEq, Repr

/-- Why the machine stops. -/
inductive Fault where
  /-- Raised by TS_SERIALIZE, CT_GENERATE, HD_DECODE, COMPRESS and DECOMPRESS when TREE_VALID = 1 (or a tree was
  just made) but the slots reachable from ROOT are not a tree that the store holds. R22 says that this does not
  happen, so the spec gives it no meaning; no state that meets `State.Inv` does it. Safe: the model stops where
  the hardware has no described behaviour. -/
  | brokenTree
deriving DecidableEq, Repr

/-- Why an instruction has no meaning in the model. -/
inductive Refusal where
  /-- Raised by exec's arm of an instruction that is not modelled yet, under its mnemonic. Safe: no claim can be
  proved of an effect that is not there. No arm of this model raises it. -/
  | notModelled (mnemonic : String)
deriving DecidableEq, Repr

/-- FREQ and TOTAL all zero (R42, R122). -/
def FreqTable.zero : FreqTable := ⟨Vector.replicate 256 0, 0⟩

/-- The node store with nothing allocated (R42, R228). -/
def NodeStore.empty : NodeStore := ⟨[], 0, false⟩

/-- The entry of a symbol with no code (R42, R160). -/
def CodeEntry.none : CodeEntry := ⟨false, 0, 0⟩

/-- The code table all zero, CT_VALID = 0 (R42, R228). -/
def CodeTable.zero : CodeTable := ⟨Vector.replicate 256 CodeEntry.none, false⟩

/-- The state after power-on reset (R42, R250). IN, IPOS and OUT are the host's and reset does not set them; here
the host has not supplied an input yet (DESIGN CHOICE, log entry 4). TIE_MERGED has the spec's default (DESIGN
CHOICE, log entry 3). The host has no move pending (DESIGN CHOICE, log entry 1). -/
def State.reset : State where
  status := .success
  errOp := 0
  result := 0
  ft := .zero
  dcount := 0
  store := .empty
  ct := .zero
  writer := ⟨0, 0, []⟩
  reader := ⟨0, 0, [], 0⟩
  tieMerged := .after
  hostQueue := []
  answers := []

end Sys2Proof.Machine
end

