-- ==== Sys2Proof/Machine/Operands.lean ====
section
/-! DEFINITION. Operand forms and bit fields: the slices, concatenations and index reads that the commands' rules
use (00_scope.md R8, R9, R10; 10_state.md R29, R31; 30_encoding.md R72, R81, R85). -/

namespace Sys2Proof.Machine

/-- `v[i] <- b` on a byte (R10, R100). -/
def setBitTo (v : Byte) (i : Nat) (b : Bool) : Byte :=
  if b then v ||| (1#8 <<< i) else v &&& ~~~(1#8 <<< i)

/-- The bits of a byte, most significant first: `v[7], v[6], ..., v[0]` (R51, R101). -/
def byteBits (v : Byte) : List Bool :=
  [v.getLsbD 7, v.getLsbD 6, v.getLsbD 5, v.getLsbD 4, v.getLsbD 3, v.getLsbD 2, v.getLsbD 1, v.getLsbD 0]

/-- `v <- {v[6:0], b}` (R104). -/
def shiftInBit (v : Byte) (b : Bool) : Byte := (v <<< 1) ||| (if b then 1#8 else 0#8)

/-- A bit widened to a result: `zext_32` of one bit (R8, R109). -/
def bitWord (b : Bool) : Word := if b then 1 else 0

/-- `zext_32` of a byte (R8, R110, R171). -/
def byteWord (v : Byte) : Word := v.setWidth 32

/-- The count field's four bytes in the order they are written: byte k is `v[8k+7:8k]` (R81, R172). -/
def countBytes (v : Word) : List Byte :=
  [v.extractLsb' 0 8, v.extractLsb' 8 8, v.extractLsb' 16 8, v.extractLsb' 24 8]

/-- The 32-bit value `{b3, b2, b1, b0}` of a count field read as bytes b0, b1, b2, b3 (R51, R81, R173). -/
def joinCount (b0 b1 b2 b3 : Byte) : Word := b3 ++ b2 ++ b1 ++ b0

/-- `FREQ[sym]` (R26, R72: `sym` is an unsigned index). -/
def FreqTable.get (t : FreqTable) (sym : Byte) : Word := t.freq[sym.toNat]'(sym.isLt)

/-- The code table's entry of a symbol (R29, R72). -/
def CodeTable.get (t : CodeTable) (sym : Byte) : CodeEntry := t.entries[sym.toNat]'(sym.isLt)

/-- The bit-string an entry stores: its first bit is bit 0 of CODE[s], its length CODE_LEN[s] (R29, R85). -/
def CodeEntry.bits (e : CodeEntry) : List Bool := (List.range e.len.toNat).map e.code.getLsbD

/-- The number whose bit j is the j-th element of a bit-string (R29, R160). -/
def codeNumber : List Bool → Nat
  | [] => 0
  | b :: bs => b.toNat + 2 * codeNumber bs

/-- The entry that records a code (R160): valid, its length, and the 255-bit value whose bit j is its j-th bit. -/
def CodeEntry.ofPath (path : List Bool) : CodeEntry :=
  ⟨true, BitVec.ofNat 8 path.length, BitVec.ofNat 255 (codeNumber path)⟩

/-- `{CODE_VALID[sym], CODE_LEN[sym]}` widened to 32 bits: bit 8 is the validity, bits 7 to 0 the length (R162). -/
def CodeEntry.readLen (e : CodeEntry) : Word := (e.len.setWidth 32) ||| (if e.valid then 0x100 else 0)

end Sys2Proof.Machine
end

