-- ==== Sys2Proof/Machine/Flags.lean ====
section
/-! DEFINITION. The status code, the validity flags and the views of them: STATUS (10_state.md R34, 60_exceptions.md
R220), INFO (10_state.md R37), the error lock (60_exceptions.md R223) and the preconditions (R225). These are all
the flags the core has (10_state.md R41). -/

namespace Sys2Proof.Machine

/-- The numeric status codes of R220. -/
def Status.code : Status → BitVec 2
  | .success => 0
  | .outOfMemory => 1
  | .wrongInput => 2
  | .illegalCommand => 3

/-- `code(E)` of the error path (R226): the status an error kind records. -/
def ErrorKind.status : ErrorKind → Status
  | .outOfMemory => .outOfMemory
  | .wrongInput => .wrongInput
  | .illegalCommand => .illegalCommand

/-- NODE_COUNT (R23): the number of allocated slots, a 10-bit counter. -/
def NodeStore.count (n : NodeStore) : BitVec 10 := BitVec.ofNat 10 n.nodes.length

/-- The error lock holds while STATUS is not SUCCESS (R223). -/
def State.locked (s : State) : Bool := s.status != .success

/-- PRE(op) of TS_SERIALIZE, CT_GENERATE and HD_DECODE: TREE_VALID = 1 (R225). -/
def State.treeReady (s : State) : Bool := s.store.valid

/-- PRE(op) of HE_ENCODE: CT_VALID = 1 (R225). -/
def State.codesReady (s : State) : Bool := s.ct.valid

/-- PRE(op) of every other command: true (R225). -/
def State.always (_ : State) : Bool := true

/-- INFO (R37): bit 0 TREE_VALID, bit 1 CT_VALID, bits 4 to 2 NACC, bits 8 to 5 RCNT, bits 18 to 9 NODE_COUNT, and
0 above. -/
def infoView (s : State) : Word :=
  (0#13) ++ s.store.count ++ s.reader.rcnt ++ s.writer.nacc ++ BitVec.ofBool s.ct.valid ++ BitVec.ofBool s.store.valid

end Sys2Proof.Machine
end

