-- ==== Sys2Proof/Machine/Ops.lean ====
section
/-! DEFINITION. The named operations the commands share: the stream primitives (20_memory.md R52 to R54), the bit
writer and reader (40_bit_io.md R100 to R105), the release (60_exceptions.md R227, R228), the one error path (R226),
reset (70_reset_and_hazards.md R250) and the acceptance of a command (60_exceptions.md R224). -/

namespace Sys2Proof.Machine

/-- How a procedure ends: it returns a value, it raises an error (R12: the whole command ends there, in the state
the procedure had reached), or it is stuck for a named reason. -/
inductive Run (σ α : Type) where
  | done (a : α) (s : σ)
  | raised (e : ErrorKind) (s : σ)
  | stuck (f : Fault)
deriving Repr

/-- Run one procedure after another; an error or a stop of the first ends both (R10, R12). -/
def Run.bind {σ α β : Type} (r : Run σ α) (f : α → σ → Run σ β) : Run σ β :=
  match r with
  | .done a s => f a s
  | .raised e s => .raised e s
  | .stuck k => .stuck k

/-- See a procedure over part of the state as one over a larger state. -/
def Run.lift {σ τ α : Type} (r : Run σ α) (f : σ → τ) : Run τ α :=
  match r with
  | .done a s => .done a (f s)
  | .raised e s => .raised e (f s)
  | .stuck k => .stuck k

/-- Change the value a procedure returns. -/
def Run.map {σ α β : Type} (r : Run σ α) (f : α → β) : Run σ β :=
  match r with
  | .done a s => .done (f a) s
  | .raised e s => .raised e s
  | .stuck k => .stuck k

/-! ### The streams -/

/-- `SrcAvail()` (R52): the source has an unread byte. -/
def srcAvail (r : BitReader) : Bool := decide (r.ipos < r.input.length)

/-- `SrcRead()` (R52): the next byte, or WRONG_INPUT at the end of the source. -/
def srcRead (r : BitReader) : Run BitReader Byte :=
  match r.input[r.ipos]? with
  | some b => .done b { r with ipos := r.ipos + 1 }
  | none => .raised .wrongInput r

/-- `SrcRewind(p)` (R53). -/
def srcRewind (p : Nat) (r : BitReader) : BitReader := { r with ipos := p }

/-- The number of bytes of IN at and after IPOS: how often SrcRead can succeed. -/
def unreadCount (r : BitReader) : Nat := r.input.length - r.ipos

/-- `SinkWrite(b)` (R54): it never fails. -/
def sinkWrite (b : Byte) (w : BitWriter) : BitWriter := { w with out := w.out ++ [b] }

/-! ### The bit writer -/

/-- `PutBit(b)` (R100): set bit 7 - NACC of ACC; a completed byte goes to the sink at once. -/
def putBit (b : Bool) (w : BitWriter) : BitWriter :=
  if w.nacc = 7 then ⟨0, 0, w.out ++ [setBitTo w.acc (7 - w.nacc.toNat) b]⟩
  else ⟨setBitTo w.acc (7 - w.nacc.toNat) b, w.nacc + 1, w.out⟩

/-- PutBit of each bit of a bit-string, in order. -/
def putBits : List Bool → BitWriter → BitWriter
  | [], w => w
  | b :: bs, w =>
    match putBit b w with
    | ⟨acc, nacc, out⟩ => putBits bs ⟨acc, nacc, out⟩

/-- `PutByte(v)` (R101): its 8 bits, most significant first. -/
def putByte (v : Byte) (w : BitWriter) : BitWriter := putBits (byteBits v) w

/-- PutByte of each byte of a list, in order. -/
def putBytes : List Byte → BitWriter → BitWriter
  | [], w => w
  | v :: vs, w => putBytes vs (putByte v w)

/-- `Flush()` (R102): write out a partial byte, whose unused low bits are already 0; nothing when NACC = 0. -/
def flush (w : BitWriter) : BitWriter :=
  if w.nacc = 0 then w else ⟨0, 0, w.out ++ [w.acc]⟩

/-! ### The bit reader -/

/-- The second half of GetBit (R103): consume bit RCNT - 1 of RBUF. -/
def takeHeldBit (r : BitReader) : Run BitReader Bool :=
  .done (r.rbuf.getLsbD (r.rcnt.toNat - 1)) { r with rcnt := r.rcnt - 1 }

/-- `GetBit()` (R103): a byte is fetched only when none is held. -/
def getBit (r : BitReader) : Run BitReader Bool :=
  if r.rcnt = 0 then
    (srcRead r).bind fun b r' => takeHeldBit { r' with rbuf := b, rcnt := 8 }
  else takeHeldBit r

/-- `n` turns of GetByte's loop `v <- {v[6:0], GetBit()}` (R104). -/
def getByteLoop : Nat → Byte → BitReader → Run BitReader Byte
  | 0, v, r => .done v r
  | n + 1, v, r => (getBit r).bind fun b r' => getByteLoop n (shiftInBit v b) r'

/-- `GetByte()` (R104): 8 bits, most significant first. -/
def getByte (r : BitReader) : Run BitReader Byte := getByteLoop 8 0 r

/-- `Align()` (R105): drop the rest of the byte the reader holds. -/
def align (r : BitReader) : BitReader := { r with rcnt := 0 }

/-- The four GetBytes of a count field and their value, least significant byte first (R173, R191 step 1). -/
def getCount (r : BitReader) : Run BitReader Word :=
  (getByte r).bind fun b0 r => (getByte r).bind fun b1 r => (getByte r).bind fun b2 r =>
    (getByte r).bind fun b3 r => .done (joinCount b0 b1 b2 b3) r

/-! ### Trees -/

/-- A strict binary tree with a symbol in every leaf (R14, R22): what the slots reachable from ROOT form. -/
inductive Tree where
  | leaf (sym : Byte)
  | node (low high : Tree)
deriving DecidableEq, Repr

/-- The tree below slot `n`, following `low` and `high` for at most `fuel` levels; none where a slot is not
allocated or the levels run out, which R22 rules out of a store whose TREE_VALID is 1. -/
def subtree (nodes : List Node) : (fuel : Nat) → (n : Nat) → Option Tree
  | 0, _ => none
  | fuel + 1, n =>
    match nodes[n]? with
    | none => none
    | some (.leaf sym _) => some (.leaf sym)
    | some (.internal _ low high) =>
      match subtree nodes fuel low.toNat, subtree nodes fuel high.toNat with
      | some l, some h => some (.node l h)
      | _, _ => none

/-- The tree the node store holds: the one below ROOT. No path of it is longer than the store has slots. -/
def NodeStore.tree (n : NodeStore) : Option Tree := subtree n.nodes n.nodes.length n.root.toNat

/-! ### Release, errors and reset -/

/-- `ReleaseTree()` (R228). -/
def releaseTree (s : State) : State :=
  { s with
    store := .empty
    ct := .zero
    reader := { s.reader with rbuf := 0, rcnt := 0 } }

/-- `Release()` (R227). -/
def release (s : State) : State :=
  { releaseTree s with
    ft := .zero
    dcount := 0
    writer := { s.writer with acc := 0, nacc := 0 } }

/-- THE ERROR PATH (R226): release, record the kind in STATUS and the opcode in ERR_OP. RESULT, IN, IPOS and OUT
stay (R227, R230). From here on the error lock holds (R223). -/
def takeError (e : ErrorKind) (op : Byte) (s : State) : State :=
  { release s with status := e.status, errOp := op }

/-- `ResetCore()` (R250): the only way out of the error state (R231). IN, IPOS and OUT are not touched. -/
def resetCore (s : State) : State :=
  { release s with status := .success, errOp := 0, result := 0 }

/-- How a command's own pseudocode ends: normally, by the error path, or stuck. -/
def finish (op : Byte) (r : Run State Unit) : Host.Outcome State Fault Refusal :=
  match r with
  | .done () s => .next s
  | .raised e s => .next (takeError e op s)
  | .stuck f => .fault f

/-- The acceptance of a decoded command other than RESET (R224, R229): ignored while the error lock holds,
ILLEGAL_COMMAND where its precondition is false, else its own pseudocode. -/
def accept (op : Byte) (pre : State → Bool) (body : State → Run State Unit) (s : State) :
    Host.Outcome State Fault Refusal :=
  if s.locked then .next s
  else if pre s then finish op (body s)
  else .next (takeError .illegalCommand op s)

/-- The acceptance of a word that decodes to no command (R73, R224): ignored while the error lock holds, else
ILLEGAL_COMMAND with the word's opcode field in ERR_OP (R35). -/
def rejectWord (op : Byte) (s : State) : State :=
  if s.locked then s else takeError .illegalCommand op s

/-- A command body that needs the tree the store holds. -/
def withTree (s : State) (body : Tree → Run State Unit) : Run State Unit :=
  match s.store.tree with
  | some t => body t
  | none => .stuck .brokenTree

end Sys2Proof.Machine
end

