-- ==== Sys2Proof/Machine/BitIo.lean ====
section
/-! DEFINITION. The bit writer and bit reader commands (40_bit_io.md R106 to R111). -/

namespace Sys2Proof.Machine

/-- BW_PUTBIT (R106): `PutBit(bit)`. -/
def execBwPutbit (bit : Bool) (s : State) : Host.Outcome State Fault Refusal :=
  accept (opcodeOf (.bwPutbit bit)) State.always (fun s => .done () { s with writer := putBit bit s.writer }) s

/-- BW_PUTBYTE (R107): `PutByte(byte)`. -/
def execBwPutbyte (byte : Byte) (s : State) : Host.Outcome State Fault Refusal :=
  accept (opcodeOf (.bwPutbyte byte)) State.always (fun s => .done () { s with writer := putByte byte s.writer }) s

/-- BW_FLUSH (R108): `Flush()`. -/
def execBwFlush (s : State) : Host.Outcome State Fault Refusal :=
  accept (opcodeOf .bwFlush) State.always (fun s => .done () { s with writer := flush s.writer }) s

/-- BR_GETBIT (R109): `RESULT <- zext_32(GetBit())`. -/
def execBrGetbit (s : State) : Host.Outcome State Fault Refusal :=
  accept (opcodeOf .brGetbit) State.always
    (fun s => ((getBit s.reader).lift fun r => { s with reader := r }).bind fun b s =>
      .done () { s with result := bitWord b }) s

/-- BR_GETBYTE (R110): `RESULT <- zext_32(GetByte())`. -/
def execBrGetbyte (s : State) : Host.Outcome State Fault Refusal :=
  accept (opcodeOf .brGetbyte) State.always
    (fun s => ((getByte s.reader).lift fun r => { s with reader := r }).bind fun v s =>
      .done () { s with result := byteWord v }) s

/-- BR_ALIGN (R111): `Align()`. -/
def execBrAlign (s : State) : Host.Outcome State Fault Refusal :=
  accept (opcodeOf .brAlign) State.always (fun s => .done () { s with reader := align s.reader }) s

end Sys2Proof.Machine
end

