-- ==== Sys2Proof/Machine/Control.lean ====
section
/-! DEFINITION. The control commands NOP and RESET (47_control.md). -/

namespace Sys2Proof.Machine

/-- NOP (R210): nothing. -/
def execNop (s : State) : Host.Outcome State Fault Refusal :=
  accept (opcodeOf .nop) State.always (fun s => .done () s) s

/-- RESET (R211, R224): ResetCore, whether or not the error lock holds. -/
def execReset (s : State) : Host.Outcome State Fault Refusal := .next (resetCore s)

end Sys2Proof.Machine
end

