-- ==== Sys2Proof/Machine/CodeTable.lean ====
section
/-! DEFINITION. The code table generator (44_code_table.md R160 to R162). -/

namespace Sys2Proof.Machine

/-- `Walk(n, path)` (R160): record the path at each leaf, `0` into `low`, `1` into `high`, `low` first; a later
leaf with the same symbol overwrites (R164). -/
def walk : Tree → List Bool → Vector CodeEntry 256 → Vector CodeEntry 256
  | .leaf sym, path, t => t.set sym.toNat (.ofPath path) sym.isLt
  | .node low high, path, t => walk high (path ++ [true]) (walk low (path ++ [false]) t)

/-- `GenerateCodes()` (R160) from the tree at ROOT: the table is cleared first, and CT_VALID is set. -/
def generateCodes (t : Tree) : CodeTable := ⟨walk t [] CodeTable.zero.entries, true⟩

/-- CT_GENERATE (R161): `GenerateCodes()`. -/
def execCtGenerate (s : State) : Host.Outcome State Fault Refusal :=
  accept (opcodeOf .ctGenerate) State.treeReady
    (fun s => withTree s fun t => .done () { s with ct := generateCodes t }) s

/-- CT_READLEN (R162): `RESULT <- zext_32({CODE_VALID[sym], CODE_LEN[sym]})`. It needs no valid table. -/
def execCtReadlen (sym : Byte) (s : State) : Host.Outcome State Fault Refusal :=
  accept (opcodeOf (.ctReadlen sym)) State.always
    (fun s => .done () { s with result := (s.ct.get sym).readLen }) s

end Sys2Proof.Machine
end

