-- ==== Sys2Proof/Machine/Codec.lean ====
section
/-! DEFINITION. The Huffman encoder, the Huffman decoder and the count field (45_codec.md R170 to R173). -/

namespace Sys2Proof.Machine

/-- HE_ENCODE (R170): WRONG_INPUT for a symbol without a code, else PutBit of each code bit, code bit 0 first. -/
def execHeEncode (sym : Byte) (s : State) : Host.Outcome State Fault Refusal :=
  accept (opcodeOf (.heEncode sym)) State.codesReady
    (fun s =>
      if (s.ct.get sym).valid then .done () { s with writer := putBits (s.ct.get sym).bits s.writer }
      else .raised .wrongInput s) s

/-- The descent of R171 from the node at CUR: one GetBit at each internal node, `0` to `low`, `1` to `high`, until a
leaf; its symbol. A leaf reads no bit. -/
def descend : Tree → BitReader → Run BitReader Byte
  | .leaf sym, r => .done sym r
  | .node low high, r => (getBit r).bind fun b r' => if b then descend high r' else descend low r'

/-- HD_DECODE (R171): descend from ROOT, `SinkWrite` the symbol straight to the sink, and put it in RESULT. -/
def execHdDecode (s : State) : Host.Outcome State Fault Refusal :=
  accept (opcodeOf .hdDecode) State.treeReady
    (fun s => withTree s fun t =>
      ((descend t s.reader).lift fun r => { s with reader := r }).bind fun sym s =>
        .done () { s with writer := sinkWrite sym s.writer, result := byteWord sym }) s

/-- HDR_WRITE (R172): the four bytes of TOTAL through the bit writer, least significant byte first. -/
def execHdrWrite (s : State) : Host.Outcome State Fault Refusal :=
  accept (opcodeOf .hdrWrite) State.always
    (fun s => .done () { s with writer := putBytes (countBytes s.ft.total) s.writer }) s

/-- HDR_READ's reading of the count field (R173, R191 step 1): four GetBytes; WRONG_INPUT for a negative value;
else DCOUNT takes it. -/
def readCount (s : State) : Run State Word :=
  ((getCount s.reader).lift fun r => { s with reader := r }).bind fun v s =>
    if v.getLsbD 31 then .raised .wrongInput s else .done v { s with dcount := v }

/-- HDR_READ (R173): DCOUNT and RESULT take the count field's value. -/
def execHdrRead (s : State) : Host.Outcome State Fault Refusal :=
  accept (opcodeOf .hdrRead) State.always
    (fun s => (readCount s).bind fun v s => .done () { s with result := v }) s

end Sys2Proof.Machine
end

