-- ==== Sys2Proof/Machine/Frequency.lean ====
section
/-! DEFINITION. The frequency table (41_frequency.md R120 to R123). -/

namespace Sys2Proof.Machine

/-- `FtCount(s)` (R120): count one occurrence, or OUT_OF_MEMORY when TOTAL is COUNT_MAX. -/
def ftCount (sym : Byte) (t : FreqTable) : Run FreqTable Unit :=
  if t.total = Config.countMax then .raised .outOfMemory t
  else .done () ⟨t.freq.set sym.toNat (t.get sym + 1) sym.isLt, t.total + 1⟩

/-- FT_CLEAR (R122): every counter and TOTAL become 0. -/
def execFtClear (s : State) : Host.Outcome State Fault Refusal :=
  accept (opcodeOf .ftClear) State.always (fun s => .done () { s with ft := .zero }) s

/-- FT_COUNT (R121): `FtCount(sym)` of its operand, which reads nothing from the source. 70_reset_and_hazards.md R255
says in passing that FT_COUNT reads with SrcRead; no ruling settles the two, and R121 is followed (DEDUCED, log entry
11). -/
def execFtCount (sym : Byte) (s : State) : Host.Outcome State Fault Refusal :=
  accept (opcodeOf (.ftCount sym)) State.always
    (fun s => (ftCount sym s.ft).lift fun t => { s with ft := t }) s

/-- FT_READ (R123): `RESULT <- FREQ[sym]`. -/
def execFtRead (sym : Byte) (s : State) : Host.Outcome State Fault Refusal :=
  accept (opcodeOf (.ftRead sym)) State.always (fun s => .done () { s with result := s.ft.get sym }) s

end Sys2Proof.Machine
end

