-- ==== Sys2Proof/Machine/TreeBuilder.lean ====
section
/-! DEFINITION. The tree builder (42_tree_builder.md R130 to R134): the merge forest. -/

namespace Sys2Proof.Machine

/-- An entry of FOREST (R131, R33): a node slot, with the two fields of its node that KEY reads (`freq` and `leaf`)
kept beside it. -/
structure ForestEntry where
  slot : Slot
  freq : Word
  leaf : Bool
deriving DecidableEq, Repr

/-- The tie class and the tie order of KEY for a value of TIE_MERGED (R131). -/
def ForestEntry.tieKey (tie : TieMerged) (e : ForestEntry) : Nat × Nat :=
  match tie with
  | .after => (0, e.slot.toNat)
  | .before => if e.leaf then (1, e.slot.toNat) else (0, 511 - e.slot.toNat)

/-- `KEY(a) < KEY(b)` (R131): by frequency, then tie class, then tie order. -/
def ForestEntry.keyLt (tie : TieMerged) (a b : ForestEntry) : Bool :=
  if a.freq.toNat = b.freq.toNat then
    if (a.tieKey tie).1 = (b.tieKey tie).1 then (a.tieKey tie).2 < (b.tieKey tie).2
    else (a.tieKey tie).1 < (b.tieKey tie).1
  else a.freq.toNat < b.freq.toNat

/-- Put an entry before the first one with a larger key. -/
def insertByKey (tie : TieMerged) (e : ForestEntry) : List ForestEntry → List ForestEntry
  | [] => [e]
  | x :: xs => if x.keyLt tie e then x :: insertByKey tie e xs else e :: x :: xs

/-- `sorted ascending by KEY` (R133), by insertion; any mechanism gives the same list (R136). -/
def sortByKey (tie : TieMerged) : List ForestEntry → List ForestEntry
  | [] => []
  | e :: es => insertByKey tie e (sortByKey tie es)

/-- `InitForest()` (R130): leaf s in slot s with frequency FREQ[s], for every byte value s. -/
def initNodes (t : FreqTable) : List Node := (List.range 256).map fun s => .leaf (BitVec.ofNat 8 s) (t.get (BitVec.ofNat 8 s))

/-- The 256 leaves as forest entries, in slot order (R130). -/
def initEntries (t : FreqTable) : List ForestEntry :=
  (List.range 256).map fun s => ⟨BitVec.ofNat 9 s, t.get (BitVec.ofNat 8 s), true⟩

/-- `pos(n)` (R132): after every entry of a frequency up to that of the merged node under AFTER, before every entry
of equal frequency under BEFORE. -/
def mergePos (tie : TieMerged) (f : Word) (forest : List ForestEntry) : Nat :=
  match tie with
  | .after => forest.countP fun e => e.freq.toNat ≤ f.toNat
  | .before => forest.countP fun e => e.freq.toNat < f.toNat

/-- The builder's working state: the nodes allocated so far and FOREST (R33). -/
structure Forest where
  nodes  : List Node
  forest : List ForestEntry
deriving DecidableEq, Repr

/-- One merge (R133): the first entry becomes `low`, the second `high`; the merged node takes the next slot and
goes back at `pos(n)`. Fewer than two entries are never met in 255 merges of 256 leaves. -/
def mergeOnce (tie : TieMerged) (f : Forest) : Forest :=
  match f.forest with
  | a :: b :: rest =>
    ⟨f.nodes ++ [.internal (a.freq + b.freq) a.slot b.slot],
     rest.insertIdx (mergePos tie (a.freq + b.freq) rest)
       ⟨BitVec.ofNat 9 f.nodes.length, a.freq + b.freq, false⟩⟩
  | _ => f

/-- `k` merges. -/
def mergeTimes (tie : TieMerged) : Nat → Forest → Forest
  | 0, f => f
  | k + 1, f =>
    match mergeOnce tie f with
    | ⟨nodes, forest⟩ => mergeTimes tie k ⟨nodes, forest⟩

/-- FOREST before the first merge (R130, R133). -/
def initForest (tie : TieMerged) (t : FreqTable) : Forest := ⟨initNodes t, sortByKey tie (initEntries t)⟩

/-- The node store a finished forest gives (R133): ROOT is its first entry. -/
def finishedStore (f : Forest) : NodeStore := ⟨f.nodes, (f.forest.head?.map ForestEntry.slot).getD 0, true⟩

/-- `BuildTree()` (R133) as the node store it leaves: 255 merges, after which FOREST has exactly one entry. (Irreducible only so that
comparing two states by unification does not run 255 merges; `buildTree_eq` unfolds it.) -/
@[irreducible] def buildTree (tie : TieMerged) (t : FreqTable) : NodeStore := finishedStore (mergeTimes tie 255 (initForest tie t))

theorem buildTree_eq (tie : TieMerged) (t : FreqTable) :
    buildTree tie t = finishedStore (mergeTimes tie 255 (initForest tie t)) := by unfold buildTree; rfl

/-- BuildTree on the state: the new tree, and CT_VALID cleared (R133, R30). -/
def buildInto (s : State) : State :=
  { s with store := buildTree s.tieMerged s.ft, ct := { s.ct with valid := false } }

/-- TB_BUILD (R134): `BuildTree()`. -/
def execTbBuild (s : State) : Host.Outcome State Fault Refusal :=
  accept (opcodeOf .tbBuild) State.always (fun s => .done () (buildInto s)) s

end Sys2Proof.Machine
end

