-- ==== Sys2Proof/Machine/TreeSerdes.lean ====
section
/-! DEFINITION. The tree serializer and the tree deserializer (43_tree_serdes.md R140 to R145; the bit format is
30_encoding.md R82). -/

namespace Sys2Proof.Machine

/-- `Serialize(n)` (R140) of the subtree at slot n: pre-order, `1` and the symbol for a leaf, `0` for an internal
node. -/
def serialize : Tree → BitWriter → BitWriter
  | .leaf sym, w => putByte sym (putBit true w)
  | .node low high, w => serialize high (serialize low (putBit false w))

/-- TS_SERIALIZE (R141): `Serialize(ROOT)`, then `Flush()`. -/
def execTsSerialize (s : State) : Host.Outcome State Fault Refusal :=
  accept (opcodeOf .tsSerialize) State.treeReady
    (fun s => withTree s fun t => .done () { s with writer := flush (serialize t s.writer) }) s

/-- What the deserializer works on: the bit reader and the slots allocated so far. -/
structure Rebuild where
  reader : BitReader
  nodes  : List Node
deriving DecidableEq, Repr

/-- `Alloc(node)` (10_state.md R23): the next slot, or WRONG_INPUT when all 511 are taken. -/
def alloc (node : Node) (b : Rebuild) : Run Rebuild Nat :=
  if Config.nodeCap ≤ b.nodes.length then .raised .wrongInput b
  else .done b.nodes.length { b with nodes := b.nodes ++ [node] }

/-- `NODE[n] <- node` for an allocated slot (R10). -/
def setNode (n : Nat) (node : Node) (b : Rebuild) : Rebuild := { b with nodes := b.nodes.set n node }

/-- GetBit and GetByte while a tree is being read. -/
def Rebuild.getBit (b : Rebuild) : Run Rebuild Bool :=
  (Sys2Proof.Machine.getBit b.reader).lift fun r => { b with reader := r }

/-- GetByte while a tree is being read. -/
def Rebuild.getByte (b : Rebuild) : Run Rebuild Byte :=
  (Sys2Proof.Machine.getByte b.reader).lift fun r => { b with reader := r }

/-- `Deserialize()` (R144), pre-order, allocating before it reads. `fuel` bounds the depth: a call at depth d
stands under d allocated nodes, and the 512th allocation raises WRONG_INPUT, so 512 levels are never used up when
the store starts empty. -/
def deserialize : (fuel : Nat) → Rebuild → Run Rebuild Nat
  | 0, b => .raised .wrongInput b
  | fuel + 1, b =>
    b.getBit.bind fun bit b =>
      if bit then
        (alloc (.leaf 0 0) b).bind fun n b =>
          b.getByte.bind fun sym b => .done n (setNode n (.leaf sym 0) b)
      else
        (alloc (.internal 0 0 0) b).bind fun n b =>
          (deserialize fuel b).bind fun low b =>
            (deserialize fuel (setNode n (.internal 0 (BitVec.ofNat 9 low) 0) b)).bind fun high b =>
              .done n (setNode n (.internal 0 (BitVec.ofNat 9 low) (BitVec.ofNat 9 high)) b)

/-- `ReadTree()` (R143): free the old tree, deserialize, align, and the new tree is valid. -/
def readTree (s : State) : Run State Unit :=
  let s := { s with store := { s.store with nodes := [], valid := false }, ct := { s.ct with valid := false } }
  ((deserialize (Config.nodeCap + 1) ⟨s.reader, []⟩).lift fun b =>
      { s with reader := b.reader, store := { s.store with nodes := b.nodes } }).bind fun root s =>
    .done () { s with
      reader := align s.reader
      store := { s.store with root := BitVec.ofNat 9 root, valid := true } }

/-- TD_DESERIALIZE (R145): `ReadTree()`. -/
def execTdDeserialize (s : State) : Host.Outcome State Fault Refusal :=
  accept (opcodeOf .tdDeserialize) State.always readTree s

end Sys2Proof.Machine
end

