-- ==== Sys2Proof/Machine/Pipelines.lean ====
section
/-! DEFINITION. The encode and decode pipelines COMPRESS and DECOMPRESS (46_pipelines.md R190, R191), each one
command that runs the units' procedures in the source's order. -/

namespace Sys2Proof.Machine

/-- Pass 1 of COMPRESS (R190 step 1): `while SrcAvail(): FtCount(SrcRead())`. Each turn reads a byte, so `fuel`, the
number of unread bytes, is exactly the number of turns. -/
def countPass : (fuel : Nat) → State → Run State Unit
  | 0, s => .done () s
  | fuel + 1, s =>
    if srcAvail s.reader then
      ((srcRead s.reader).lift fun r => { s with reader := r }).bind fun sym s =>
        ((ftCount sym s.ft).lift fun t => { s with ft := t }).bind fun _ s => countPass fuel s
    else .done () s

/-- Pass 2 of COMPRESS (R190 step 6): `while SrcAvail()`, the code of the next byte through the bit writer. -/
def encodePass : (fuel : Nat) → State → Run State Unit
  | 0, s => .done () s
  | fuel + 1, s =>
    if srcAvail s.reader then
      ((srcRead s.reader).lift fun r => { s with reader := r }).bind fun sym s =>
        encodePass fuel { s with writer := putBits (s.ct.get sym).bits s.writer }
    else .done () s

/-- COMPRESS for TOTAL = 0 (R190, 90_conflicts.md C1): the count field 00 00 00 00 and nothing else. -/
def compressEmpty (s : State) : Run State Unit :=
  .done () (releaseTree { s with writer := putBytes [0, 0, 0, 0] s.writer })

/-- COMPRESS after pass 1 for TOTAL > 0 (R190 steps 2 to 6); `start` is the source position of the first byte. -/
def compressCounted (start : Nat) (s : State) : Run State Unit :=
  let s := buildInto s
  let s := { s with writer := putBytes (countBytes s.ft.total) s.writer }
  withTree s fun t =>
    let s := { s with
      writer := flush (serialize t s.writer)
      ct := generateCodes t
      reader := srcRewind start s.reader }
    (encodePass (unreadCount s.reader) s).bind fun _ s =>
      .done () (releaseTree { s with writer := flush s.writer })

/-- COMPRESS (R190): encode the unread part of IN into a container. -/
def execCompress (s : State) : Host.Outcome State Fault Refusal :=
  accept (opcodeOf .compress) State.always
    (fun s =>
      let s := release s
      (countPass (unreadCount s.reader) s).bind fun _ s1 =>
        if s1.ft.total = 0 then compressEmpty s1 else compressCounted s.reader.ipos s1) s

/-- Step 3 of DECOMPRESS (R191): `count` symbols by tree descent, each straight to the sink. -/
def decodePass (t : Tree) : (count : Nat) → State → Run State Unit
  | 0, s => .done () s
  | count + 1, s =>
    ((descend t s.reader).lift fun r => { s with reader := r }).bind fun sym s =>
      decodePass t count { s with writer := sinkWrite sym s.writer }

/-- DECOMPRESS (R191): decode one container from IN. -/
def execDecompress (s : State) : Host.Outcome State Fault Refusal :=
  accept (opcodeOf .decompress) State.always
    (fun s =>
      (readCount (release s)).bind fun v s =>
        if v = 0 then .done () (releaseTree s)
        else
          (readTree s).bind fun _ s =>
            withTree s fun t =>
              (decodePass t v.toNat s).bind fun _ s => .done () (releaseTree s)) s

end Sys2Proof.Machine
end

