-- ==== Sys2Proof/Machine/Dispatch.lean ====
section
/-! DEFINITION. Which meaning each command has: one arm per constructor of Instr (30_encoding.md R71; the acceptance
steps of 60_exceptions.md R224 stand in each meaning). -/

namespace Sys2Proof.Machine

def exec (i : Instr) (s : State) : Host.Outcome State Fault Refusal :=
  match i with
  | .nop => Sys2Proof.Machine.execNop s
  | .reset => Sys2Proof.Machine.execReset s
  | .bwPutbit bit => Sys2Proof.Machine.execBwPutbit bit s
  | .bwPutbyte byte => Sys2Proof.Machine.execBwPutbyte byte s
  | .bwFlush => Sys2Proof.Machine.execBwFlush s
  | .brGetbit => Sys2Proof.Machine.execBrGetbit s
  | .brGetbyte => Sys2Proof.Machine.execBrGetbyte s
  | .brAlign => Sys2Proof.Machine.execBrAlign s
  | .ftClear => Sys2Proof.Machine.execFtClear s
  | .ftCount sym => Sys2Proof.Machine.execFtCount sym s
  | .ftRead sym => Sys2Proof.Machine.execFtRead sym s
  | .tbBuild => Sys2Proof.Machine.execTbBuild s
  | .tsSerialize => Sys2Proof.Machine.execTsSerialize s
  | .tdDeserialize => Sys2Proof.Machine.execTdDeserialize s
  | .ctGenerate => Sys2Proof.Machine.execCtGenerate s
  | .ctReadlen sym => Sys2Proof.Machine.execCtReadlen sym s
  | .heEncode sym => Sys2Proof.Machine.execHeEncode sym s
  | .hdDecode => Sys2Proof.Machine.execHdDecode s
  | .hdrWrite => Sys2Proof.Machine.execHdrWrite s
  | .hdrRead => Sys2Proof.Machine.execHdrRead s
  | .compress => Sys2Proof.Machine.execCompress s
  | .decompress => Sys2Proof.Machine.execDecompress s

end Sys2Proof.Machine
end

