-- ==== Sys2Proof/Machine/HostPort.lean ====
section
/-! DEFINITION. The host's side of the core: the procedure for a command word (60_exceptions.md R224), the register
port (10_state.md R21, R37, R38), the host's moves (R233), the selector wrapper (R232), and the run and its observation
(R236). -/

namespace Sys2Proof.Machine

/-- `Step(w)` (R224): the one procedure for every command word written to CMD. -/
def issue (w : CmdWord) (s : State) : Host.Outcome State Fault Refusal :=
  match decode w with
  | .ok i => exec i s
  | .error _ => .next (rejectWord (opField w) s)

/-- A host read of the register at a word address (R21): CMD reads 0, a reserved address reads 0, bits a register
does not define read 0. It changes nothing. -/
def readReg (s : State) (addr : Nat) : Word :=
  match addr with
  | 1 => s.status.code.setWidth 32
  | 2 => s.errOp.setWidth 32
  | 3 => s.result
  | 4 => s.ft.total
  | 5 => infoView s
  | 6 => s.dcount
  | _ => 0

/-- The platform address of a register (R57): the base address is open (Config.htbBase). -/
def platformAddress (addr : Nat) : Nat := Config.htbBase + addr

/-- A host write (R21, R38): address 0 is CMD, which issues the command in bits 15 to 0 and ignores bits 31 to 16;
a write to any other address, read-only or reserved, is ignored. -/
def writeReg (addr : Nat) (data : Word) (s : State) : Host.Outcome State Fault Refusal :=
  match addr with
  | 0 => issue (data.extractLsb' 0 16) s
  | _ => .next s

/-- One move of the host (R21, R233, R251). -/
def serve (m : HostMove) (s : State) : Host.Outcome State Fault Refusal :=
  match m with
  | .writeReg addr data => writeReg addr data s
  | .readReg addr => .next { s with answers := s.answers ++ [readReg s addr] }
  | .presentInput bytes => .next { s with reader := { s.reader with input := bytes, ipos := 0 } }
  | .takeOutput => .next { s with writer := { s.writer with out := [] } }
  | .powerOn => .next (resetCore s)

/-- The selector of R232: `'c'` (0x63) selects COMPRESS, `'d'` (0x64) DECOMPRESS, on the rest of the stream; none for
any other byte and for an empty stream (D22). -/
def selectPipeline : List Byte → Option (CmdWord × List Byte)
  | [] => none
  | sel :: rest =>
    if sel = 0x63 then some (0x6000, rest)
    else if sel = 0x64 then some (0x6100, rest)
    else none

/-- The host moves with which the wrapper of R232 drives the core: present the rest of the stream, write the command,
read STATUS to report it. With no selection it makes no move. -/
def wrapperMoves (stream : List Byte) : List HostMove :=
  match selectPipeline stream with
  | some (w, rest) => [.presentInput rest, .writeReg 0 (w.setWidth 32), .readReg 1]
  | none => []

/-- What the wrapper reports, and the core's state after it (R232): its own WRONG_INPUT issues no command and leaves
the core as it was. -/
def wrapper (stream : List Byte) (s : State) : Host.Outcome (Status × State) Fault Refusal :=
  match selectPipeline stream with
  | none => .next (.wrongInput, s)
  | some (w, rest) =>
    match issue w { s with reader := { s.reader with input := rest, ipos := 0 } } with
    | .next s' => .next (s'.status, s')
    | .fault f => .fault f
    | .refused r => .refused r

/-- A run (R236): command words, one after another. -/
def runWords : List CmdWord → State → Host.Outcome State Fault Refusal
  | [], s => .next s
  | w :: ws, s =>
    match issue w s with
    | .next s' => runWords ws s'
    | .fault f => .fault f
    | .refused r => .refused r

/-- The observation of a run (R236). -/
structure Observation where
  out    : List Byte
  ipos   : Nat
  status : BitVec 2
  errOp  : Byte
  result : Word
  total  : Word
  dcount : Word
  info   : Word
deriving DecidableEq, Repr

/-- What is observed of a state (R236). -/
def observe (s : State) : Observation :=
  ⟨s.writer.out, s.reader.ipos, s.status.code, s.errOp, s.result, s.ft.total, s.dcount, infoView s⟩

end Sys2Proof.Machine
end

