-- ==== Sys2Proof/Machine/Step.lean ====
section
/-! DEFINITION. One step of the machine: the oldest pending move of the host is served (00_scope.md R2, R5, R58);
with none pending nothing happens (60_exceptions.md R222). -/

namespace Sys2Proof.Machine

/-- One step. The core fetches no program (20_memory.md R60): the next command is the host's next write to CMD. -/
def step (s : State) : Host.Outcome State Fault Refusal :=
  match s.hostQueue with
  | [] => .next s
  | m :: rest => serve m { s with hostQueue := rest }

/-- The state in which the host's next move is the write of a command word to CMD (log entry 1): the word is the
low `nbits` bits of `w`, 0 above. -/
def State.withFetchWord (s : State) (nbits w : Nat) : State :=
  { s with hostQueue := .writeReg 0 (BitVec.ofNat 32 (w % 2 ^ nbits)) :: s.hostQueue }

end Sys2Proof.Machine
end

