-- ==== Sys2Proof/Machine/Assembler.lean ====
section
/-! DEFINITION. The written form of commands (30_encoding.md R75) and the pseudo-commands (R76): text lines to command
words. Nothing of it is in the core; it gives test programs their written form (D32). What R75 does not say (blanks,
upper case only, how a string is written) is log entry 8. -/

namespace Sys2Proof.Machine

/-- Why a line is refused (R75: "an assembly error"; for the pseudo-commands of R76, log entry 8). -/
inductive AsmError where
  /-- The line is not a mnemonic and at most one operand. -/
  | malformed
  /-- The mnemonic is none of R71 or R76. -/
  | unknownMnemonic
  /-- The operand is missing, not wanted, or outside the form's range. -/
  | badOperand
deriving DecidableEq, Repr

/-- An operand as written: a number (decimal, hexadecimal or a character literal, R75) or a string (R76). -/
inductive WrittenOperand where
  | number (n : Nat)
  | text (codes : List Nat)
deriving DecidableEq, Repr

/-- Space or tab. -/
def isBlank (c : Char) : Bool := c == ' ' || c == '\t'

/-- The line without its leading blanks. -/
def skipBlanks : List Char → List Char
  | [] => []
  | c :: cs => if isBlank c then skipBlanks cs else c :: cs

/-- Nothing but blanks and a comment is left (R75: `;` starts a comment). -/
def atEnd (cs : List Char) : Bool :=
  match skipBlanks cs with
  | [] => true
  | c :: _ => c == ';'

/-- The ASCII code of a character (R75, 93_implementation_defined.md G3). -/
def asciiCode (c : Char) : Option Nat := if c.toNat < 128 then some c.toNat else none

/-- The value of a digit in a base up to 16. -/
def digitValue (base : Nat) (c : Char) : Option Nat :=
  let v :=
    if '0'.toNat ≤ c.toNat ∧ c.toNat ≤ '9'.toNat then some (c.toNat - '0'.toNat)
    else if 'a'.toNat ≤ c.toNat ∧ c.toNat ≤ 'f'.toNat then some (c.toNat - 'a'.toNat + 10)
    else if 'A'.toNat ≤ c.toNat ∧ c.toNat ≤ 'F'.toNat then some (c.toNat - 'A'.toNat + 10)
    else none
  v.bind fun d => if d < base then some d else none

/-- The digits at the head of a line, added to the value read so far; what follows them. -/
def readDigits (base : Nat) : Nat → List Char → Nat × List Char
  | v, [] => (v, [])
  | v, c :: cs =>
    match digitValue base c with
    | some d => readDigits base (v * base + d) cs
    | none => (v, c :: cs)

/-- A number of at least one digit. -/
def readNumber (base : Nat) (cs : List Char) : Option (Nat × List Char) :=
  match cs with
  | [] => none
  | c :: _ => if (digitValue base c).isSome then some (readDigits base 0 cs) else none

/-- The characters up to the closing double quote (code 34), as ASCII codes. -/
def readText : List Char → Option (List Nat × List Char)
  | [] => none
  | c :: cs =>
    if c.toNat = 34 then some ([], cs)
    else
      match asciiCode c, readText cs with
      | some v, some (vs, rest) => some (v :: vs, rest)
      | _, _ => none

/-- One operand at the head of a line (R75, R76). -/
def readOperand (cs : List Char) : Option (WrittenOperand × List Char) :=
  match cs with
  | [] => none
  | c :: rest =>
    if c.toNat = 34 then (readText rest).map fun r => (.text r.1, r.2)
    else if c.toNat = 39 then
      match rest with
      | x :: q :: rest' => if q.toNat = 39 then (asciiCode x).map fun v => (.number v, rest') else none
      | _ => none
    else if c = '0' ∧ rest.head? = some 'x' then (readNumber 16 rest.tail).map fun r => (.number r.1, r.2)
    else (readNumber 10 cs).map fun r => (.number r.1, r.2)

/-- A character of a mnemonic. -/
def isMnemonicChar (c : Char) : Bool :=
  ('A'.toNat ≤ c.toNat && c.toNat ≤ 'Z'.toNat) || ('0'.toNat ≤ c.toNat && c.toNat ≤ '9'.toNat) || c == '_'

/-- The mnemonic at the head of a line and what follows it. -/
def readMnemonic : List Char → List Char × List Char
  | [] => ([], [])
  | c :: cs => if isMnemonicChar c then (c :: (readMnemonic cs).1, (readMnemonic cs).2) else ([], c :: cs)

/-- The instruction a written command stands for, when it is well formed (R75). -/
def commandOf (c : AsmCommand) : Option Instr :=
  if c.wellFormed then
    (opTable.find? fun row => row.mnemonic == c.mnemonic).map fun row => row.make (BitVec.ofNat 8 (c.operand.getD 0))
  else none

/-- The expansion of a pseudo-command (R76). -/
def expandPseudo : Pseudo → List Instr
  | .putU32 v => (countBytes v).map .bwPutbyte
  | .putCode bits => bits.map .bwPutbit
  | .countStr s => s.map .ftCount
  | .encodeStr s => s.map .heEncode
  | .decodeN n => List.replicate n .hdDecode
  | .manualCompress s =>
    [.ftClear] ++ s.map .ftCount ++ [.tbBuild, .hdrWrite, .tsSerialize, .ctGenerate] ++ s.map .heEncode ++ [.bwFlush]

/-- The bits a PUT_CODE string writes: one per character `0` or `1` (R76). -/
def codeCharBits : List Nat → Option (List Bool)
  | [] => some []
  | c :: cs =>
    match codeCharBits cs with
    | some bs => if c = 48 then some (false :: bs) else if c = 49 then some (true :: bs) else none
    | none => none

/-- The pseudo-command a mnemonic and its operand stand for (R76). DESIGN CHOICE (log entry 8): R75 gives operand
ranges for the `bit`, `byte` and `sym` forms only and R76 gives none; here the operand of PUT_U32 must be below 2^32
(`v[31:24]` is the top byte R76 writes), that of DECODE_N may be any number, that of PUT_CODE holds only `0` and `1`,
and any other operand, or one of the other kind, is refused. -/
def pseudoOf (mnemonic : String) (operand : WrittenOperand) : Option Pseudo :=
  let bytes (codes : List Nat) : List Byte := codes.map (BitVec.ofNat 8)
  match operand with
  | .number n =>
    if mnemonic == "PUT_U32" then (if n < 2 ^ 32 then some (.putU32 (BitVec.ofNat 32 n)) else none)
    else if mnemonic == "DECODE_N" then some (.decodeN n)
    else none
  | .text codes =>
    if mnemonic == "PUT_CODE" then (codeCharBits codes).map .putCode
    else if mnemonic == "COUNT_STR" then some (.countStr (bytes codes))
    else if mnemonic == "ENCODE_STR" then some (.encodeStr (bytes codes))
    else if mnemonic == "MANUAL_COMPRESS" then some (.manualCompress (bytes codes))
    else none

/-- The mnemonics of R76. -/
def pseudoMnemonics : List String :=
  ["PUT_U32", "PUT_CODE", "COUNT_STR", "ENCODE_STR", "DECODE_N", "MANUAL_COMPRESS"]

/-- The commands one written statement stands for (R75, R76). -/
def assembleStatement (mnemonic : String) (operand : Option WrittenOperand) : Except AsmError (List Instr) :=
  if pseudoMnemonics.contains mnemonic then
    match operand.bind (pseudoOf mnemonic) with
    | some p => .ok (expandPseudo p)
    | none => .error .badOperand
  else if (mnemonicForms.lookup mnemonic).isNone then .error .unknownMnemonic
  else
    match operand with
    | some (.text _) => .error .badOperand
    | some (.number n) =>
      match commandOf ⟨mnemonic, some n⟩ with
      | some i => .ok [i]
      | none => .error .badOperand
    | none =>
      match commandOf ⟨mnemonic, none⟩ with
      | some i => .ok [i]
      | none => .error .badOperand

/-- The commands one line stands for; a blank or comment line stands for none (R75: one command per line). -/
def assembleLine (line : List Char) : Except AsmError (List Instr) :=
  if atEnd line then .ok []
  else
    match readMnemonic (skipBlanks line) with
    | (m, rest) =>
      if m.isEmpty then .error .malformed
      else if atEnd rest then assembleStatement (String.ofList m) none
      else if (rest.head?.map isBlank).getD false then
        match readOperand (skipBlanks rest) with
        | some (o, rest') => if atEnd rest' then assembleStatement (String.ofList m) (some o) else .error .malformed
        | none => .error .malformed
      else .error .malformed

/-- The command words a line assembles to (R70, R75). -/
def assembleWords (line : String) : Except AsmError (List CmdWord) :=
  match assembleLine line.toList with
  | .ok is => .ok (is.map encode)
  | .error e => .error e

end Sys2Proof.Machine
end

