-- ==== Sys2Proof/Safety.lean ====
section
/-! DEFINITION. What counts as a safe state, and the terms the statements use: the bits a writer has written and a
reader still holds, the shape and the codes of a tree, the container format (30_encoding.md R80 to R85), the state an
error or a reset leaves, and the invariant of the machine (10_state.md R22, R27 to R32). -/

namespace Sys2Proof.Machine

/-! ### Bit streams -/

/-- Every bit put so far, in order: those of OUT and the NACC pending ones (R31). -/
def BitWriter.bits (w : BitWriter) : List Bool := w.out.flatMap byteBits ++ (byteBits w.acc).take w.nacc.toNat

/-- Every bit still to be taken, in order: the RCNT held ones, then those of the unread bytes (R32). -/
def BitReader.bits (r : BitReader) : List Bool :=
  (byteBits r.rbuf).drop (8 - r.rcnt.toNat) ++ (r.input.drop r.ipos).flatMap byteBits

/-- The unread part of IN. -/
def BitReader.unread (r : BitReader) : List Byte := r.input.drop r.ipos

/-- `ACC[7-NACC:0] = 0` (R31). -/
def BitWriter.Ok (w : BitWriter) : Prop := ∀ i, i + w.nacc.toNat < 8 → w.acc.getLsbD i = false

/-- RCNT is 0..8 (R32) and IPOS is 0..len(IN) (R39). -/
def BitReader.Ok (r : BitReader) : Prop := r.rcnt.toNat ≤ 8 ∧ r.ipos ≤ r.input.length

/-- A byte sequence holds a bit-string, padded with the fewest zero bits to a whole byte (R84). -/
def PacksTo (bits : List Bool) (bytes : List Byte) : Prop :=
  bytes.length = (bits.length + 7) / 8 ∧
    bytes.flatMap byteBits = bits ++ List.replicate (8 * bytes.length - bits.length) false

/-! ### Trees -/

/-- The leaves' symbols in pre-order. -/
def Tree.symbols : Tree → List Byte
  | .leaf sym => [sym]
  | .node low high => low.symbols ++ high.symbols

/-- The number of leaves. -/
def Tree.leafCount : Tree → Nat
  | .leaf _ => 1
  | .node low high => low.leafCount + high.leafCount

/-- The tree region's bits, by the grammar of R82. -/
def treeBits : Tree → List Bool
  | .leaf sym => true :: byteBits sym
  | .node low high => false :: (treeBits low ++ treeBits high)

/-- The leaves in pre-order, each with the path to it: `0` into `low`, `1` into `high` (R85). -/
def Tree.codes : Tree → List (List Bool × Byte)
  | .leaf sym => [([], sym)]
  | .node low high =>
    low.codes.map (fun c => (false :: c.1, c.2)) ++ high.codes.map (fun c => (true :: c.1, c.2))

/-- The code of a symbol in a tree (R85, R164): the path to its last leaf in pre-order. -/
def Tree.codeOf (t : Tree) (sym : Byte) : Option (List Bool) :=
  (t.codes.filter (fun c => c.2 == sym)).getLast?.map Prod.fst

/-- The slots reached from slot `n` through `low` and `high`, in pre-order. -/
def slotsBelow (nodes : List Node) : (fuel : Nat) → (n : Nat) → List Nat
  | 0, _ => []
  | fuel + 1, n =>
    match nodes[n]? with
    | none => []
    | some (.leaf _ _) => [n]
    | some (.internal _ low high) => n :: (slotsBelow nodes fuel low.toNat ++ slotsBelow nodes fuel high.toNat)

/-- The frequency field of a slot, 0 for a slot that is not allocated. -/
def nodeFreq (nodes : List Node) (n : Nat) : Word :=
  match nodes[n]? with
  | some (.leaf _ f) => f
  | some (.internal f _ _) => f
  | none => 0

/-- R22 and R23 on the node store: at most 511 slots are allocated; when TREE_VALID = 1 the slots reached from ROOT
form a strict binary tree, each reached once ("single-parent ownership ... no sharing, no cycles"); when TREE_VALID = 0
nothing is allocated and ROOT is 0 (R228). -/
structure NodeStore.Ok (n : NodeStore) : Prop where
  cap : n.nodes.length ≤ 511
  tree : n.valid = true → ∃ t, n.tree = some t ∧ (slotsBelow n.nodes n.nodes.length n.root.toNat).Nodup
  empty : n.valid = false → n = .empty

/-! ### KEY and the merge forest -/

/-- All 256 byte values, ascending. -/
def allBytes : List Byte := (List.range 256).map (BitVec.ofNat 8)

/-- The slot is a leaf. -/
def isLeafSlot (nodes : List Node) (n : Nat) : Bool :=
  match nodes[n]? with
  | some (.leaf _ _) => true
  | _ => false

/-- KEY(n) of R131, read from the node store: (frequency, class, order). Under AFTER the order is the slot; under
BEFORE merged nodes come first, newest first, then leaves in ascending slot order. -/
def slotKey (tie : TieMerged) (nodes : List Node) (n : Nat) : Nat × Nat × Nat :=
  match tie with
  | .after => ((nodeFreq nodes n).toNat, 0, n)
  | .before =>
    if isLeafSlot nodes n then ((nodeFreq nodes n).toNat, 1, n) else ((nodeFreq nodes n).toNat, 0, 511 - n)

/-- The lexicographic order of R131 on keys. -/
def keyBefore (a b : Nat × Nat × Nat) : Prop :=
  a.1 < b.1 ∨ (a.1 = b.1 ∧ (a.2.1 < b.2.1 ∨ (a.2.1 = b.2.1 ∧ a.2.2 < b.2.2)))

/-- Slot `n` is in FOREST when `m` merges have been made (R133): it is allocated by then, and none of the nodes merged
by then has it as a child. -/
def InForest (nodes : List Node) (m n : Nat) : Prop :=
  n < 256 + m ∧
    ∀ j f low high, j < 256 + m → nodes[j]? = some (.internal f low high) → low.toNat ≠ n ∧ high.toNat ≠ n

/-! ### Counts and the container -/

/-- The sum of all counters. -/
def FreqTable.sum (t : FreqTable) : Nat := (t.freq.toList.map BitVec.toNat).sum

/-- R27: `TOTAL = sum over s of FREQ[s]` and `TOTAL <= COUNT_MAX`. -/
def FreqTable.Ok (t : FreqTable) : Prop := t.sum = t.total.toNat ∧ t.total.toNat ≤ 0x7FFFFFFF

/-- The frequency table that counts a byte sequence (R26, R27). -/
def freqOf (input : List Byte) : FreqTable :=
  ⟨Vector.ofFn fun s => BitVec.ofNat 32 (input.count (BitVec.ofNat 8 s.val)), BitVec.ofNat 32 input.length⟩

/-- The payload's bits under a tree (R83): the code of each symbol, in order; a symbol without a code adds none. -/
def payloadBits (t : Tree) (input : List Byte) : List Bool := input.flatMap fun s => (t.codeOf s).getD []

/-- R80: `bytes` is the container of `input` for a core whose TIE_MERGED is `tie`: four zero bytes for the empty input
(90_conflicts.md C1); else the count field, the tree region of the tree built from the input's frequencies, and the
payload region, each padded on its own (R81 to R84). -/
def IsContainer (tie : TieMerged) (input bytes : List Byte) : Prop :=
  if input = [] then bytes = [0, 0, 0, 0]
  else
    ∃ t treeRegion payload,
      (buildTree tie (freqOf input)).tree = some t ∧
      PacksTo (treeBits t) treeRegion ∧
      PacksTo (payloadBits t input) payload ∧
      bytes = countBytes (BitVec.ofNat 32 input.length) ++ treeRegion ++ payload

/-- The bytes are a tree region the decoder accepts for `t` (R82, R84, R87): the tree's bits and 0 to 7 pad bits of any
value, for a tree of at most 511 nodes, that is of at most 256 leaves. -/
def IsTreeRegion (t : Tree) (region : List Byte) : Prop :=
  t.leafCount ≤ 256 ∧ ∃ pad : List Bool, pad.length < 8 ∧ region.flatMap byteBits = treeBits t ++ pad

/-- The payload begins with the codes `cs` (each a path to a leaf and that leaf's symbol), and `tail` follows. -/
def PayloadHolds (t : Tree) (payload : List Byte) (cs : List (List Bool × Byte)) (tail : List Bool) : Prop :=
  (∀ c ∈ cs, c ∈ t.codes) ∧ payload.flatMap byteBits = cs.flatMap Prod.fst ++ tail

/-- R87 (e): after the codes `cs`, fewer than the count, the source ends before another leaf is reached. -/
def PayloadEndsEarly (n : Nat) (t : Tree) (payload : List Byte) (cs : List (List Bool × Byte)) : Prop :=
  cs.length < n ∧ ∃ tail, PayloadHolds t payload cs tail ∧ ∀ c ∈ t.codes, ¬ c.1 <+: tail

/-- R87: the containers the decoder refuses. (a) Fewer than 4 bytes; (b) a negative count; (c), (d) a count above 0
and no tree region of at most 511 nodes; (e) a payload that ends before the count. -/
def RefusedContainer (bytes : List Byte) : Prop :=
  bytes.length < 4 ∨
  ∃ b0 b1 b2 b3 rest, bytes = b0 :: b1 :: b2 :: b3 :: rest ∧
    (b3.getLsbD 7 = true ∨
      (b3.getLsbD 7 = false ∧ joinCount b0 b1 b2 b3 ≠ 0 ∧
        ((∀ t tail, rest.flatMap byteBits = treeBits t ++ tail → 256 < t.leafCount) ∨
          ∃ t region payload cs, rest = region ++ payload ∧ IsTreeRegion t region ∧
            PayloadEndsEarly (joinCount b0 b1 b2 b3).toNat t payload cs)))

/-! ### What an error and a reset leave -/

/-- R226, R227, R228 and R230 in one: the status and the opcode are recorded; FREQ, TOTAL, DCOUNT, the tree, the code
table and both bit buffers are zero; RESULT, IN, IPOS and OUT are as they were at the raise. -/
def errorState (e : Status) (op : Byte) (s : State) : State :=
  { s with
    status := e, errOp := op, ft := .zero, dcount := 0, store := .empty, ct := .zero
    writer := ⟨0, 0, s.writer.out⟩, reader := ⟨0, 0, s.reader.input, s.reader.ipos⟩ }

/-- R227 and R228 in one: what Release leaves. -/
def released (s : State) : State := errorState s.status s.errOp s

/-- R42 and R250 in one: every register zero; IN, IPOS and OUT untouched. -/
def resetState (s : State) : State :=
  { s with
    status := .success, errOp := 0, result := 0, ft := .zero, dcount := 0, store := .empty, ct := .zero
    writer := ⟨0, 0, s.writer.out⟩, reader := ⟨0, 0, s.reader.input, s.reader.ipos⟩ }

/-! ### The command words -/

/-- The reserved argument bits of an opcode, as the table of R71 lists them; none for an unassigned opcode. -/
def reservedMask (op : Byte) : Option Byte :=
  if op ∈ ([0x00, 0x01, 0x12, 0x18, 0x19, 0x1A, 0x20, 0x28, 0x30, 0x31, 0x38, 0x48, 0x50, 0x51, 0x60, 0x61] : List Byte)
  then some 0xFF
  else if op = 0x10 then some 0xFE
  else if op ∈ ([0x11, 0x21, 0x22, 0x39, 0x40] : List Byte) then some 0x00
  else none

/-- R73: the word is illegal. -/
def IllegalWord (w : CmdWord) : Prop :=
  reservedMask (w.extractLsb' 8 8) = none ∨
    ∃ m, reservedMask (w.extractLsb' 8 8) = some m ∧ w.extractLsb' 0 8 &&& m ≠ 0

/-- R72 and R73 for a command without an operand: its word is `{op, 0}`, and every other argument is refused with
ILLEGAL_COMMAND, the error path recording `op` (R224, R226). -/
def TakesNoOperand (op : Byte) (i : Instr) : Prop :=
  decode (op ++ 0#8) = .ok i ∧
    ∀ (arg : Byte) (s : State), arg ≠ 0 → s.status = .success →
      issue (op ++ arg) s = .next (errorState .illegalCommand op s)

/-- R72 for a command with a `byte` or `sym` operand: every argument is legal. -/
def TakesByte (op : Byte) (make : Byte → Instr) : Prop := ∀ v : Byte, decode (op ++ v) = .ok (make v)

/-- PRE(op) as the table of R225 lists it. -/
def precondition (op : Byte) (s : State) : Prop :=
  ((op = 0x30 ∨ op = 0x38 ∨ op = 0x48) → s.store.valid = true) ∧ (op = 0x40 → s.ct.valid = true)

/-! ### The invariant -/

/-- What holds between commands (R22, R27 to R32, R35, R225, R226). -/
structure State.Inv (s : State) : Prop where
  writer : s.writer.Ok
  reader : s.reader.Ok
  freq : s.ft.Ok
  dcount : s.dcount.toNat ≤ 0x7FFFFFFF
  store : s.store.Ok
  /-- R30: the code table was generated from the tree that is now in the store; so CT_VALID implies TREE_VALID. -/
  codes : s.ct.valid = true → s.store.valid = true ∧ ∃ t, s.store.tree = some t ∧ s.ct = generateCodes t
  /-- R29: the bits of CODE[s] at and above CODE_LEN[s] are 0. -/
  codePad : ∀ sym j, (s.ct.get sym).len.toNat ≤ j → (s.ct.get sym).code.getLsbD j = false
  /-- R223, R226: while the error lock holds, the datapath is as Release leaves it. -/
  lock : s.status ≠ .success → s = errorState s.status s.errOp s
  /-- R35: ERR_OP is 0 until an error is recorded. -/
  errOp : s.status = .success → s.errOp = 0

/-- A safe run: from a state that meets the invariant, the machine answers a next state at every step. -/
def SafeRun (s : State) : Prop := ∀ k, ∃ t, (Sys2Proof.core.run k s : Host.Outcome State Fault Refusal) = .next t

end Sys2Proof.Machine
end

