-- ==== Sys2Proof/Certificates/Slice0/Obligations.lean ====
section
/-! DEFINITION. The statements for the provers, from the numbered rules of the spec, file by file. Every statement about
a command gives its whole next state, so its frame is in it: what a right-hand side does not name is as it was. -/

open Sys2Proof Sys2Proof.Machine

/-! ### 30_encoding.md: command words -/

/-- R70, R71: the assigned opcodes, each with the command it decodes to, for every operand. -/
def Obligations.CommandWordsDecodeAsTabled : Prop :=
  (decode 0x0000 = .ok .nop ∧ decode 0x0100 = .ok .reset ∧ decode 0x1000 = .ok (.bwPutbit false) ∧
    decode 0x1001 = .ok (.bwPutbit true) ∧ decode 0x1200 = .ok .bwFlush ∧ decode 0x1800 = .ok .brGetbit ∧
    decode 0x1900 = .ok .brGetbyte ∧ decode 0x1A00 = .ok .brAlign ∧ decode 0x2000 = .ok .ftClear ∧
    decode 0x2800 = .ok .tbBuild ∧ decode 0x3000 = .ok .tsSerialize ∧ decode 0x3100 = .ok .tdDeserialize ∧
    decode 0x3800 = .ok .ctGenerate ∧ decode 0x4800 = .ok .hdDecode ∧ decode 0x5000 = .ok .hdrWrite ∧
    decode 0x5100 = .ok .hdrRead ∧ decode 0x6000 = .ok .compress ∧ decode 0x6100 = .ok .decompress) ∧
  TakesByte 0x11 .bwPutbyte ∧ TakesByte 0x21 .ftCount ∧ TakesByte 0x22 .ftRead ∧ TakesByte 0x39 .ctReadlen ∧
  TakesByte 0x40 .heEncode

/-- R70 to R72: decoding the word of any well-formed instruction gives the instruction back. -/
def Obligations.DecodeOfEncode : Prop := ∀ i : Instr, i.wellFormed = true → decode (encode i) = .ok i

/-- R70 to R74: a word that decodes is the word of the command it decodes to, so no two words name one command. -/
def Obligations.EncodeOfDecode : Prop :=
  ∀ (w : CmdWord) (i : Instr), decode w = .ok i → encode i = w ∧ i.wellFormed = true ∧ opField w = opcodeOf i

/-- R73: which words are illegal, and what an illegal word does; 0x0100 is accepted under the error lock; every opcode
from 0x80 is illegal; the one encoding of NOP is 0x0000. -/
def Obligations.IllegalWordsAreRefused : Prop :=
  (∀ w : CmdWord, IllegalWord w ↔ ∃ e, decode w = .error e) ∧
  (∀ (w : CmdWord) (s : State), IllegalWord w → s.status = .success →
    issue w s = .next (errorState .illegalCommand (w.extractLsb' 8 8) s)) ∧
  (∀ s : State, s.status ≠ .success → issue 0x0100 s = .next (resetState s)) ∧
  (∀ w : CmdWord, 0x80 ≤ (w.extractLsb' 8 8).toNat → IllegalWord w) ∧
  (∀ w : CmdWord, decode w = .ok .nop ↔ w = 0x0000)

/-! ### 60_exceptions.md: acceptance, errors, the lock -/

/-- A step runs the decoded command: when the host's next move writes a word that decodes to `i` to CMD, the step is
exec of `i` once the move is taken off the queue; the word that withFetchWord places is such a move; with no move pending
a step changes nothing (the queue is the model's own, log entry 1). -/
def Obligations.StepRunsTheDecodedCommand : Prop :=
  (∀ (s : State) (data : Word) (rest : List HostMove) (i : Instr),
    s.hostQueue = .writeReg 0 data :: rest → decode (data.extractLsb' 0 16) = .ok i →
      step s = exec i { s with hostQueue := rest }) ∧
  (∀ (s : State) (w : Nat) (i : Instr), w < 2 ^ 16 → decodeTableWord 16 w = some i →
    step (s.withFetchWord 16 w) = exec i s) ∧
  (∀ s : State, s.hostQueue = [] → step s = .next s)

/-- R224: the one procedure for a command word, check by check; a raise in the command itself takes the error path. -/
def Obligations.CommandProcedure : Prop :=
  (∀ s : State, issue 0x0100 s = .next (resetState s)) ∧
  ∀ (w : CmdWord) (s : State), w ≠ 0x0100 →
    (s.status ≠ .success → issue w s = .next s) ∧
    (s.status = .success →
      (reservedMask (w.extractLsb' 8 8) = none →
        issue w s = .next (errorState .illegalCommand (w.extractLsb' 8 8) s)) ∧
      ∀ m, reservedMask (w.extractLsb' 8 8) = some m →
        (w.extractLsb' 0 8 &&& m ≠ 0 → issue w s = .next (errorState .illegalCommand (w.extractLsb' 8 8) s)) ∧
        (w.extractLsb' 0 8 &&& m = 0 →
          (¬ precondition (w.extractLsb' 8 8) s →
            issue w s = .next (errorState .illegalCommand (w.extractLsb' 8 8) s)) ∧
          (precondition (w.extractLsb' 8 8) s →
            ∃ i, decode w = .ok i ∧ opcodeOf i = w.extractLsb' 8 8 ∧ i.arg = w.extractLsb' 0 8 ∧ issue w s = exec i s ∧
              ∀ t, exec i s = .next t → t.status ≠ .success →
                t = errorState t.status (w.extractLsb' 8 8) t ∧ t.result = s.result)))

/-- R223 and R231: while STATUS is not SUCCESS every word but 0x0100 is ignored, so 0x0100 is the only way out, and the
first error stays recorded until then. -/
def Obligations.ErrorLockIgnoresAllButReset : Prop :=
  ∀ (w : CmdWord) (s t : State), s.status ≠ .success → issue w s = .next t →
    (w ≠ 0x0100 → t = s) ∧ (w = 0x0100 → t = resetState s ∧ t.status = .success ∧ t.errOp = 0)

/-- R225: the precondition of each command, the refusal where it is false and no such refusal where it is true; and
CT_VALID = 1 implies TREE_VALID = 1 in every state that meets the invariant. -/
def Obligations.PreconditionsGuardTreeAndCodes : Prop :=
  (∀ s : State, s.status = .success → s.store.valid = false →
    exec .tsSerialize s = .next (errorState .illegalCommand 0x30 s) ∧
    exec .ctGenerate s = .next (errorState .illegalCommand 0x38 s) ∧
    exec .hdDecode s = .next (errorState .illegalCommand 0x48 s)) ∧
  (∀ (s : State) (sym : Byte), s.status = .success → s.ct.valid = false →
    exec (.heEncode sym) s = .next (errorState .illegalCommand 0x40 s)) ∧
  (∀ (i : Instr) (s t : State), s.status = .success → exec i s = .next t → t.status = .illegalCommand →
    ((i = .tsSerialize ∨ i = .ctGenerate ∨ i = .hdDecode) ∧ s.store.valid = false) ∨
      (∃ sym, i = .heEncode sym ∧ s.ct.valid = false)) ∧
  (∀ s : State, s.Inv → s.ct.valid = true → s.store.valid = true)

/-- R226, R227, R228, R230: what an error leaves. STATUS and ERR_OP are recorded, RESULT is as before the command, the
datapath is as Release leaves it, and the source reads and sink writes made before the raise stay. -/
def Obligations.ErrorPathReleases : Prop :=
  ∀ (i : Instr) (s t : State), s.status = .success → exec i s = .next t → t.status ≠ .success →
    t.errOp = opcodeOf i ∧ t.result = s.result ∧
    (∀ q, t.ft.get q = 0) ∧ t.ft.total = 0 ∧ t.dcount = 0 ∧
    t.store.nodes = [] ∧ t.store.root = 0 ∧ t.store.valid = false ∧
    (∀ q, t.ct.get q = ⟨false, 0, 0⟩) ∧ t.ct.valid = false ∧
    t.reader.rbuf = 0 ∧ t.reader.rcnt = 0 ∧ t.writer.acc = 0 ∧ t.writer.nacc = 0 ∧
    t.reader.input = s.reader.input ∧ s.reader.ipos ≤ t.reader.ipos ∧ s.writer.out <+: t.writer.out

/-- R221: which commands raise which error. -/
def Obligations.ErrorKindsByCommand : Prop :=
  ∀ (i : Instr) (s t : State), s.status = .success → exec i s = .next t →
    (t.status = .outOfMemory → (∃ sym, i = .ftCount sym) ∨ i = .compress) ∧
    (t.status = .wrongInput →
      i = .brGetbit ∨ i = .brGetbyte ∨ i = .tdDeserialize ∨ i = .hdDecode ∨ i = .hdrRead ∨ i = .decompress ∨
        ∃ sym, i = .heEncode sym ∧ (s.ct.get sym).valid = false) ∧
    (t.status = .illegalCommand → i = .tsSerialize ∨ i = .ctGenerate ∨ i = .hdDecode ∨ ∃ sym, i = .heEncode sym) ∧
    (t.status = .success → t.errOp = s.errOp ∨ i = .reset)

/-! ### 10_state.md and 70_reset_and_hazards.md: reset, the register port, the environment -/

/-- R42: the value after reset of every piece of state the rule gives a value; CMD reads 0; IN, IPOS and OUT are unchanged by
reset. (Which values IN, IPOS, OUT, TIE_MERGED and the model's own fields have in State.reset is not stated.) -/
def Obligations.ResetValues : Prop :=
  State.reset.status = .success ∧ State.reset.errOp = 0 ∧ State.reset.result = 0 ∧
  (∀ q, State.reset.ft.get q = 0) ∧ State.reset.ft.total = 0 ∧ State.reset.dcount = 0 ∧
  State.reset.store.count = 0 ∧ State.reset.store.root = 0 ∧ State.reset.store.valid = false ∧
  (∀ q, State.reset.ct.get q = ⟨false, 0, 0⟩) ∧ State.reset.ct.valid = false ∧
  State.reset.writer.acc = 0 ∧ State.reset.writer.nacc = 0 ∧
  State.reset.reader.rbuf = 0 ∧ State.reset.reader.rcnt = 0 ∧ readReg State.reset 0 = 0 ∧
  ∀ s t : State, exec .reset s = .next t →
    t.reader.input = s.reader.input ∧ t.reader.ipos = s.reader.ipos ∧ t.writer.out = s.writer.out

/-- R211, R250: RESET and power-on put every register to its reset value in every state, locked or not, and leave IN,
IPOS and OUT; and 0x01xx with xx not 0 is ILLEGAL_COMMAND when unlocked and ignored when locked. -/
def Obligations.ResetCommandResets : Prop :=
  (∀ s : State, ∃ t, exec .reset s = .next t ∧ serve .powerOn s = .next t ∧
    t = { State.reset with
      writer := { State.reset.writer with out := s.writer.out }
      reader := { State.reset.reader with input := s.reader.input, ipos := s.reader.ipos }
      tieMerged := s.tieMerged, hostQueue := s.hostQueue, answers := s.answers }) ∧
  TakesNoOperand 0x01 .reset ∧
  ∀ (arg : Byte) (s : State), arg ≠ 0 → s.status ≠ .success → issue (0x01#8 ++ arg) s = .next s

/-- R210: NOP changes nothing; 0x0001 to 0x00FF are illegal. -/
def Obligations.NopDoesNothing : Prop := (∀ s : State, exec .nop s = .next s) ∧ TakesNoOperand 0x00 .nop

/-- R21, R37, R38: the register port. A read answers the register's value, zero-extended, and changes nothing else; CMD
and every reserved address read 0. A write to address 0 issues bits 15 to 0; any other write is ignored. -/
def Obligations.RegisterPort : Prop :=
  (∀ (s : State) (a : Nat) (rest : List HostMove), s.hostQueue = .readReg a :: rest → s.store.nodes.length ≤ 511 →
    ∃ v : Word, step s = .next { s with hostQueue := rest, answers := s.answers ++ [v] } ∧
      v.toNat =
        match a with
        | 1 => match s.status with
          | .success => 0
          | .outOfMemory => 1
          | .wrongInput => 2
          | .illegalCommand => 3
        | 2 => s.errOp.toNat
        | 3 => s.result.toNat
        | 4 => s.ft.total.toNat
        | 5 => (if s.store.valid then 1 else 0) + (if s.ct.valid then 2 else 0) + 4 * s.writer.nacc.toNat +
            32 * s.reader.rcnt.toNat + 512 * s.store.nodes.length
        | 6 => s.dcount.toNat
        | _ => 0) ∧
  (∀ (s : State) (d : Word) (rest : List HostMove), s.hostQueue = .writeReg 0 d :: rest →
    step s = issue (d.extractLsb' 0 16) { s with hostQueue := rest }) ∧
  (∀ (s : State) (a : Nat) (d : Word) (rest : List HostMove), a ≠ 0 → s.hostQueue = .writeReg a d :: rest →
    step s = .next { s with hostQueue := rest })

/-- R36 (with R211 for RESET): six commands write RESULT, on success only; RESET clears it; no other command changes it. -/
def Obligations.OnlySixCommandsWriteResult : Prop :=
  ∀ (i : Instr) (s t : State), exec i s = .next t → t.result ≠ s.result →
    i = .reset ∨
    (t.status = .success ∧
      (i = .brGetbit ∨ i = .brGetbyte ∨ (∃ q, i = .ftRead q) ∨ (∃ q, i = .ctReadlen q) ∨ i = .hdDecode ∨ i = .hdrRead))

/-- R39 and R58: no command changes IN; every command only appends to OUT; IPOS ends no lower than it started and never
past the end. The fields of the model that no command owns (log entries 1 and 3) stay. -/
def Obligations.StreamsAreReadForwardAndAppended : Prop :=
  ∀ (i : Instr) (s t : State), exec i s = .next t →
    t.reader.input = s.reader.input ∧ s.writer.out <+: t.writer.out ∧
    (s.reader.ipos ≤ s.reader.input.length → s.reader.ipos ≤ t.reader.ipos ∧ t.reader.ipos ≤ t.reader.input.length) ∧
    t.tieMerged = s.tieMerged ∧ t.hostQueue = s.hostQueue ∧ t.answers = s.answers

/-! ### 40_bit_io.md -/

/-- R106 (R100): BW_PUTBIT sets bit 7 - NACC of ACC; the eighth bit sends the byte to OUT at once. -/
def Obligations.PutBitFillsAccFromTheTop : Prop :=
  (∀ b : Bool, decode (0x10#8 ++ (if b then 1#8 else 0#8)) = .ok (.bwPutbit b)) ∧
  (∀ (arg : Byte) (s : State), arg &&& 0xFE ≠ 0 → s.status = .success →
    issue (0x10#8 ++ arg) s = .next (errorState .illegalCommand 0x10 s)) ∧
  ∀ (b : Bool) (s : State), s.status = .success →
    ∃ acc : Byte,
      (∀ i, i < 8 → acc.getLsbD i = if i = 7 - s.writer.nacc.toNat then b else s.writer.acc.getLsbD i) ∧
      exec (.bwPutbit b) s = .next { s with
        writer := if s.writer.nacc = 7 then ⟨0, 0, s.writer.out ++ [acc]⟩ else ⟨acc, s.writer.nacc + 1, s.writer.out⟩ }

/-- R107 (R101): with k bits pending, BW_PUTBYTE appends one byte, the k pending bits then the top 8 - k bits of the
operand; its low k bits are left pending. -/
def Obligations.PutByteStraddles : Prop :=
  TakesByte 0x11 .bwPutbyte ∧
  ∀ (v : Byte) (s : State), s.status = .success →
    exec (.bwPutbyte v) s = .next { s with
      writer := ⟨v <<< (8 - s.writer.nacc.toNat), s.writer.nacc,
        s.writer.out ++ [(s.writer.acc >>> (8 - s.writer.nacc.toNat)) <<< (8 - s.writer.nacc.toNat) |||
          v >>> s.writer.nacc.toNat]⟩ }

/-- R108 (R102): BW_FLUSH writes out a partial byte, and nothing when NACC = 0; a second one writes nothing. -/
def Obligations.FlushWritesAtMostOneByte : Prop :=
  TakesNoOperand 0x12 .bwFlush ∧
  ∀ s : State, s.status = .success →
    exec .bwFlush s = .next (if s.writer.nacc = 0 then s else { s with writer := ⟨0, 0, s.writer.out ++ [s.writer.acc]⟩ }) ∧
    ∀ t, exec .bwFlush s = .next t → exec .bwFlush t = .next t

/-- R109 (R103): BR_GETBIT takes the held bit RCNT - 1, or bit 7 of a byte fetched only when none is held; at the end
of the source it raises WRONG_INPUT. -/
def Obligations.GetBitFetchesLazily : Prop :=
  TakesNoOperand 0x18 .brGetbit ∧
  ∀ s : State, s.status = .success →
    (s.reader.rcnt ≠ 0 →
      exec .brGetbit s = .next { s with
        result := if s.reader.rbuf.getLsbD (s.reader.rcnt.toNat - 1) then 1 else 0
        reader := { s.reader with rcnt := s.reader.rcnt - 1 } }) ∧
    (∀ v, s.reader.rcnt = 0 → s.reader.input[s.reader.ipos]? = some v →
      exec .brGetbit s = .next { s with
        result := if v.getLsbD 7 then 1 else 0
        reader := ⟨v, 7, s.reader.input, s.reader.ipos + 1⟩ }) ∧
    (s.reader.rcnt = 0 → s.reader.input.length ≤ s.reader.ipos →
      exec .brGetbit s = .next (errorState .wrongInput 0x18 s))

/-- R110 (R104): BR_GETBYTE joins the k held bits and the top 8 - k bits of the next byte, and k bits are held again;
with all 8 bits held (between commands RCNT is at most 7) it would take those; without the bits it raises WRONG_INPUT. -/
def Obligations.GetByteJoinsHeldAndFetchedBits : Prop :=
  TakesNoOperand 0x19 .brGetbyte ∧
  ∀ s : State, s.status = .success →
    (∀ v, s.reader.rcnt.toNat ≤ 7 → s.reader.input[s.reader.ipos]? = some v →
      exec .brGetbyte s = .next { s with
        result := (s.reader.rbuf <<< (8 - s.reader.rcnt.toNat) ||| v >>> s.reader.rcnt.toNat).setWidth 32
        reader := ⟨v, s.reader.rcnt, s.reader.input, s.reader.ipos + 1⟩ }) ∧
    (s.reader.rcnt = 8 →
      exec .brGetbyte s = .next { s with
        result := s.reader.rbuf.setWidth 32
        reader := { s.reader with rcnt := 0 } }) ∧
    (s.reader.rcnt.toNat ≤ 7 → s.reader.input.length ≤ s.reader.ipos →
      exec .brGetbyte s = .next (errorState .wrongInput 0x19 s))

/-- R111 (R105): BR_ALIGN drops the held bits and reads nothing. -/
def Obligations.AlignDropsHeldBits : Prop :=
  TakesNoOperand 0x1A .brAlign ∧
  ∀ s : State, s.status = .success → exec .brAlign s = .next { s with reader := { s.reader with rcnt := 0 } }

/-- R112: bits put with BW_PUTBIT from NACC = 0 and flushed are ceil(L/8) bytes; BR_GETBIT reads them back in order, then
the zero pad bits. -/
def Obligations.WriterAndReaderAreInverses : Prop :=
  ∀ (bits : List Bool) (s : State), s.status = .success → s.writer.nacc = 0 → s.writer.acc = 0 →
    ∃ bytes : List Byte,
      runWords (bits.map (fun b => encode (.bwPutbit b)) ++ [0x1200]) s =
        .next { s with writer := ⟨0, 0, s.writer.out ++ bytes⟩ } ∧
      bytes.length = (bits.length + 7) / 8 ∧
      ∀ (r : State) (more : List Byte), r.status = .success → r.reader.rcnt = 0 → r.reader.unread = bytes ++ more →
        ∀ j, j < 8 * bytes.length →
          ∃ u, runWords (List.replicate (j + 1) 0x1800) r = .next u ∧
            u.result = if (bits[j]?).getD false then 1 else 0

/-! ### 41_frequency.md -/

/-- R121 (R120): FT_COUNT counts one symbol, or raises OUT_OF_MEMORY when TOTAL = 0x7FFFFFFF; in a state that meets the
invariant of R27 neither addition wraps. That the source is not read (IN, IPOS, RBUF and RCNT stay) is the model's choice,
log entry 11 (DEDUCED): R121's pseudocode is followed against the sentence "FT_COUNT also reads with SrcRead" of R255. -/
def Obligations.CountAddsOne : Prop :=
  TakesByte 0x21 .ftCount ∧
  ∀ (sym : Byte) (s : State), s.status = .success →
    (s.ft.total ≠ 0x7FFFFFFF →
      ∃ t : FreqTable, exec (.ftCount sym) s = .next { s with ft := t } ∧ t.total = s.ft.total + 1 ∧
        (∀ q, t.get q = if q = sym then s.ft.get q + 1 else s.ft.get q) ∧
        (s.ft.Ok → t.total.toNat = s.ft.total.toNat + 1 ∧ (t.get sym).toNat = (s.ft.get sym).toNat + 1 ∧ t.Ok)) ∧
    (s.ft.total = 0x7FFFFFFF → exec (.ftCount sym) s = .next (errorState .outOfMemory 0x21 s))

/-- R122: FT_CLEAR zeroes every counter and TOTAL, and touches nothing else. -/
def Obligations.ClearZeroesTheTable : Prop :=
  TakesNoOperand 0x20 .ftClear ∧
  ∀ s : State, s.status = .success →
    ∃ t : FreqTable, exec .ftClear s = .next { s with ft := t } ∧ (∀ q, t.get q = 0) ∧ t.total = 0

/-- R123: FT_READ puts FREQ[sym] into RESULT, whose bit 31 is 0 in a state that meets R27. -/
def Obligations.ReadGivesTheCounter : Prop :=
  TakesByte 0x22 .ftRead ∧
  ∀ (sym : Byte) (s : State), s.status = .success →
    exec (.ftRead sym) s = .next { s with result := s.ft.get sym } ∧
    (s.ft.Ok → (s.ft.get sym).getLsbD 31 = false)

/-! ### 42_tree_builder.md -/

/-- R130, R131, R133, R134: TB_BUILD. Leaf s is in slot s with frequency FREQ[s]; the m-th merge makes slot 256 + m from
the two smallest entries of the forest in KEY order, the smallest as `low`; ROOT = 510, 511 nodes, TREE_VALID = 1,
CT_VALID = 0, and nothing else changes. -/
def Obligations.BuildMergesTheTwoSmallest : Prop :=
  TakesNoOperand 0x28 .tbBuild ∧
  ∀ s : State, s.status = .success →
    ∃ nodes : List Node,
      exec .tbBuild s = .next { s with store := ⟨nodes, 510, true⟩, ct := { s.ct with valid := false } } ∧
      nodes.length = 511 ∧
      (∀ q : Byte, nodes[q.toNat]? = some (.leaf q (s.ft.get q))) ∧
      ∀ m, m < 255 → ∃ low high : Slot,
        nodes[256 + m]? = some (.internal (nodeFreq nodes low.toNat + nodeFreq nodes high.toNat) low high) ∧
        InForest nodes m low.toNat ∧ InForest nodes m high.toNat ∧ low ≠ high ∧
        (∀ c, InForest nodes m c → c ≠ low.toNat →
          keyBefore (slotKey s.tieMerged nodes low.toNat) (slotKey s.tieMerged nodes c)) ∧
        (∀ c, InForest nodes m c → c ≠ low.toNat → c ≠ high.toNat →
          keyBefore (slotKey s.tieMerged nodes high.toNat) (slotKey s.tieMerged nodes c))

/-- R135 items 1, 2, 4 and 6, and R22: a built tree is a strict binary tree with 256 leaves, one for each symbol; its
root's frequency is TOTAL; every code has 1 to 255 bits; it depends only on FREQ and TIE_MERGED. -/
def Obligations.BuiltTreeHasEverySymbolOnce : Prop :=
  ∀ s : State, s.status = .success →
    ∃ u t, exec .tbBuild s = .next u ∧ u.store.Ok ∧ u.store.tree = some t ∧
      t.leafCount = 256 ∧ t.symbols.Nodup ∧
      (∀ q, ∃ p, t.codeOf q = some p ∧ 1 ≤ p.length ∧ p.length ≤ 255) ∧
      (s.ft.Ok → nodeFreq u.store.nodes u.store.root.toNat = s.ft.total) ∧
      ∀ s' u', s'.status = .success → s'.tieMerged = s.tieMerged → s'.ft.freq = s.ft.freq →
        exec .tbBuild s' = .next u' → u'.store = u.store

/-- R134 (corner case) and R196: where only one symbol has a nonzero frequency, its code is the one bit `1`, under either
value of TIE_MERGED. -/
def Obligations.SingleSymbolGetsCodeOne : Prop :=
  ∀ (sym : Byte) (s : State), s.status = .success → s.ft.get sym ≠ 0 → (∀ q, q ≠ sym → s.ft.get q = 0) →
    ∃ u v, exec .tbBuild s = .next u ∧ exec .ctGenerate u = .next v ∧
      (v.ct.get sym).valid = true ∧ (v.ct.get sym).len = 1 ∧ (v.ct.get sym).code = 1

/-! ### 43_tree_serdes.md -/

/-- R141 (R140): TS_SERIALIZE writes the pending bits and the tree's bits by the grammar of R82, padded with zeros to a
byte; without a tree it is ILLEGAL_COMMAND. -/
def Obligations.SerializeWritesTheTreeRegion : Prop :=
  TakesNoOperand 0x30 .tsSerialize ∧
  (∀ s : State, s.status = .success → s.store.valid = false →
    exec .tsSerialize s = .next (errorState .illegalCommand 0x30 s)) ∧
  ∀ s : State, s.status = .success → s.store.Ok → s.store.valid = true → s.writer.Ok →
    ∃ t region, s.store.tree = some t ∧
      PacksTo ((byteBits s.writer.acc).take s.writer.nacc.toNat ++ treeBits t) region ∧
      exec .tsSerialize s = .next { s with writer := ⟨0, 0, s.writer.out ++ region⟩ }

/-- R142: a tree of k leaves is 10k - 1 bits; from NACC = 0 TS_SERIALIZE appends ceil((10k - 1)/8) bytes, and 320 for a
built tree. -/
def Obligations.SerializedSize : Prop :=
  (∀ t : Tree, (treeBits t).length = 10 * t.leafCount - 1) ∧
  (∀ (s : State) (t : Tree), s.status = .success → s.store.valid = true → s.store.tree = some t → s.writer.Ok →
    s.writer.nacc = 0 →
    ∃ u, exec .tsSerialize s = .next u ∧ u.writer.out.length = s.writer.out.length + (10 * t.leafCount - 1 + 7) / 8) ∧
  ∀ s : State, s.status = .success → s.writer.Ok → s.writer.nacc = 0 →
    ∃ u v t, exec .tbBuild s = .next u ∧ u.store.tree = some t ∧ t.leafCount = 256 ∧ exec .tsSerialize u = .next v ∧
      v.writer.out.length = s.writer.out.length + 320

/-- R145 (R143, R144): TD_DESERIALIZE. If the bits to come begin with a tree of at most 511 nodes (256 leaves), it rebuilds
that tree in pre-order slots from slot 0 with zero frequencies, ROOT = 0, and stands aligned after it, CT_VALID = 0; else it
raises WRONG_INPUT. -/
def Obligations.DeserializeRebuildsTheTree : Prop :=
  TakesNoOperand 0x31 .tdDeserialize ∧
  ∀ s : State, s.status = .success → s.reader.Ok →
    (∀ t rest, s.reader.bits = treeBits t ++ rest → t.leafCount ≤ 256 →
      ∃ nodes rbuf,
        exec .tdDeserialize s = .next { s with
          store := ⟨nodes, 0, true⟩, ct := { s.ct with valid := false }
          reader := ⟨rbuf, 0, s.reader.input, s.reader.ipos + (10 * t.leafCount - 1 - s.reader.rcnt.toNat + 7) / 8⟩ } ∧
        nodes.length = 2 * t.leafCount - 1 ∧ (NodeStore.mk nodes 0 true).tree = some t ∧
        slotsBelow nodes nodes.length 0 = List.range nodes.length ∧ (∀ n, nodeFreq nodes n = 0)) ∧
    ((∀ t rest, s.reader.bits = treeBits t ++ rest → 256 < t.leafCount) →
      ∃ p, s.reader.ipos ≤ p ∧ p ≤ s.reader.input.length ∧
        exec .tdDeserialize s = .next (errorState .wrongInput 0x31 { s with reader := { s.reader with ipos := p } }))

/-- R146: what TS_SERIALIZE writes from NACC = 0, TD_DESERIALIZE reads back from RCNT = 0, exactly those bytes, to a tree of
the same shape and symbols, so with the same codes. -/
def Obligations.SerializeThenDeserializeGivesTheTree : Prop :=
  ∀ s : State, s.status = .success → s.store.Ok → s.store.valid = true → s.writer.Ok → s.writer.nacc = 0 →
    ∃ t region, s.store.tree = some t ∧ region.length = (10 * t.leafCount - 1 + 7) / 8 ∧
      exec .tsSerialize s = .next { s with writer := ⟨0, 0, s.writer.out ++ region⟩ } ∧
      ∀ (r : State) (more : List Byte), r.status = .success → r.reader.rcnt = 0 → r.reader.unread = region ++ more →
        ∃ v, exec .tdDeserialize r = .next v ∧ v.status = .success ∧ v.store.tree = some t ∧ v.store.valid = true ∧
          v.reader.ipos = r.reader.ipos + region.length ∧ v.reader.rcnt = 0

/-! ### 44_code_table.md -/

/-- R161 (R160, R164, R85): CT_GENERATE gives each symbol the path to its last leaf in pre-order, bit j of CODE the j-th
step from the root and 0 above, and no code to a symbol without a leaf; without a tree it is ILLEGAL_COMMAND. -/
def Obligations.GenerateRecordsLeafPaths : Prop :=
  TakesNoOperand 0x38 .ctGenerate ∧
  (∀ s : State, s.status = .success → s.store.valid = false →
    exec .ctGenerate s = .next (errorState .illegalCommand 0x38 s)) ∧
  ∀ s : State, s.status = .success → s.store.Ok → s.store.valid = true →
    ∃ t c, s.store.tree = some t ∧ exec .ctGenerate s = .next { s with ct := c } ∧ c.valid = true ∧
      ∀ sym,
        (∀ p, t.codeOf sym = some p →
          (c.get sym).valid = true ∧ (c.get sym).len.toNat = p.length ∧
            ∀ j, (c.get sym).code.getLsbD j = (p[j]?).getD false) ∧
        (t.codeOf sym = none → c.get sym = ⟨false, 0, 0⟩)

/-- R162: CT_READLEN reads validity and length, whether or not the table is valid. -/
def Obligations.ReadLengthGivesValidityAndLength : Prop :=
  TakesByte 0x39 .ctReadlen ∧
  ∀ (sym : Byte) (s : State), s.status = .success →
    ∃ v : Word, exec (.ctReadlen sym) s = .next { s with result := v } ∧
      v.toNat = (if (s.ct.get sym).valid then 256 else 0) + (s.ct.get sym).len.toNat

/-- R163: after CT_GENERATE no code is a prefix of another symbol's code; and the 256 codes of a built tree are complete, the
sum of 2^(-CODE_LEN) being 1. -/
def Obligations.GeneratedCodesArePrefixFree : Prop :=
  (∀ s u : State, s.status = .success → s.store.Ok → s.store.valid = true → exec .ctGenerate s = .next u →
    ∀ a b, a ≠ b → (u.ct.get a).valid = true → (u.ct.get b).valid = true → ¬ (u.ct.get a).bits <+: (u.ct.get b).bits) ∧
  ∀ s : State, s.status = .success →
    ∃ u v, exec .tbBuild s = .next u ∧ exec .ctGenerate u = .next v ∧ (∀ q, (v.ct.get q).valid = true) ∧
      (allBytes.map fun q => 2 ^ (255 - (v.ct.get q).len.toNat)).sum = 2 ^ 255

/-! ### 45_codec.md -/

/-- R170: HE_ENCODE puts the code's bits, code bit 0 first, and flushes nothing; a symbol without a code is WRONG_INPUT, an
invalid table ILLEGAL_COMMAND. The bits put and the accumulator's zero padding (R31) fix the whole writer. -/
def Obligations.EncodePutsTheCode : Prop :=
  TakesByte 0x40 .heEncode ∧
  ∀ (sym : Byte) (s : State), s.status = .success →
    (s.ct.valid = false → exec (.heEncode sym) s = .next (errorState .illegalCommand 0x40 s)) ∧
    (s.ct.valid = true → (s.ct.get sym).valid = false →
      exec (.heEncode sym) s = .next (errorState .wrongInput 0x40 s)) ∧
    (s.ct.valid = true → (s.ct.get sym).valid = true → s.writer.Ok →
      ∃ w : BitWriter, exec (.heEncode sym) s = .next { s with writer := w } ∧ w.Ok ∧
        w.bits = s.writer.bits ++ (List.range (s.ct.get sym).len.toNat).map (s.ct.get sym).code.getLsbD ∧
        w.nacc.toNat = (s.writer.nacc.toNat + (s.ct.get sym).len.toNat) % 8)

/-- R171: HD_DECODE. If the bits to come begin with the path to a leaf, it takes exactly those bits, sends the leaf's symbol
straight to OUT and to RESULT, and leaves ACC and NACC; if they end before a leaf, WRONG_INPUT with nothing written to OUT;
without a tree ILLEGAL_COMMAND. A path has at most 255 bits. -/
def Obligations.DecodeDescendsToALeaf : Prop :=
  TakesNoOperand 0x48 .hdDecode ∧
  (∀ s : State, s.status = .success → s.store.valid = false →
    exec .hdDecode s = .next (errorState .illegalCommand 0x48 s)) ∧
  ∀ (s : State) (t : Tree), s.status = .success → s.reader.Ok → s.store.valid = true → s.store.tree = some t →
    (∀ p sym rest, (p, sym) ∈ t.codes → s.reader.bits = p ++ rest →
      ∃ r : BitReader,
        exec .hdDecode s = .next { s with
          result := sym.setWidth 32, reader := r, writer := { s.writer with out := s.writer.out ++ [sym] } } ∧
        r.Ok ∧ r.input = s.reader.input ∧ r.bits = rest ∧
        r.ipos = s.reader.ipos + (p.length - s.reader.rcnt.toNat + 7) / 8 ∧ (s.store.Ok → p.length ≤ 255)) ∧
    ((∀ p sym, (p, sym) ∈ t.codes → ¬ p <+: s.reader.bits) →
      exec .hdDecode s = .next (errorState .wrongInput 0x48
        { s with reader := { s.reader with ipos := s.reader.input.length } }))

/-- R172: HDR_WRITE puts the four bytes of TOTAL, least significant first, through the bit writer; from NACC = 0 it appends
exactly them; the last byte's bit 7 is 0 in a state that meets R27. -/
def Obligations.WriteCountPutsTotal : Prop :=
  TakesNoOperand 0x50 .hdrWrite ∧
  ∀ s : State, s.status = .success → s.writer.Ok →
    (∃ w : BitWriter, exec .hdrWrite s = .next { s with writer := w } ∧ w.Ok ∧ w.nacc = s.writer.nacc ∧
      w.bits = s.writer.bits ++ byteBits (s.ft.total.extractLsb' 0 8) ++ byteBits (s.ft.total.extractLsb' 8 8) ++
        byteBits (s.ft.total.extractLsb' 16 8) ++ byteBits (s.ft.total.extractLsb' 24 8) ∧
      (s.writer.nacc = 0 →
        w = ⟨0, 0, s.writer.out ++ [s.ft.total.extractLsb' 0 8, s.ft.total.extractLsb' 8 8,
          s.ft.total.extractLsb' 16 8, s.ft.total.extractLsb' 24 8]⟩)) ∧
    (s.ft.Ok → s.ft.total.getLsbD 31 = false)

/-- R173: HDR_READ reads four bytes, the first least significant; a nonnegative count goes to DCOUNT and RESULT; a negative
one, or a source that ends before 32 bits, is WRONG_INPUT. -/
def Obligations.ReadCountLoadsDcount : Prop :=
  TakesNoOperand 0x51 .hdrRead ∧
  ∀ s : State, s.status = .success → s.reader.Ok →
    (∀ (b0 b1 b2 b3 : Byte) (rest : List Bool),
      s.reader.bits = byteBits b0 ++ byteBits b1 ++ byteBits b2 ++ byteBits b3 ++ rest →
        (b3.getLsbD 7 = false →
          ∃ r : BitReader,
            exec .hdrRead s = .next { s with dcount := b3 ++ b2 ++ b1 ++ b0, result := b3 ++ b2 ++ b1 ++ b0, reader := r } ∧
            r.Ok ∧ r.input = s.reader.input ∧ r.bits = rest ∧
            r.ipos = s.reader.ipos + (32 - s.reader.rcnt.toNat + 7) / 8) ∧
        (b3.getLsbD 7 = true →
          exec .hdrRead s = .next (errorState .wrongInput 0x51
            { s with reader := { s.reader with ipos := s.reader.ipos + (32 - s.reader.rcnt.toNat + 7) / 8 } }))) ∧
    (s.reader.bits.length < 32 →
      exec .hdrRead s = .next (errorState .wrongInput 0x51
        { s with reader := { s.reader with ipos := s.reader.input.length } }))

/-- R174: HE_ENCODE of a sequence of symbols over the codes of a tree without repeated symbols, flushed, is read back by as
many HD_DECODEs over that tree, each taking exactly its code's bits. -/
def Obligations.EncoderAndDecoderAreInverses : Prop :=
  ∀ (t : Tree) (xs : List Byte) (s : State), t.symbols.Nodup → (∀ x ∈ xs, x ∈ t.symbols) → t.leafCount ≤ 256 →
    s.status = .success → s.writer.Ok → s.writer.nacc = 0 → s.ct = generateCodes t →
    ∃ bytes : List Byte,
      runWords (xs.map (fun x => encode (.heEncode x)) ++ [0x1200]) s =
        .next { s with writer := ⟨0, 0, s.writer.out ++ bytes⟩ } ∧
      ∀ (r : State) (more : List Byte), r.status = .success → r.store.valid = true → r.store.tree = some t →
        r.reader.rcnt = 0 → r.reader.unread = bytes ++ more →
        ∃ v, runWords (List.replicate xs.length 0x4800) r = .next v ∧ v.status = .success ∧
          v.writer.out = r.writer.out ++ xs ∧
          v.reader.bits = r.reader.bits.drop (xs.map fun x => (s.ct.get x).len.toNat).sum

/-! ### 46_pipelines.md and the container of 30_encoding.md -/

/-- R190: COMPRESS. For n unread bytes, n at most 0x7FFFFFFF, it appends exactly their container; IPOS is at the end, FREQ and
TOTAL keep the counts, DCOUNT is 0, the tree, the codes and both bit buffers are released, RESULT stays. A longer input is
OUT_OF_MEMORY, with nothing written to OUT and IPOS just past the byte that overflowed. -/
def Obligations.CompressWritesTheContainer : Prop :=
  TakesNoOperand 0x60 .compress ∧
  (∀ s : State, s.status = .success → s.reader.Ok → s.reader.unread.length ≤ 0x7FFFFFFF →
    ∃ c ft, IsContainer s.tieMerged s.reader.unread c ∧
      exec .compress s = .next { s with
        ft := ft, dcount := 0, store := ⟨[], 0, false⟩, ct := .zero
        writer := ⟨0, 0, s.writer.out ++ c⟩, reader := ⟨0, 0, s.reader.input, s.reader.input.length⟩ } ∧
      ft.total.toNat = s.reader.unread.length ∧ ∀ q, (ft.get q).toNat = s.reader.unread.count q) ∧
  ∀ s : State, s.status = .success → 0x7FFFFFFF < s.reader.unread.length →
    exec .compress s = .next (errorState .outOfMemory 0x60
      { s with reader := { s.reader with ipos := s.reader.ipos + 0x7FFFFFFF + 1 } })

/-- R192, R86: what a COMPRESS that succeeds appends is the container of R80 for its input: 4 bytes for an empty input, else
4 + 320 + ceil(sum of FREQ[s] * CODE_LEN[s] / 8), with the frequencies FREQ holds after it and the codes of the built tree. -/
def Obligations.CompressedSize : Prop :=
  ∀ s u : State, s.status = .success → s.reader.Ok → exec .compress s = .next u → u.status = .success →
    ∃ c, u.writer.out = s.writer.out ++ c ∧ IsContainer s.tieMerged s.reader.unread c ∧
      (s.reader.unread = [] → c = [0, 0, 0, 0]) ∧
      (s.reader.unread ≠ [] →
        ∃ t, (buildTree s.tieMerged (freqOf s.reader.unread)).tree = some t ∧
          c.length = 4 + 320 + ((allBytes.map fun q => (u.ft.get q).toNat * ((t.codeOf q).getD []).length).sum + 7) / 8)

/-- R191: DECOMPRESS of a container, whoever made it. A zero count emits nothing; else the tree is read, `count` codes are
decoded straight to OUT, IPOS is just past the last byte needed, DCOUNT holds the count, FREQ and TOTAL are 0, and the tree
and the bit buffers are released. A container of R87 is WRONG_INPUT; a payload that ends early leaves the symbols decoded
before the error in OUT (R230), and IPOS at the end. -/
def Obligations.DecompressDecodesContainers : Prop :=
  TakesNoOperand 0x61 .decompress ∧
  (∀ (s : State) (b0 b1 b2 b3 : Byte) (rest : List Byte), s.status = .success → s.reader.Ok →
    s.reader.unread = b0 :: b1 :: b2 :: b3 :: rest → b3.getLsbD 7 = false →
    (b3 ++ b2 ++ b1 ++ b0 = (0 : Word) →
      exec .decompress s = .next { released s with reader := ⟨0, 0, s.reader.input, s.reader.ipos + 4⟩ }) ∧
    (∀ t region payload cs tail, rest = region ++ payload → IsTreeRegion t region → PayloadHolds t payload cs tail →
      cs.length = (b3 ++ b2 ++ b1 ++ b0 : Word).toNat → cs ≠ [] →
      exec .decompress s = .next { released s with
        dcount := b3 ++ b2 ++ b1 ++ b0
        writer := ⟨0, 0, s.writer.out ++ cs.map Prod.snd⟩
        reader := ⟨0, 0, s.reader.input,
          s.reader.ipos + 4 + region.length + ((cs.flatMap Prod.fst).length + 7) / 8⟩ }) ∧
    (∀ t region payload cs, rest = region ++ payload → IsTreeRegion t region →
      PayloadEndsEarly (b3 ++ b2 ++ b1 ++ b0 : Word).toNat t payload cs →
      exec .decompress s = .next (errorState .wrongInput 0x61 { s with
        writer := { s.writer with out := s.writer.out ++ cs.map Prod.snd }
        reader := { s.reader with ipos := s.reader.input.length } }))) ∧
  ∀ s : State, s.status = .success → s.reader.Ok → RefusedContainer s.reader.unread →
    ∃ u, exec .decompress s = .next u ∧ u.status = .wrongInput ∧ u.errOp = 0x61

/-- R87: DECOMPRESS raises WRONG_INPUT exactly on the containers (a) to (e) and accepts every other byte sequence. -/
def Obligations.DecompressRefusesExactlyTheMalformed : Prop :=
  ∀ s : State, s.status = .success → s.reader.Ok →
    ∃ u, exec .decompress s = .next u ∧
      (RefusedContainer s.reader.unread → u.status = .wrongInput ∧ u.errOp = 0x61) ∧
      (¬ RefusedContainer s.reader.unread → u.status = .success)

/-- R193: DECOMPRESS of what COMPRESS appended for S appends exactly S and ends with SUCCESS, under either TIE_MERGED of
either core, and whatever bytes follow the container. -/
def Obligations.RoundTrip : Prop :=
  ∀ s : State, s.status = .success → s.reader.Ok → s.reader.unread.length ≤ 0x7FFFFFFF →
    ∃ c u, exec .compress s = .next u ∧ u.status = .success ∧ u.writer.out = s.writer.out ++ c ∧
      ∀ (r : State) (more : List Byte), r.status = .success → r.reader.Ok → r.reader.unread = c ++ more →
        ∃ v, exec .decompress r = .next v ∧ v.status = .success ∧ v.writer.out = r.writer.out ++ s.reader.unread ∧
          v.reader.ipos = r.reader.ipos + c.length

/-- R194: DECOMPRESS of any proper prefix of a container that COMPRESS made raises WRONG_INPUT. -/
def Obligations.TruncatedContainersAreRefused : Prop :=
  ∀ s : State, s.status = .success → s.reader.Ok → s.reader.unread.length ≤ 0x7FFFFFFF →
    ∃ c u, exec .compress s = .next u ∧ u.writer.out = s.writer.out ++ c ∧
      ∀ (r : State) (cut : List Byte), r.status = .success → r.reader.Ok → r.reader.unread = cut → cut <+: c → cut ≠ c →
        ∃ v, exec .decompress r = .next v ∧ v.status = .wrongInput ∧ v.errOp = 0x61

/-- R195: what COMPRESS appends depends only on the unread part of IN and on TIE_MERGED. -/
def Obligations.CompressIsDeterminedByInput : Prop :=
  ∀ s r : State, s.status = .success → r.status = .success → s.reader.Ok → r.reader.Ok →
    s.tieMerged = r.tieMerged → s.reader.unread = r.reader.unread →
    ∃ c u v, exec .compress s = .next u ∧ exec .compress r = .next v ∧
      u.writer.out = s.writer.out ++ c ∧ v.writer.out = r.writer.out ++ c ∧ u.status = v.status ∧ u.ft = v.ft

/-- R76: for a non-empty s of at most 0x7FFFFFFF bytes, MANUAL_COMPRESS "s" issued with no writer bits pending (NACC = 0,
R256: pending bits would stand ahead of its container) appends the bytes that COMPRESS appends when the unread part of IN
is s. -/
def Obligations.ManualCompressMatchesCompress : Prop :=
  ∀ (xs : List Byte) (s : State), xs ≠ [] → xs.length ≤ 0x7FFFFFFF → s.status = .success → s.writer.Ok →
    s.writer.nacc = 0 →
    ∃ c u, runWords ((expandPseudo (.manualCompress xs)).map encode) s = .next u ∧ u.status = .success ∧
      u.writer.out = s.writer.out ++ c ∧
      ∀ r : State, r.status = .success → r.reader.Ok → r.tieMerged = s.tieMerged → r.reader.unread = xs →
        ∃ v, exec .compress r = .next v ∧ v.status = .success ∧ v.writer.out = r.writer.out ++ c

/-- R76: PUT_U32 v writes the same bytes as HDR_WRITE does when TOTAL = v, at any alignment. -/
def Obligations.PutU32MatchesHdrWrite : Prop :=
  ∀ (v : Word) (s : State), s.status = .success → s.ft.total = v →
    ∃ u, runWords ((expandPseudo (.putU32 v)).map encode) s = .next u ∧ exec .hdrWrite s = .next u ∧
      ∃ w, u = { s with writer := w }

/-! ### The whole machine -/

/-- R254: every command that replaces or clears the tree clears CT_VALID: TB_BUILD, TD_DESERIALIZE, COMPRESS, DECOMPRESS,
RESET and every error; HE_ENCODE without a valid table is ILLEGAL_COMMAND; FT_COUNT and FT_CLEAR leave the tree. -/
def Obligations.NoStaleCodeTable : Prop :=
  (∀ (i : Instr) (s t : State), exec i s = .next t → t.store ≠ s.store → t.ct.valid = false) ∧
  (∀ (i : Instr) (s t : State), exec i s = .next t → s.status = .success →
    (i = .tbBuild ∨ i = .tdDeserialize ∨ i = .compress ∨ i = .decompress ∨ i = .reset ∨ t.status ≠ .success) →
      t.ct.valid = false) ∧
  (∀ (i : Instr) (s t : State), exec i s = .next t → s.status = .success → t.ct.valid = false → s.ct.valid = true →
    i = .tbBuild ∨ i = .tdDeserialize ∨ i = .compress ∨ i = .decompress ∨ i = .reset ∨ t.status ≠ .success) ∧
  (∀ (sym : Byte) (s : State), s.status = .success → s.ct.valid = false →
    exec (.heEncode sym) s = .next (errorState .illegalCommand 0x40 s)) ∧
  (∀ (sym : Byte) (s t : State), (exec (.ftCount sym) s = .next t ∨ exec .ftClear s = .next t) → t.status = .success →
    t.store = s.store ∧ t.ct = s.ct)

/-- R232: the selector wrapper. `c` (0x63) runs COMPRESS and `d` (0x64) DECOMPRESS on the rest of the stream and reports
STATUS; an empty stream or another selector is WRONG_INPUT with no command issued and the core as it was. -/
def Obligations.WrapperSelects : Prop :=
  (∀ (sel : Byte) (rest : List Byte) (s u : State), sel = 0x63 →
    issue 0x6000 { s with reader := { s.reader with input := rest, ipos := 0 } } = .next u →
      wrapper (sel :: rest) s = .next (u.status, u)) ∧
  (∀ (sel : Byte) (rest : List Byte) (s u : State), sel = 0x64 →
    issue 0x6100 { s with reader := { s.reader with input := rest, ipos := 0 } } = .next u →
      wrapper (sel :: rest) s = .next (u.status, u)) ∧
  (∀ (sel : Byte) (rest : List Byte) (s : State), sel ≠ 0x63 → sel ≠ 0x64 →
    wrapper (sel :: rest) s = .next (.wrongInput, s) ∧ wrapperMoves (sel :: rest) = []) ∧
  ∀ s : State, wrapper [] s = .next (.wrongInput, s) ∧ wrapperMoves [] = []

/-- The invariant (R22, R27 to R32, R35, R223, R225) holds in the reset state. -/
def Obligations.ResetMeetsTheInvariant : Prop := State.reset.Inv

/-- The invariant (R22, R27 to R32, R35, R223, R225) is kept by every step, whatever the host does. -/
def Obligations.EveryStepKeepsTheInvariant : Prop := ∀ s t : State, s.Inv → step s = .next t → t.Inv

/-- R236 ("Every command terminates") and R22: from every state that meets the invariant every command answers a next state,
and the machine runs on for any number of steps without a fault or a refusal. -/
def Obligations.EveryRunIsSafe : Prop :=
  (∀ (i : Instr) (s : State), s.Inv → ∃ t, exec i s = .next t) ∧ ∀ s : State, s.Inv → SafeRun s
end

