-- ==== Sys2Proof/Laws/State.lean ====
section
/-! SUPPORT. What each update of the state does to each field: true by rfl, tagged simp, so that no proof unfolds a
record update. -/

namespace Sys2Proof.Machine

@[simp] theorem releaseTree_status (s : State) : (releaseTree s).status = s.status := rfl
@[simp] theorem releaseTree_errOp (s : State) : (releaseTree s).errOp = s.errOp := rfl
@[simp] theorem releaseTree_result (s : State) : (releaseTree s).result = s.result := rfl
@[simp] theorem releaseTree_ft (s : State) : (releaseTree s).ft = s.ft := rfl
@[simp] theorem releaseTree_dcount (s : State) : (releaseTree s).dcount = s.dcount := rfl
@[simp] theorem releaseTree_store (s : State) : (releaseTree s).store = .empty := rfl
@[simp] theorem releaseTree_ct (s : State) : (releaseTree s).ct = .zero := rfl
@[simp] theorem releaseTree_writer (s : State) : (releaseTree s).writer = s.writer := rfl
@[simp] theorem releaseTree_reader (s : State) : (releaseTree s).reader = ⟨0, 0, s.reader.input, s.reader.ipos⟩ := rfl
@[simp] theorem releaseTree_tieMerged (s : State) : (releaseTree s).tieMerged = s.tieMerged := rfl
@[simp] theorem releaseTree_hostQueue (s : State) : (releaseTree s).hostQueue = s.hostQueue := rfl
@[simp] theorem releaseTree_answers (s : State) : (releaseTree s).answers = s.answers := rfl

@[simp] theorem release_status (s : State) : (release s).status = s.status := rfl
@[simp] theorem release_errOp (s : State) : (release s).errOp = s.errOp := rfl
@[simp] theorem release_result (s : State) : (release s).result = s.result := rfl
@[simp] theorem release_ft (s : State) : (release s).ft = .zero := rfl
@[simp] theorem release_dcount (s : State) : (release s).dcount = 0 := rfl
@[simp] theorem release_store (s : State) : (release s).store = .empty := rfl
@[simp] theorem release_ct (s : State) : (release s).ct = .zero := rfl
@[simp] theorem release_writer (s : State) : (release s).writer = ⟨0, 0, s.writer.out⟩ := rfl
@[simp] theorem release_reader (s : State) : (release s).reader = ⟨0, 0, s.reader.input, s.reader.ipos⟩ := rfl
@[simp] theorem release_tieMerged (s : State) : (release s).tieMerged = s.tieMerged := rfl
@[simp] theorem release_hostQueue (s : State) : (release s).hostQueue = s.hostQueue := rfl
@[simp] theorem release_answers (s : State) : (release s).answers = s.answers := rfl

@[simp] theorem takeError_status (e : ErrorKind) (op : Byte) (s : State) : (takeError e op s).status = e.status := rfl
@[simp] theorem takeError_errOp (e : ErrorKind) (op : Byte) (s : State) : (takeError e op s).errOp = op := rfl
@[simp] theorem takeError_result (e : ErrorKind) (op : Byte) (s : State) : (takeError e op s).result = s.result := rfl
@[simp] theorem takeError_ft (e : ErrorKind) (op : Byte) (s : State) : (takeError e op s).ft = .zero := rfl
@[simp] theorem takeError_dcount (e : ErrorKind) (op : Byte) (s : State) : (takeError e op s).dcount = 0 := rfl
@[simp] theorem takeError_store (e : ErrorKind) (op : Byte) (s : State) : (takeError e op s).store = .empty := rfl
@[simp] theorem takeError_ct (e : ErrorKind) (op : Byte) (s : State) : (takeError e op s).ct = .zero := rfl
@[simp] theorem takeError_writer (e : ErrorKind) (op : Byte) (s : State) : (takeError e op s).writer = ⟨0, 0, s.writer.out⟩ := rfl
@[simp] theorem takeError_reader (e : ErrorKind) (op : Byte) (s : State) : (takeError e op s).reader = ⟨0, 0, s.reader.input, s.reader.ipos⟩ := rfl
@[simp] theorem takeError_tieMerged (e : ErrorKind) (op : Byte) (s : State) : (takeError e op s).tieMerged = s.tieMerged := rfl
@[simp] theorem takeError_hostQueue (e : ErrorKind) (op : Byte) (s : State) : (takeError e op s).hostQueue = s.hostQueue := rfl
@[simp] theorem takeError_answers (e : ErrorKind) (op : Byte) (s : State) : (takeError e op s).answers = s.answers := rfl

@[simp] theorem resetCore_status (s : State) : (resetCore s).status = .success := rfl
@[simp] theorem resetCore_errOp (s : State) : (resetCore s).errOp = 0 := rfl
@[simp] theorem resetCore_result (s : State) : (resetCore s).result = 0 := rfl
@[simp] theorem resetCore_ft (s : State) : (resetCore s).ft = .zero := rfl
@[simp] theorem resetCore_dcount (s : State) : (resetCore s).dcount = 0 := rfl
@[simp] theorem resetCore_store (s : State) : (resetCore s).store = .empty := rfl
@[simp] theorem resetCore_ct (s : State) : (resetCore s).ct = .zero := rfl
@[simp] theorem resetCore_writer (s : State) : (resetCore s).writer = ⟨0, 0, s.writer.out⟩ := rfl
@[simp] theorem resetCore_reader (s : State) : (resetCore s).reader = ⟨0, 0, s.reader.input, s.reader.ipos⟩ := rfl
@[simp] theorem resetCore_tieMerged (s : State) : (resetCore s).tieMerged = s.tieMerged := rfl
@[simp] theorem resetCore_hostQueue (s : State) : (resetCore s).hostQueue = s.hostQueue := rfl
@[simp] theorem resetCore_answers (s : State) : (resetCore s).answers = s.answers := rfl

@[simp] theorem buildInto_status (s : State) : (buildInto s).status = s.status := rfl
@[simp] theorem buildInto_errOp (s : State) : (buildInto s).errOp = s.errOp := rfl
@[simp] theorem buildInto_result (s : State) : (buildInto s).result = s.result := rfl
@[simp] theorem buildInto_ft (s : State) : (buildInto s).ft = s.ft := rfl
@[simp] theorem buildInto_dcount (s : State) : (buildInto s).dcount = s.dcount := rfl
@[simp] theorem buildInto_store (s : State) : (buildInto s).store = buildTree s.tieMerged s.ft := rfl
@[simp] theorem buildInto_ct (s : State) : (buildInto s).ct = ⟨s.ct.entries, false⟩ := rfl
@[simp] theorem buildInto_writer (s : State) : (buildInto s).writer = s.writer := rfl
@[simp] theorem buildInto_reader (s : State) : (buildInto s).reader = s.reader := rfl
@[simp] theorem buildInto_tieMerged (s : State) : (buildInto s).tieMerged = s.tieMerged := rfl
@[simp] theorem buildInto_hostQueue (s : State) : (buildInto s).hostQueue = s.hostQueue := rfl
@[simp] theorem buildInto_answers (s : State) : (buildInto s).answers = s.answers := rfl

theorem takeError_eq_errorState (e : ErrorKind) (op : Byte) (s : State) : takeError e op s = errorState e.status op s := rfl

theorem resetCore_eq_resetState (s : State) : resetCore s = resetState s := rfl

/-- Everything a state is, field by field. -/
theorem state_ext {s t : State} (h1 : s.status = t.status) (h2 : s.errOp = t.errOp) (h3 : s.result = t.result)
    (h4 : s.ft = t.ft) (h5 : s.dcount = t.dcount) (h6 : s.store = t.store) (h7 : s.ct = t.ct)
    (h8 : s.writer = t.writer) (h9 : s.reader = t.reader) (h10 : s.tieMerged = t.tieMerged)
    (h11 : s.hostQueue = t.hostQueue) (h12 : s.answers = t.answers) : s = t := by
  cases s; cases t; simp_all

/-! ### How a procedure ends -/

section Runs
variable {σ τ α β : Type}

@[simp] theorem Run.bind_done (a : α) (s : σ) (f : α → σ → Run σ β) : (Run.done a s).bind f = f a s := rfl
@[simp] theorem Run.bind_raised (e : ErrorKind) (s : σ) (f : α → σ → Run σ β) :
    (Run.raised e s : Run σ α).bind f = .raised e s := rfl
@[simp] theorem Run.bind_stuck (k : Fault) (f : α → σ → Run σ β) : (Run.stuck k : Run σ α).bind f = .stuck k := rfl
@[simp] theorem Run.lift_done (a : α) (s : σ) (f : σ → τ) : (Run.done a s).lift f = .done a (f s) := rfl
@[simp] theorem Run.lift_raised (e : ErrorKind) (s : σ) (f : σ → τ) :
    (Run.raised e s : Run σ α).lift f = .raised e (f s) := rfl
@[simp] theorem Run.lift_stuck (k : Fault) (f : σ → τ) : (Run.stuck k : Run σ α).lift f = .stuck k := rfl

/-- If a sequence of two procedures ends, its first part did: all the ways it can. -/
theorem Run.bind_eq_done {r : Run σ α} {f : α → σ → Run σ β} {b : β} {s : σ} (h : r.bind f = .done b s) :
    ∃ a s', r = .done a s' ∧ f a s' = .done b s := by
  cases r with
  | done a s' => exact ⟨a, s', rfl, h⟩
  | raised e s' => cases h
  | stuck k => cases h

theorem Run.bind_eq_raised {r : Run σ α} {f : α → σ → Run σ β} {e : ErrorKind} {s : σ} (h : r.bind f = .raised e s) :
    r = .raised e s ∨ ∃ a s', r = .done a s' ∧ f a s' = .raised e s := by
  cases r with
  | done a s' => exact .inr ⟨a, s', rfl, h⟩
  | raised e' s' => cases h; exact .inl rfl
  | stuck k => cases h

theorem Run.bind_eq_stuck {r : Run σ α} {f : α → σ → Run σ β} {k : Fault} (h : r.bind f = .stuck k) :
    r = .stuck k ∨ ∃ a s', r = .done a s' ∧ f a s' = .stuck k := by
  cases r with
  | done a s' => exact .inr ⟨a, s', rfl, h⟩
  | raised e' s' => cases h
  | stuck k => cases h; exact .inl rfl

theorem Run.bind_assoc {γ : Type} (r : Run σ α) (f : α → σ → Run σ β) (g : β → σ → Run σ γ) :
    (r.bind f).bind g = r.bind fun a s => (f a s).bind g := by cases r <;> rfl

end Runs

/-! ### Acceptance -/

/-- An accepted command runs its body (R224). -/
theorem accept_unlocked {op : Byte} {pre : State → Bool} {body : State → Run State Unit} {s : State}
    (hs : s.status = .success) (hp : pre s = true) : accept op pre body s = finish op (body s) := by
  simp [accept, State.locked, hs, hp]

/-- A locked core ignores the command (R223). -/
theorem accept_locked {op : Byte} {pre : State → Bool} {body : State → Run State Unit} {s : State}
    (hs : s.status ≠ .success) : accept op pre body s = .next s := by
  simp [accept, State.locked, hs]

/-- A command whose precondition is false is ILLEGAL_COMMAND (R225, R226). -/
theorem accept_precondition {op : Byte} {pre : State → Bool} {body : State → Run State Unit} {s : State}
    (hs : s.status = .success) (hp : pre s = false) :
    accept op pre body s = .next (errorState .illegalCommand op s) := by
  simp only [accept, State.locked, hs, hp]; rfl

@[simp] theorem finish_done (op : Byte) (s : State) : finish op (.done () s) = .next s := rfl
@[simp] theorem finish_raised (op : Byte) (e : ErrorKind) (s : State) :
    finish op (.raised e s) = .next (errorState e.status op s) := rfl
@[simp] theorem finish_stuck (op : Byte) (k : Fault) : finish op (.stuck k) = .fault k := rfl

/-- Everything acceptance can answer with a next state: ignored, refused, done, or an error of the body. -/
theorem accept_next_cases {op : Byte} {pre : State → Bool} {body : State → Run State Unit} {s t : State}
    (h : accept op pre body s = .next t) :
    (s.status ≠ .success ∧ t = s) ∨
    (s.status = .success ∧ pre s = false ∧ t = errorState .illegalCommand op s) ∨
    (s.status = .success ∧ pre s = true ∧ body s = .done () t) ∨
    (s.status = .success ∧ pre s = true ∧ ∃ e s', body s = .raised e s' ∧ t = errorState e.status op s') := by
  by_cases hs : s.status = .success
  · cases hp : pre s with
    | false => rw [accept_precondition hs hp] at h; cases h; exact .inr (.inl ⟨hs, rfl, rfl⟩)
    | true =>
      rw [accept_unlocked hs hp] at h
      cases hb : body s with
      | done a s' => rw [hb] at h; cases h; exact .inr (.inr (.inl ⟨hs, rfl, rfl⟩))
      | raised e s' => rw [hb] at h; cases h; exact .inr (.inr (.inr ⟨hs, rfl, e, s', rfl, rfl⟩))
      | stuck k => rw [hb] at h; cases h
  · rw [accept_locked hs] at h; cases h; exact .inl ⟨hs, rfl⟩

/-- withTree gives its body the tree the store holds. -/
theorem withTree_some {s : State} {body : Tree → Run State Unit} {t : Tree} (h : s.store.tree = some t) :
    withTree s body = body t := by simp [withTree, h]

end Sys2Proof.Machine
end

