-- ==== Sys2Proof/Laws/BitIo.lean ====
section
/-! SUPPORT. The bit writer and the bit reader as bit streams: what PutBit, PutByte, Flush, GetBit and GetByte do to
`BitWriter.bits` and `BitReader.bits` (40_bit_io.md R100 to R105, R112). -/

namespace Sys2Proof.Machine

/-! ### Bytes and their bits -/

@[simp] theorem byteBits_length (v : Byte) : (byteBits v).length = 8 := rfl

@[simp] theorem byteBits_zero : byteBits 0#8 = List.replicate 8 false := by decide

theorem byteBits_getElem? (v : Byte) (i : Nat) (h : i < 8) : (byteBits v)[i]? = some (v.getLsbD (7 - i)) := by
  have : i = 0 ∨ i = 1 ∨ i = 2 ∨ i = 3 ∨ i = 4 ∨ i = 5 ∨ i = 6 ∨ i = 7 := by omega
  rcases this with rfl | rfl | rfl | rfl | rfl | rfl | rfl | rfl <;> rfl

theorem byteBits_injective {v w : Byte} (h : byteBits v = byteBits w) : v = w := by
  simp only [byteBits, List.cons.injEq, and_true] at h
  obtain ⟨h7, h6, h5, h4, h3, h2, h1, h0⟩ := h
  apply BitVec.eq_of_getLsbD_eq
  intro i hi
  have : i = 0 ∨ i = 1 ∨ i = 2 ∨ i = 3 ∨ i = 4 ∨ i = 5 ∨ i = 6 ∨ i = 7 := by omega
  rcases this with rfl | rfl | rfl | rfl | rfl | rfl | rfl | rfl <;> assumption

@[simp] theorem flatMap_byteBits_length (l : List Byte) : (l.flatMap byteBits).length = 8 * l.length := by
  induction l with
  | nil => rfl
  | cons b bs ih => simp only [List.flatMap_cons, List.length_append, byteBits_length, ih, List.length_cons]; omega

/-- A byte sequence is determined by its bits. -/
theorem flatMap_byteBits_injective {l m : List Byte} (h : l.flatMap byteBits = m.flatMap byteBits) : l = m := by
  induction l generalizing m with
  | nil =>
    cases m with
    | nil => rfl
    | cons b bs => simp [byteBits] at h
  | cons a as ih =>
    cases m with
    | nil => simp [byteBits] at h
    | cons b bs =>
      simp only [List.flatMap_cons] at h
      obtain ⟨h1, h2⟩ := List.append_inj h (by simp)
      rw [byteBits_injective h1, ih h2]

theorem setBitTo_getLsbD (v : Byte) (i j : Nat) (b : Bool) (hj : j < 8) :
    (setBitTo v i b).getLsbD j = if j = i then b else v.getLsbD j := by
  by_cases h : j = i
  · subst h; cases b <;> simp [setBitTo, hj]
  · have h' : ¬(j - i = 0 ∧ i ≤ j) := by omega
    cases b <;> by_cases hij : j < i <;> simp_all [setBitTo]

/-! ### The writer -/

/-- What one PutBit does (R100). -/
theorem putBit_cases (b : Bool) (w : BitWriter) :
    (w.nacc = 7 ∧ putBit b w = ⟨0, 0, w.out ++ [setBitTo w.acc 0 b]⟩) ∨
    (w.nacc.toNat < 7 ∧ putBit b w = ⟨setBitTo w.acc (7 - w.nacc.toNat) b, w.nacc + 1, w.out⟩ ∧
      (w.nacc + 1).toNat = w.nacc.toNat + 1) := by
  by_cases h : w.nacc = 7
  · exact .inl ⟨h, by rw [putBit, if_pos h, h]; rfl⟩
  · have h7 : w.nacc.toNat ≠ 7 := fun e => h (BitVec.eq_of_toNat_eq e)
    have hlt := w.nacc.isLt
    have h1 : (1 : BitVec 3).toNat = 1 := rfl
    refine .inr ⟨by omega, by rw [putBit, if_neg h], ?_⟩
    rw [BitVec.toNat_add, h1]; omega

theorem take_byteBits_setBitTo (v : Byte) (k : Nat) (b : Bool) (hk : k < 8) :
    (byteBits (setBitTo v (7 - k) b)).take (k + 1) = (byteBits v).take k ++ [b] := by
  apply List.ext_getElem?
  intro i
  by_cases hi : i < k + 1
  · rw [List.getElem?_take_of_lt hi, byteBits_getElem? _ _ (by omega), setBitTo_getLsbD _ _ _ _ (by omega)]
    by_cases hik : i = k
    · subst hik
      rw [List.getElem?_append_right (by simp), if_pos rfl]
      have : i - min i 8 = 0 := by omega
      simp [this]
    · rw [List.getElem?_append_left (by simp; omega), List.getElem?_take_of_lt (by omega),
        byteBits_getElem? _ _ (by omega), if_neg (by omega)]
  · rw [List.getElem?_eq_none (by simp; omega), List.getElem?_eq_none (by simp; omega)]

/-- PutBit appends one bit to what has been written (R100). -/
theorem putBit_bits (b : Bool) (w : BitWriter) : (putBit b w).bits = w.bits ++ [b] := by
  rcases putBit_cases b w with ⟨h7, h⟩ | ⟨hlt, h, hn⟩
  · have := take_byteBits_setBitTo w.acc 7 b (by omega)
    rw [h]
    simp only [BitWriter.bits, List.flatMap_append, h7]
    simp only [Nat.sub_self, List.take_of_length_le (l := byteBits (setBitTo w.acc 0 b)) (i := 7 + 1) (by simp)] at this
    simp [this]
  · rw [h]
    simp only [BitWriter.bits, hn, take_byteBits_setBitTo _ _ _ (Nat.lt_succ_of_lt hlt), List.append_assoc]

/-- PutBit keeps the unused low bits of ACC zero (R100, R31). -/
theorem putBit_ok {b : Bool} {w : BitWriter} (hw : w.Ok) : (putBit b w).Ok := by
  rcases putBit_cases b w with ⟨h7, h⟩ | ⟨hlt, h, hn⟩
  · rw [h]; intro i _; simp
  · rw [h]
    intro i hi
    simp only [hn] at hi
    rw [setBitTo_getLsbD _ _ _ _ (by omega), if_neg (by omega)]
    exact hw i (by omega)

theorem putBit_nacc (b : Bool) (w : BitWriter) : (putBit b w).nacc.toNat = (w.nacc.toNat + 1) % 8 := by
  rcases putBit_cases b w with ⟨h7, h⟩ | ⟨hlt, h, hn⟩
  · rw [h, h7]; rfl
  · rw [h]; simp only [hn]; omega

/-- PutBit only appends to OUT (R54). -/
theorem putBit_out (b : Bool) (w : BitWriter) : w.out <+: (putBit b w).out := by
  rcases putBit_cases b w with ⟨h7, h⟩ | ⟨hlt, h, hn⟩
  · rw [h]; exact List.prefix_append _ _
  · rw [h]

@[simp] theorem putBits_nil (w : BitWriter) : putBits [] w = w := rfl
@[simp] theorem putBits_cons (b : Bool) (bs : List Bool) (w : BitWriter) :
    putBits (b :: bs) w = putBits bs (putBit b w) := rfl

theorem putBits_append (bs cs : List Bool) (w : BitWriter) : putBits (bs ++ cs) w = putBits cs (putBits bs w) := by
  induction bs generalizing w with
  | nil => rfl
  | cons b bs ih => simp [ih]

/-- PutBit of a bit-string appends that bit-string. -/
theorem putBits_bits (bs : List Bool) (w : BitWriter) : (putBits bs w).bits = w.bits ++ bs := by
  induction bs generalizing w with
  | nil => simp
  | cons b bs ih => simp [ih, putBit_bits]

theorem putBits_ok {bs : List Bool} {w : BitWriter} (hw : w.Ok) : (putBits bs w).Ok := by
  induction bs generalizing w with
  | nil => exact hw
  | cons b bs ih => exact ih (putBit_ok hw)

theorem putBits_nacc (bs : List Bool) (w : BitWriter) :
    (putBits bs w).nacc.toNat = (w.nacc.toNat + bs.length) % 8 := by
  induction bs generalizing w with
  | nil => have := w.nacc.isLt; simp; omega
  | cons b bs ih => simp only [putBits_cons, ih, putBit_nacc, List.length_cons]; omega

theorem putBits_out (bs : List Bool) (w : BitWriter) : w.out <+: (putBits bs w).out := by
  induction bs generalizing w with
  | nil => exact List.prefix_refl _
  | cons b bs ih => exact (putBit_out b w).trans (ih _)

theorem putByte_bits (v : Byte) (w : BitWriter) : (putByte v w).bits = w.bits ++ byteBits v := putBits_bits _ _

theorem putBytes_eq_putBits (vs : List Byte) (w : BitWriter) : putBytes vs w = putBits (vs.flatMap byteBits) w := by
  induction vs generalizing w with
  | nil => rfl
  | cons v vs ih => simp only [putBytes, ih, List.flatMap_cons, putBits_append, putByte]

/-- The number of bits written fixes NACC: OUT holds whole bytes. -/
theorem bits_length (w : BitWriter) : w.bits.length = 8 * w.out.length + w.nacc.toNat := by
  have := w.nacc.isLt
  simp only [BitWriter.bits, List.length_append, flatMap_byteBits_length, List.length_take, byteBits_length]; omega

/-- Two writers with the same bits and clean accumulators are the same writer: the abstraction loses nothing. -/
theorem writer_ext {v w : BitWriter} (hv : v.Ok) (hw : w.Ok) (h : v.bits = w.bits) : v = w := by
  have hl := congrArg List.length h
  rw [bits_length, bits_length] at hl
  have h1 := v.nacc.isLt; have h2 := w.nacc.isLt
  have hn : v.nacc.toNat = w.nacc.toNat := by omega
  have ho : v.out.length = w.out.length := by omega
  obtain ⟨hout, hacc⟩ := List.append_inj h (by simp [ho])
  have hout := flatMap_byteBits_injective hout
  have hacc : v.acc = w.acc := by
    apply BitVec.eq_of_getLsbD_eq
    intro i hi
    by_cases hiv : i + v.nacc.toNat < 8
    · rw [hv i hiv, hw i (by omega)]
    · have e := congrArg (fun l => l[7 - i]?) hacc
      simp only [hn] at e
      rw [List.getElem?_take_of_lt (by omega), List.getElem?_take_of_lt (by omega),
        byteBits_getElem? _ _ (by omega), byteBits_getElem? _ _ (by omega)] at e
      have : 7 - (7 - i) = i := by omega
      rw [this] at e
      exact Option.some.inj e
  have hn' : v.nacc = w.nacc := BitVec.eq_of_toNat_eq hn
  cases v; cases w; simp_all

/-- Flush pads with the fewest zero bits and leaves no pending bit (R102, R84). -/
theorem flush_spec {w : BitWriter} (hw : w.Ok) :
    (flush w).acc = 0 ∧ (flush w).nacc = 0 ∧
      (flush w).out.flatMap byteBits = w.bits ++ List.replicate ((8 - w.nacc.toNat) % 8) false := by
  by_cases h : w.nacc = 0
  · have hacc : w.acc = 0 := by
      apply BitVec.eq_of_getLsbD_eq
      intro i hi
      rw [hw i (by simp [h]; omega)]; simp
    simp [flush, h, hacc, BitWriter.bits]
  · have hn : w.nacc.toNat ≠ 0 := fun e => h (BitVec.eq_of_toNat_eq e)
    have hlt := w.nacc.isLt
    have hm : (8 - w.nacc.toNat) % 8 = 8 - w.nacc.toNat := by omega
    have hb : byteBits w.acc = (byteBits w.acc).take w.nacc.toNat ++ List.replicate (8 - w.nacc.toNat) false := by
      apply List.ext_getElem?
      intro i
      by_cases hi : i < 8
      · by_cases hi' : i < w.nacc.toNat
        · rw [List.getElem?_append_left (by simp; omega), List.getElem?_take_of_lt hi']
        · rw [List.getElem?_append_right (by simp; omega), byteBits_getElem? _ _ hi, hw _ (by omega),
            List.getElem?_replicate]
          simp; omega
      · rw [List.getElem?_eq_none (by simp; omega), List.getElem?_eq_none (by simp; omega)]
    simp only [flush, h, if_false, hm, BitWriter.bits, List.flatMap_append, List.append_assoc, true_and]
    rw [← hb]; simp

theorem flush_ok {w : BitWriter} (hw : w.Ok) : (flush w).Ok := by
  obtain ⟨h1, h2, -⟩ := flush_spec hw
  intro i _; rw [h1]; simp

theorem flush_out (w : BitWriter) : w.out <+: (flush w).out := by
  by_cases h : w.nacc = 0
  · rw [flush, if_pos h]
  · rw [flush, if_neg h]; exact List.prefix_append _ _

/-- Putting a bit-string from a byte boundary and flushing appends the bytes that pack it (R112, R84). -/
theorem flush_putBits_packs {w : BitWriter} (hw : w.Ok) (hn : w.nacc = 0) (bs : List Bool) :
    ∃ bytes, PacksTo bs bytes ∧ flush (putBits bs w) = ⟨0, 0, w.out ++ bytes⟩ := by
  obtain ⟨h1, h2, h3⟩ := flush_spec (putBits_ok (bs := bs) hw)
  rw [putBits_bits] at h3
  have hwb : w.bits = w.out.flatMap byteBits := by simp [BitWriter.bits, hn]
  obtain ⟨bytes, hb⟩ := (putBits_out bs w).trans (flush_out _)
  rw [hwb, ← hb, List.flatMap_append, List.append_assoc] at h3
  have h3 := List.append_cancel_left h3
  have hnac := putBits_nacc bs w
  have h0 : (0 : BitVec 3).toNat = 0 := rfl
  rw [hn, h0, Nat.zero_add] at hnac
  have hlen := congrArg List.length h3
  simp only [flatMap_byteBits_length, List.length_append, List.length_replicate] at hlen
  refine ⟨bytes, ⟨by omega, ?_⟩, ?_⟩
  · rw [h3]; congr 2; omega
  · rw [hb, ← h1, ← h2]

/-- PutBit, while it does not complete a byte, fills the accumulator downwards. -/
theorem putBits_fill (bs : List Bool) (w : BitWriter) (h : w.nacc.toNat + bs.length < 8) :
    ∃ a : Byte, putBits bs w = ⟨a, w.nacc + BitVec.ofNat 3 bs.length, w.out⟩ ∧
      ∀ i, i < 8 → a.getLsbD i =
        if 7 - i < w.nacc.toNat then w.acc.getLsbD i else (bs[7 - i - w.nacc.toNat]?).getD (w.acc.getLsbD i) := by
  induction bs generalizing w with
  | nil => exact ⟨w.acc, by simp [putBits], fun i hi => by simp⟩
  | cons b bs ih =>
    simp only [List.length_cons] at h
    have h7 : w.nacc ≠ 7 := by intro e; rw [e] at h; simp at h; omega
    have hn : (w.nacc + 1).toNat = w.nacc.toNat + 1 := by rw [BitVec.toNat_add]; simp; omega
    obtain ⟨a, h1, h2⟩ := ih ⟨setBitTo w.acc (7 - w.nacc.toNat) b, w.nacc + 1, w.out⟩ (by rw [hn]; omega)
    refine ⟨a, ?_, fun i hi => ?_⟩
    · rw [putBits_cons, putBit, if_neg h7, h1]
      simp only [List.length_cons]
      congr 1
      apply BitVec.eq_of_toNat_eq
      simp only [BitVec.toNat_add, BitVec.toNat_ofNat, show (1 : BitVec 3).toNat = 1 from rfl]; omega
    · rw [h2 i hi]
      simp only [hn, setBitTo_getLsbD _ _ _ _ hi]
      by_cases c1 : 7 - i < w.nacc.toNat
      · rw [if_pos (by omega), if_pos c1, if_neg (by omega)]
      · rw [if_neg c1]
        by_cases c2 : 7 - i = w.nacc.toNat
        · rw [if_pos (by omega), if_pos (by omega), c2]; simp
        · rw [if_neg (by omega)]
          obtain ⟨m, hm⟩ : ∃ m, 7 - i - w.nacc.toNat = m + 1 := ⟨7 - i - w.nacc.toNat - 1, by omega⟩
          rw [hm, List.getElem?_cons_succ, show 7 - i - (w.nacc.toNat + 1) = m by omega, if_neg (by omega)]

/-- PutByte in one step (R107): one byte to the sink, the pending bits then the operand's top bits; its low NACC bits are
left pending. -/
theorem putByte_explicit (v : Byte) (w : BitWriter) :
    putByte v w = ⟨v <<< (8 - w.nacc.toNat), w.nacc,
      w.out ++ [(w.acc >>> (8 - w.nacc.toNat)) <<< (8 - w.nacc.toNat) ||| v >>> w.nacc.toNat]⟩ := by
  have hk := w.nacc.isLt
  obtain ⟨k, hke⟩ : ∃ k, k = w.nacc.toNat := ⟨_, rfl⟩
  rw [← hke] at hk ⊢
  have hsplit : byteBits v = (byteBits v).take (7 - k) ++ v.getLsbD k :: (byteBits v).drop (8 - k) := by
    conv => lhs; rw [← List.take_append_drop (7 - k) (byteBits v)]
    rw [List.drop_eq_getElem_cons (by simp; omega), show 7 - k + 1 = 8 - k by omega]
    have e := byteBits_getElem? v (7 - k) (by omega)
    rw [List.getElem?_eq_getElem (by simp; omega), show 7 - (7 - k) = k by omega] at e
    rw [Option.some.inj e]
  rw [putByte, hsplit, putBits_append]
  obtain ⟨a, h1, h2⟩ := putBits_fill ((byteBits v).take (7 - k)) w (by simp; omega)
  rw [h1, putBits_cons]
  have hn : w.nacc + BitVec.ofNat 3 ((byteBits v).take (7 - k)).length = 7 := by
    apply BitVec.eq_of_toNat_eq
    simp only [BitVec.toNat_add, BitVec.toNat_ofNat, ← hke, List.length_take, byteBits_length]
    rw [show (7 : BitVec 3).toNat = 7 from rfl]; omega
  rw [hn, putBit, if_pos rfl]
  obtain ⟨a', h3, h4⟩ := putBits_fill ((byteBits v).drop (8 - k)) ⟨0, 0, w.out ++ [setBitTo a (7 - (7 : BitVec 3).toNat) (v.getLsbD k)]⟩
    (by simp; omega)
  rw [h3]
  have e0 : (0 : BitVec 3) + BitVec.ofNat 3 ((byteBits v).drop (8 - k)).length = w.nacc := by
    apply BitVec.eq_of_toNat_eq
    simp only [BitVec.toNat_add, BitVec.toNat_ofNat, ← hke, List.length_drop, byteBits_length]
    rw [show (0 : BitVec 3).toNat = 0 from rfl]; omega
  have e1 : a' = v <<< (8 - k) := by
    refine BitVec.eq_of_getLsbD_eq fun i hi => ?_
    rw [h4 i hi]
    simp only [BitVec.getLsbD_shiftLeft, hi, decide_true, Bool.true_and]
    rw [if_neg (by simp), List.getElem?_drop]
    by_cases c : i < 8 - k
    · rw [List.getElem?_eq_none (by simp; omega)]; simp [c]
    · rw [byteBits_getElem? _ _ (by simp; omega)]
      simp [c]; congr 1; omega
  have e2 : setBitTo a (7 - (7 : BitVec 3).toNat) (v.getLsbD k) = (w.acc >>> (8 - k)) <<< (8 - k) ||| v >>> k := by
    refine BitVec.eq_of_getLsbD_eq fun i hi => ?_
    rw [setBitTo_getLsbD _ _ _ _ hi, show 7 - (7 : BitVec 3).toNat = 0 from rfl, h2 i hi, ← hke]
    simp only [BitVec.getLsbD_or, BitVec.getLsbD_shiftLeft, BitVec.getLsbD_ushiftRight, hi, decide_true, Bool.true_and]
    by_cases c0 : i = 0
    · subst c0; simp [hk]
    · rw [if_neg c0]
      by_cases c : 7 - i < k
      · rw [if_pos c, show 8 - k + (i - (8 - k)) = i by omega]
        have : v.getLsbD (k + i) = false := BitVec.getLsbD_of_ge _ _ (by omega)
        simp [this]; omega
      · rw [if_neg c, List.getElem?_take_of_lt (by omega), byteBits_getElem? _ _ (by omega)]
        have : 7 - (7 - i - k) = k + i := by omega
        simp [this]; omega
  rw [e0, e1, e2]

/-! ### The reader -/

theorem reader_bits_length {r : BitReader} (hr : r.Ok) :
    r.bits.length = r.rcnt.toNat + 8 * (r.input.length - r.ipos) := by
  have := hr.1
  simp only [BitReader.bits, List.length_append, List.length_drop, byteBits_length, flatMap_byteBits_length]; omega

theorem srcRead_some {r : BitReader} {b : Byte} (h : r.input[r.ipos]? = some b) :
    srcRead r = .done b { r with ipos := r.ipos + 1 } := by simp [srcRead, h]

theorem srcRead_none {r : BitReader} (h : r.input[r.ipos]? = none) : srcRead r = .raised .wrongInput r := by
  simp [srcRead, h]

theorem drop_byteBits (v : Byte) (k : Nat) (hk : 0 < k) (hk8 : k ≤ 8) :
    (byteBits v).drop (8 - k) = v.getLsbD (k - 1) :: (byteBits v).drop (8 - (k - 1)) := by
  rw [List.drop_eq_getElem_cons (by simp; omega)]
  have e := byteBits_getElem? v (8 - k) (by omega)
  rw [List.getElem?_eq_getElem (by simp; omega)] at e
  have h1 : 7 - (8 - k) = k - 1 := by omega
  have h2 : 8 - k + 1 = 8 - (k - 1) := by omega
  rw [Option.some.inj e, h1, h2]

theorem takeHeldBit_spec {r : BitReader} (hr : r.Ok) (h0 : r.rcnt ≠ 0) :
    ∃ b r', takeHeldBit r = .done b r' ∧ r.bits = b :: r'.bits ∧ r'.Ok ∧ r'.input = r.input ∧ r'.ipos = r.ipos ∧
      r'.rcnt.toNat = r.rcnt.toNat - 1 := by
  have hn : r.rcnt.toNat ≠ 0 := fun e => h0 (BitVec.eq_of_toNat_eq e)
  have h8 := hr.1
  have hs : (r.rcnt - 1).toNat = r.rcnt.toNat - 1 := by
    have h1 : (1 : BitVec 4).toNat = 1 := rfl
    rw [BitVec.toNat_sub, h1]; omega
  refine ⟨_, _, rfl, ?_, ⟨by simp only [hs]; omega, hr.2⟩, rfl, rfl, hs⟩
  simp only [BitReader.bits, hs]
  rw [drop_byteBits _ _ (by omega) h8, List.cons_append]

/-- GetBit takes the first of the bits still to come (R103), from the held ones or from a fresh byte. -/
theorem getBit_cons {r : BitReader} (hr : r.Ok) {b : Bool} {bs : List Bool} (h : r.bits = b :: bs) :
    ∃ r', getBit r = .done b r' ∧ r'.bits = bs ∧ r'.Ok ∧ r'.input = r.input ∧
      r'.rcnt.toNat = (r.rcnt.toNat + 7) % 8 ∧ r'.ipos = r.ipos + (if r.rcnt = 0 then 1 else 0) := by
  by_cases h0 : r.rcnt = 0
  · have hb : r.bits = (r.input.drop r.ipos).flatMap byteBits := by simp [BitReader.bits, h0, byteBits]
    have hlt : r.ipos < r.input.length := by
      rcases Nat.lt_or_ge r.ipos r.input.length with hl | hl
      · exact hl
      · rw [hb, List.drop_of_length_le hl] at h; simp at h
    have hget := List.getElem?_eq_getElem hlt
    obtain ⟨b', r', h1, h2, h3, h4, h5, h6⟩ :=
      takeHeldBit_spec (r := { r with rbuf := r.input[r.ipos], rcnt := 8, ipos := r.ipos + 1 })
        ⟨by simp, by simp only; omega⟩ (by simp)
    have hbits : ({ r with rbuf := r.input[r.ipos], rcnt := 8, ipos := r.ipos + 1 } : BitReader).bits = r.bits := by
      rw [hb, List.drop_eq_getElem_cons hlt, List.flatMap_cons]; simp [BitReader.bits]
    rw [hbits, h] at h2
    obtain ⟨rfl, rfl⟩ := List.cons.inj h2
    refine ⟨r', ?_, rfl, h3, h4, ?_, ?_⟩
    · rw [getBit, if_pos h0, srcRead_some hget]; exact h1
    · rw [h6, h0]; rfl
    · rw [h5, if_pos h0]
  · obtain ⟨b', r', h1, h2, h3, h4, h5, h6⟩ := takeHeldBit_spec hr h0
    rw [h] at h2
    obtain ⟨rfl, rfl⟩ := List.cons.inj h2
    have hn : r.rcnt.toNat ≠ 0 := fun e => h0 (BitVec.eq_of_toNat_eq e)
    have := hr.1
    refine ⟨r', ?_, rfl, h3, h4, by omega, by rw [h5, if_neg h0]; rfl⟩
    rw [getBit, if_neg h0]; exact h1

/-- GetBit with nothing left raises WRONG_INPUT and changes nothing (R103, R52). -/
theorem getBit_nil {r : BitReader} (hr : r.Ok) (h : r.bits = []) : getBit r = .raised .wrongInput r := by
  have hl := congrArg List.length h
  rw [reader_bits_length hr] at hl
  simp only [List.length_nil] at hl
  have h0 : r.rcnt = 0 := BitVec.eq_of_toNat_eq (by simp; omega)
  have : r.input[r.ipos]? = none := List.getElem?_eq_none (by have := hr.2; omega)
  rw [getBit, if_pos h0, srcRead_none this]; rfl

/-- With nothing left, the source is exhausted and no bit is held. -/
theorem reader_exhausted {r : BitReader} (hr : r.Ok) (h : r.bits = []) : r.rcnt = 0 ∧ r.ipos = r.input.length := by
  have hl := congrArg List.length h
  rw [reader_bits_length hr] at hl
  simp only [List.length_nil] at hl
  have := hr.2
  exact ⟨BitVec.eq_of_toNat_eq (by simp; omega), by omega⟩

/-- The value GetByte's loop builds (R104): the bits shifted in, first bit most significant. -/
def shiftIn (v : Byte) (bs : List Bool) : Byte := bs.foldl shiftInBit v

theorem shiftIn_byteBits (v : Byte) : shiftIn 0 (byteBits v) = v := by
  apply BitVec.eq_of_getLsbD_eq
  intro i hi
  have hb (b : Bool) (j : Nat) : (if b then 1#8 else 0#8).getLsbD j = (decide (j = 0) && b) := by
    cases b <;> simp
  have : i = 0 ∨ i = 1 ∨ i = 2 ∨ i = 3 ∨ i = 4 ∨ i = 5 ∨ i = 6 ∨ i = 7 := by omega
  simp only [shiftIn, byteBits, List.foldl_cons, List.foldl_nil, shiftInBit, BitVec.getLsbD_or,
    BitVec.getLsbD_shiftLeft, hb]
  rcases this with rfl | rfl | rfl | rfl | rfl | rfl | rfl | rfl <;> simp

/-- Taking `bs.length` bits that are there. -/
theorem getByteLoop_spec (bs : List Bool) (v : Byte) {r : BitReader} (hr : r.Ok) {rest : List Bool}
    (h : r.bits = bs ++ rest) :
    ∃ r', getByteLoop bs.length v r = .done (shiftIn v bs) r' ∧ r'.bits = rest ∧ r'.Ok ∧ r'.input = r.input ∧
      (r'.rcnt.toNat + bs.length) % 8 = r.rcnt.toNat % 8 := by
  induction bs generalizing v r with
  | nil => exact ⟨r, rfl, h, hr, rfl, rfl⟩
  | cons b bs ih =>
    obtain ⟨r1, h1, h2, h3, h4, h5, -⟩ := getBit_cons hr (bs := bs ++ rest) h
    obtain ⟨r', h1', h2', h3', h4', h5'⟩ := ih (shiftInBit v b) h3 h2
    refine ⟨r', ?_, h2', h3', h4'.trans h4, ?_⟩
    · simp only [List.length_cons, getByteLoop, h1, Run.bind_done]; exact h1'
    · simp only [List.length_cons]; omega

/-- Taking more bits than there are raises WRONG_INPUT, with the source exhausted. -/
theorem getByteLoop_short (n : Nat) (v : Byte) {r : BitReader} (hr : r.Ok) (h : r.bits.length < n) :
    ∃ r', getByteLoop n v r = .raised .wrongInput r' ∧ r'.Ok ∧ r'.input = r.input ∧ r'.bits = [] := by
  induction n generalizing v r with
  | zero => omega
  | succ n ih =>
    cases hb : r.bits with
    | nil => exact ⟨r, by simp [getByteLoop, getBit_nil hr hb], hr, rfl, hb⟩
    | cons b bs =>
      obtain ⟨r1, h1, h2, h3, h4, -⟩ := getBit_cons hr hb
      obtain ⟨r', h1', h2', h3', h4'⟩ := ih (shiftInBit v b) h3 (by rw [h2]; rw [hb] at h; simpa using h)
      exact ⟨r', by simp only [getByteLoop, h1, Run.bind_done]; exact h1', h2', h3'.trans h4, h4'⟩

/-- GetByte takes the next 8 bits, most significant first (R104), and keeps the alignment. -/
theorem getByte_spec {r : BitReader} (hr : r.Ok) {v : Byte} {rest : List Bool} (h : r.bits = byteBits v ++ rest) :
    ∃ r', getByte r = .done v r' ∧ r'.bits = rest ∧ r'.Ok ∧ r'.input = r.input ∧
      r'.rcnt.toNat % 8 = r.rcnt.toNat % 8 := by
  obtain ⟨r', h1, h2, h3, h4, h5⟩ := getByteLoop_spec (byteBits v) 0 hr h
  refine ⟨r', ?_, h2, h3, h4, ?_⟩
  · rw [shiftIn_byteBits] at h1; exact h1
  · simp only [byteBits_length] at h5; omega

/-- GetByte with fewer than 8 bits left raises WRONG_INPUT, with the source exhausted (R104). -/
theorem getByte_short {r : BitReader} (hr : r.Ok) (h : r.bits.length < 8) :
    ∃ r', getByte r = .raised .wrongInput r' ∧ r'.Ok ∧ r'.input = r.input ∧ r'.bits = [] :=
  getByteLoop_short 8 0 hr h

/-- Eight bits are the bits of a byte. -/
theorem exists_byteBits (bs : List Bool) (h : bs.length = 8) : ∃ v, byteBits v = bs := by
  match bs, h with
  | [b7, b6, b5, b4, b3, b2, b1, b0], _ =>
    refine ⟨shiftIn 0 [b7, b6, b5, b4, b3, b2, b1, b0], ?_⟩
    cases b7 <;> cases b6 <;> cases b5 <;> cases b4 <;> cases b3 <;> cases b2 <;> cases b1 <;> cases b0 <;> rfl

theorem align_ok {r : BitReader} (hr : r.Ok) : (align r).Ok := ⟨by simp [align], hr.2⟩

/-- Align drops the held bits and no other (R105). -/
theorem align_bits (r : BitReader) : (align r).bits = (r.input.drop r.ipos).flatMap byteBits := by
  simp [align, BitReader.bits, byteBits]

end Sys2Proof.Machine
end

