-- ==== Sys2Proof/Laws/Trees.lean ====
section
/-! SUPPORT. Trees and their codes: the serializer against the grammar of R82, the code table generator against the
paths of the tree (R85, R160, R164), the descent of the decoder (R171), and the prefix property (R163). -/

namespace Sys2Proof.Machine

/-! ### Shape -/

/-- The number of nodes of a tree. -/
def Tree.size : Tree → Nat
  | .leaf _ => 1
  | .node low high => 1 + low.size + high.size

theorem Tree.leafCount_pos (t : Tree) : 0 < t.leafCount := by
  induction t with
  | leaf => exact Nat.one_pos
  | node l h ihl ihh => simp only [Tree.leafCount]; omega

theorem Tree.size_eq (t : Tree) : t.size = 2 * t.leafCount - 1 := by
  induction t with
  | leaf => rfl
  | node l h ihl ihh =>
    have := l.leafCount_pos; have := h.leafCount_pos
    simp only [Tree.size, Tree.leafCount, ihl, ihh]; omega

theorem Tree.symbols_length (t : Tree) : t.symbols.length = t.leafCount := by
  induction t with
  | leaf => rfl
  | node l h ihl ihh => simp [Tree.symbols, Tree.leafCount, ihl, ihh]

/-- A tree with k leaves takes 10k - 1 bits (R82, R142). -/
theorem treeBits_length (t : Tree) : (treeBits t).length = 10 * t.leafCount - 1 := by
  induction t with
  | leaf => rfl
  | node l h ihl ihh =>
    have := l.leafCount_pos; have := h.leafCount_pos
    simp only [treeBits, Tree.leafCount, List.length_cons, List.length_append, ihl, ihh]; omega

/-- The serializer puts the bits of the grammar (R82, R140). -/
theorem serialize_eq (t : Tree) (w : BitWriter) : serialize t w = putBits (treeBits t) w := by
  induction t generalizing w with
  | leaf sym => simp only [serialize, treeBits, putBits_cons, putByte]
  | node l h ihl ihh => simp only [serialize, treeBits, putBits_cons, putBits_append, ihl, ihh]

/-- The grammar is self-delimiting (R82): a bit-string begins with at most one tree. -/
theorem treeBits_append_inj {t u : Tree} {x y : List Bool} (h : treeBits t ++ x = treeBits u ++ y) : t = u ∧ x = y := by
  induction t generalizing u x y with
  | leaf s =>
    cases u with
    | leaf s' =>
      simp only [treeBits, List.cons_append, List.cons.injEq, true_and] at h
      obtain ⟨h1, h2⟩ := List.append_inj h (by simp)
      exact ⟨by rw [byteBits_injective h1], h2⟩
    | node => simp [treeBits] at h
  | node l r ihl ihr =>
    cases u with
    | leaf => simp [treeBits] at h
    | node l' r' =>
      simp only [treeBits, List.cons_append, List.cons.injEq, true_and, List.append_assoc] at h
      obtain ⟨rfl, h2⟩ := ihl h
      obtain ⟨rfl, h3⟩ := ihr h2
      exact ⟨rfl, h3⟩

/-! ### Codes -/

theorem Tree.codes_map_snd (t : Tree) : t.codes.map Prod.snd = t.symbols := by
  induction t with
  | leaf => rfl
  | node l h ihl ihh => simp [Tree.codes, Tree.symbols, ← ihl, ← ihh, Function.comp_def]

theorem Tree.mem_codes_node {l h : Tree} {p : List Bool} {s : Byte} :
    (p, s) ∈ (Tree.node l h).codes ↔ ∃ b q, p = b :: q ∧ (q, s) ∈ (if b then h else l).codes := by
  simp only [Tree.codes, List.mem_append, List.mem_map, Prod.mk.injEq]
  constructor
  · rintro (⟨⟨q, s'⟩, hm, rfl, rfl⟩ | ⟨⟨q, s'⟩, hm, rfl, rfl⟩)
    · exact ⟨false, q, rfl, hm⟩
    · exact ⟨true, q, rfl, hm⟩
  · rintro ⟨b, q, rfl, hm⟩
    cases b
    · exact .inl ⟨(q, s), hm, rfl, rfl⟩
    · exact .inr ⟨(q, s), hm, rfl, rfl⟩

/-- No leaf's path is a prefix of another leaf's (R163). -/
theorem Tree.codes_prefix_free {t : Tree} {p q : List Bool} {a b : Byte} (hp : (p, a) ∈ t.codes) (hq : (q, b) ∈ t.codes)
    (h : p <+: q) : p = q ∧ a = b := by
  induction t generalizing p q with
  | leaf s =>
    simp only [Tree.codes, List.mem_singleton, Prod.mk.injEq] at hp hq
    exact ⟨hp.1.trans hq.1.symm, hp.2.trans hq.2.symm⟩
  | node l r ihl ihr =>
    obtain ⟨c, p', rfl, hp'⟩ := Tree.mem_codes_node.1 hp
    obtain ⟨d, q', rfl, hq'⟩ := Tree.mem_codes_node.1 hq
    obtain ⟨rfl, h'⟩ := List.cons_prefix_cons.1 h
    cases c
    · obtain ⟨rfl, e⟩ := ihl hp' hq' h'; exact ⟨rfl, e⟩
    · obtain ⟨rfl, e⟩ := ihr hp' hq' h'; exact ⟨rfl, e⟩

/-- A path is shorter than the tree has leaves. -/
theorem Tree.codes_length_lt {t : Tree} {p : List Bool} {s : Byte} (h : (p, s) ∈ t.codes) : p.length < t.leafCount := by
  induction t generalizing p with
  | leaf => simp only [Tree.codes, List.mem_singleton, Prod.mk.injEq] at h; simp [h.1, Tree.leafCount]
  | node l r ihl ihr =>
    obtain ⟨c, p', rfl, hp'⟩ := Tree.mem_codes_node.1 h
    have := l.leafCount_pos; have := r.leafCount_pos
    cases c
    · have := ihl hp'; simp only [Tree.leafCount, List.length_cons]; omega
    · have := ihr hp'; simp only [Tree.leafCount, List.length_cons]; omega

theorem Tree.codeOf_mem {t : Tree} {s : Byte} {p : List Bool} (h : t.codeOf s = some p) : (p, s) ∈ t.codes := by
  simp only [Tree.codeOf, Option.map_eq_some_iff] at h
  obtain ⟨⟨q, s'⟩, h1, rfl⟩ := h
  have := List.mem_of_getLast? h1
  simp only [List.mem_filter, beq_iff_eq] at this
  obtain ⟨hm, rfl⟩ := this
  exact hm

theorem Tree.codeOf_isSome {t : Tree} {s : Byte} (h : s ∈ t.symbols) : ∃ p, t.codeOf s = some p := by
  rw [← Tree.codes_map_snd, List.mem_map] at h
  obtain ⟨⟨q, s'⟩, hm, rfl⟩ := h
  cases hc : (t.codes.filter (fun c => c.2 == s')).getLast? with
  | none =>
    rw [List.getLast?_eq_none_iff, List.filter_eq_nil_iff] at hc
    exact absurd (hc _ hm) (by simp)
  | some c => exact ⟨c.1, by simp [Tree.codeOf, hc]⟩

theorem Tree.codeOf_isNone {t : Tree} {s : Byte} (h : s ∉ t.symbols) : t.codeOf s = none := by
  simp only [Tree.codeOf, Option.map_eq_none_iff, List.getLast?_eq_none_iff, List.filter_eq_nil_iff, beq_iff_eq]
  rintro ⟨p, s'⟩ hm rfl
  exact h (by rw [← Tree.codes_map_snd]; exact List.mem_map_of_mem hm)

/-! ### The code table generator -/

theorem codeNumber_testBit (bs : List Bool) (j : Nat) : (codeNumber bs).testBit j = (bs[j]?).getD false := by
  induction bs generalizing j with
  | nil => simp [codeNumber]
  | cons b bs ih =>
    cases j with
    | zero => cases b <;> simp [codeNumber]
    | succ j =>
      have : codeNumber (b :: bs) / 2 = codeNumber bs := by
        cases b <;> simp only [codeNumber, Bool.toNat_true, Bool.toNat_false] <;> omega
      rw [Nat.testBit_succ, this, ih]; rfl

/-- The entry made for a code of at most 255 bits stores exactly that code (R29, R160). -/
theorem ofPath_bits {p : List Bool} (h : p.length ≤ 255) : (CodeEntry.ofPath p).bits = p := by
  have hl : (CodeEntry.ofPath p).len.toNat = p.length := by
    simp only [CodeEntry.ofPath, BitVec.toNat_ofNat]; omega
  apply List.ext_getElem?
  intro i
  simp only [CodeEntry.bits, hl, List.getElem?_map]
  by_cases hi : i < p.length
  · rw [List.getElem?_range hi, List.getElem?_eq_getElem hi]
    simp only [CodeEntry.ofPath, Option.map_some, BitVec.getLsbD_ofNat, codeNumber_testBit,
      List.getElem?_eq_getElem hi, Option.getD_some]
    simp; omega
  · rw [List.getElem?_eq_none (by simp; omega), List.getElem?_eq_none (by omega)]; rfl

theorem ofPath_pad {p : List Bool} (h : p.length ≤ 255) (j : Nat) (hj : (CodeEntry.ofPath p).len.toNat ≤ j) :
    (CodeEntry.ofPath p).code.getLsbD j = false := by
  have hl : (CodeEntry.ofPath p).len.toNat = p.length := by
    simp only [CodeEntry.ofPath, BitVec.toNat_ofNat]; omega
  rw [hl] at hj
  simp only [CodeEntry.ofPath, BitVec.getLsbD_ofNat, codeNumber_testBit]
  rw [List.getElem?_eq_none hj]; simp

theorem getLast?_filter_append (l m : List (List Bool × Byte)) (s : Byte) :
    ((l ++ m).filter (fun c => c.2 == s)).getLast? =
      ((m.filter (fun c => c.2 == s)).getLast?).or ((l.filter (fun c => c.2 == s)).getLast?) := by
  rw [List.filter_append, List.getLast?_append]

/-- What the walk leaves in the table (R160, R164): the path of the last leaf that holds the symbol, else what was
there. -/
theorem walk_get (t : Tree) (path : List Bool) (v : Vector CodeEntry 256) (s : Byte) :
    (walk t path v)[s.toNat]'(s.isLt) =
      match t.codeOf s with
      | some p => CodeEntry.ofPath (path ++ p)
      | none => v[s.toNat]'(s.isLt) := by
  induction t generalizing path v with
  | leaf sym =>
    by_cases h : sym = s
    · subst h; simp [walk, Tree.codeOf, Tree.codes]
    · have hn : sym.toNat ≠ s.toNat := fun e => h (BitVec.eq_of_toNat_eq e)
      simp [walk, Tree.codeOf, Tree.codes, h, hn]
  | node l r ihl ihr =>
    have hl : ∀ b : Bool, ∀ u : Tree,
        ((u.codes.map (fun c => (b :: c.1, c.2))).filter (fun c => c.2 == s)).getLast?.map Prod.fst =
          (u.codeOf s).map (b :: ·) := by
      intro b u
      rw [List.filter_map, List.getLast?_map]
      simp only [Tree.codeOf, Option.map_map]
      rfl
    have hc : (Tree.node l r).codeOf s = ((r.codeOf s).map (true :: ·)).or ((l.codeOf s).map (false :: ·)) := by
      rw [← hl, ← hl]
      simp only [Tree.codeOf, Tree.codes, getLast?_filter_append, Option.map_or]
    rw [walk, ihr, hc]
    cases hr : r.codeOf s with
    | some p => simp
    | none =>
      rw [ihl]
      cases hl' : l.codeOf s with
      | some p => simp
      | none => simp

theorem zeroTable_get (s : Byte) : (CodeTable.zero.entries)[s.toNat]'(s.isLt) = CodeEntry.none := by
  simp [CodeTable.zero]

/-- The generated table (R160, R164): each symbol's code in the tree, and no entry for a symbol no leaf holds. -/
theorem generateCodes_get (t : Tree) (s : Byte) :
    (generateCodes t).get s = match t.codeOf s with
      | some p => CodeEntry.ofPath p
      | none => CodeEntry.none := by
  simp only [CodeTable.get, generateCodes, walk_get, zeroTable_get, List.nil_append]

/-- The bits the encoder puts for a symbol are its code, or none. -/
theorem generateCodes_bits {t : Tree} (h : t.leafCount ≤ 256) (s : Byte) :
    ((generateCodes t).get s).bits = (t.codeOf s).getD [] := by
  rw [generateCodes_get]
  cases hc : t.codeOf s with
  | none => rfl
  | some p => exact ofPath_bits (by have := Tree.codes_length_lt (Tree.codeOf_mem hc); omega)

theorem generateCodes_pad {t : Tree} (h : t.leafCount ≤ 256) (s : Byte) (j : Nat)
    (hj : ((generateCodes t).get s).len.toNat ≤ j) : ((generateCodes t).get s).code.getLsbD j = false := by
  rw [generateCodes_get] at hj ⊢
  cases hc : t.codeOf s with
  | none => simp [CodeEntry.none]
  | some p =>
    rw [hc] at hj
    exact ofPath_pad (by have := Tree.codes_length_lt (Tree.codeOf_mem hc); omega) j hj

/-! ### The descent -/

/-- The descent reads exactly a leaf's path and gives its symbol (R171). -/
theorem descend_spec {t : Tree} {p : List Bool} {s : Byte} (hc : (p, s) ∈ t.codes) {r : BitReader} (hr : r.Ok)
    {rest : List Bool} (h : r.bits = p ++ rest) :
    ∃ r', descend t r = .done s r' ∧ r'.bits = rest ∧ r'.Ok ∧ r'.input = r.input := by
  induction t generalizing p r with
  | leaf s' =>
    simp only [Tree.codes, List.mem_singleton, Prod.mk.injEq] at hc
    obtain ⟨rfl, rfl⟩ := hc
    exact ⟨r, rfl, h, hr, rfl⟩
  | node l u ihl ihu =>
    obtain ⟨b, q, rfl, hq⟩ := Tree.mem_codes_node.1 hc
    obtain ⟨r1, h1, h2, h3, h4, -⟩ := getBit_cons hr h
    cases b
    · obtain ⟨r', e1, e2, e3, e4⟩ := ihl hq h3 h2
      exact ⟨r', by simp only [descend, h1, Run.bind_done]; exact e1, e2, e3, e4.trans h4⟩
    · obtain ⟨r', e1, e2, e3, e4⟩ := ihu hq h3 h2
      exact ⟨r', by simp only [descend, h1, Run.bind_done]; exact e1, e2, e3, e4.trans h4⟩

/-- A bit-string either begins with a leaf's path or is too short to reach a leaf. -/
theorem codes_prefix_or_short (t : Tree) (bs : List Bool) :
    (∃ p s rest, (p, s) ∈ t.codes ∧ bs = p ++ rest) ∨ (∀ p s, (p, s) ∈ t.codes → ¬ p <+: bs) := by
  induction t generalizing bs with
  | leaf s => exact .inl ⟨[], s, bs, by simp [Tree.codes], rfl⟩
  | node l r ihl ihr =>
    cases bs with
    | nil =>
      refine .inr fun p s hp h => ?_
      obtain ⟨b, q, rfl, -⟩ := Tree.mem_codes_node.1 hp
      simp at h
    | cons b bs =>
      have ih : (∃ p s rest, (p, s) ∈ (if b then r else l).codes ∧ bs = p ++ rest) ∨
          (∀ p s, (p, s) ∈ (if b then r else l).codes → ¬ p <+: bs) := by
        cases b
        · exact ihl bs
        · exact ihr bs
      rcases ih with ⟨p, s, rest, hp, rfl⟩ | hno
      · exact .inl ⟨b :: p, s, rest, Tree.mem_codes_node.2 ⟨b, p, rfl, hp⟩, rfl⟩
      · refine .inr fun p s hp h => ?_
        obtain ⟨c, q, rfl, hq⟩ := Tree.mem_codes_node.1 hp
        obtain ⟨rfl, h'⟩ := List.cons_prefix_cons.1 h
        exact hno q s hq h'

/-- The descent raises WRONG_INPUT exactly when the source ends before a leaf is reached (R171). -/
theorem descend_short {t : Tree} {r : BitReader} (hr : r.Ok) (h : ∀ p s, (p, s) ∈ t.codes → ¬ p <+: r.bits) :
    ∃ r', descend t r = .raised .wrongInput r' ∧ r'.Ok ∧ r'.input = r.input ∧ r'.bits = [] := by
  induction t generalizing r with
  | leaf s => exact absurd (List.nil_prefix) (h [] s (by simp [Tree.codes]))
  | node l u ihl ihu =>
    cases hb : r.bits with
    | nil => exact ⟨r, by simp [descend, getBit_nil hr hb], hr, rfl, hb⟩
    | cons b bs =>
      obtain ⟨r1, h1, h2, h3, h4, -⟩ := getBit_cons hr hb
      have hno : ∀ p s, (p, s) ∈ (if b then u else l).codes → ¬ p <+: r1.bits := by
        intro p s hp hpre
        rw [h2] at hpre
        exact h (b :: p) s (Tree.mem_codes_node.2 ⟨b, p, rfl, hp⟩) (by rw [hb]; exact List.cons_prefix_cons.2 ⟨rfl, hpre⟩)
      cases b
      · obtain ⟨r', e1, e2, e3, e4⟩ := ihl h3 hno
        exact ⟨r', by simp only [descend, h1, Run.bind_done]; exact e1, e2, e3.trans h4, e4⟩
      · obtain ⟨r', e1, e2, e3, e4⟩ := ihu h3 hno
        exact ⟨r', by simp only [descend, h1, Run.bind_done]; exact e1, e2, e3.trans h4, e4⟩

end Sys2Proof.Machine
end

