-- ==== Sys2Proof/Laws/Deserializer.lean ====
section
/-! SUPPORT. The node store against the tree it holds, and everything the deserializer can do (43_tree_serdes.md R143 to
R146; 10_state.md R22, R23). -/

namespace Sys2Proof.Machine

/-! ### The tree below a slot -/

/-- More levels and more slots do not change a tree that is there. -/
theorem subtree_mono {nodes ys : List Node} {f f' n : Nat} {t : Tree} (h : subtree nodes f n = some t) (hf : f ≤ f') :
    subtree (nodes ++ ys) f' n = some t := by
  induction f generalizing f' n t with
  | zero => cases h
  | succ f ih =>
    obtain ⟨g, rfl⟩ : ∃ g, f' = g + 1 := ⟨f' - 1, by omega⟩
    cases hn : nodes[n]? with
    | none => simp [subtree, hn] at h
    | some x =>
      have hn' : (nodes ++ ys)[n]? = some x := by
        rw [List.getElem?_append_left (List.getElem?_eq_some_iff.1 hn).1, hn]
      cases x with
      | leaf s q => simpa [subtree, hn, hn'] using h
      | internal q lo hi =>
        simp only [subtree, hn] at h
        cases hl : subtree nodes f lo.toNat with
        | none => simp [hl] at h
        | some l =>
          cases hr : subtree nodes f hi.toNat with
          | none => simp [hl, hr] at h
          | some r =>
            simp only [hl, hr] at h
            have el := ih (f' := g) hl (by omega)
            have er := ih (f' := g) hr (by omega)
            simp only [subtree, hn', el, er]
            exact h

/-- Nor do they change the slots that are reached. -/
theorem slotsBelow_mono {nodes ys : List Node} {f f' n : Nat} {t : Tree} (h : subtree nodes f n = some t) (hf : f ≤ f') :
    slotsBelow (nodes ++ ys) f' n = slotsBelow nodes f n := by
  induction f generalizing f' n t with
  | zero => cases h
  | succ f ih =>
    obtain ⟨g, rfl⟩ : ∃ g, f' = g + 1 := ⟨f' - 1, by omega⟩
    cases hn : nodes[n]? with
    | none => simp [subtree, hn] at h
    | some x =>
      have hn' : (nodes ++ ys)[n]? = some x := by
        rw [List.getElem?_append_left (List.getElem?_eq_some_iff.1 hn).1, hn]
      cases x with
      | leaf s q => simp [slotsBelow, hn, hn']
      | internal q lo hi =>
        simp only [subtree, hn] at h
        cases hl : subtree nodes f lo.toNat with
        | none => simp [hl] at h
        | some l =>
          cases hr : subtree nodes f hi.toNat with
          | none => simp [hl, hr] at h
          | some r => simp only [slotsBelow, hn, hn', ih hl (show f ≤ g by omega), ih hr (show f ≤ g by omega)]

/-- The slots of a tree are as many as its nodes, and all allocated. -/
theorem slotsBelow_spec {nodes : List Node} {f n : Nat} {t : Tree} (h : subtree nodes f n = some t) :
    (slotsBelow nodes f n).length = t.size ∧ ∀ m ∈ slotsBelow nodes f n, m < nodes.length := by
  induction f generalizing n t with
  | zero => cases h
  | succ f ih =>
    cases hn : nodes[n]? with
    | none => simp [subtree, hn] at h
    | some x =>
      have hlt := (List.getElem?_eq_some_iff.1 hn).1
      cases x with
      | leaf s q =>
        simp only [subtree, hn, Option.some.injEq] at h
        subst h
        have e : slotsBelow nodes (f + 1) n = [n] := by simp only [slotsBelow, hn]
        exact ⟨by rw [e]; rfl, by rw [e]; simpa using hlt⟩
      | internal q lo hi =>
        simp only [subtree, hn] at h
        cases hl : subtree nodes f lo.toNat with
        | none => simp [hl] at h
        | some l =>
          cases hr : subtree nodes f hi.toNat with
          | none => simp [hl, hr] at h
          | some r =>
            simp only [hl, hr, Option.some.injEq] at h
            subst h
            obtain ⟨h1, h2⟩ := ih hl
            obtain ⟨h3, h4⟩ := ih hr
            refine ⟨by simp [slotsBelow, hn, h1, h3, Tree.size]; omega, ?_⟩
            intro m hm
            simp only [slotsBelow, hn, List.mem_cons, List.mem_append] at hm
            rcases hm with rfl | hm | hm
            · exact hlt
            · exact h2 m hm
            · exact h4 m hm

/-- Where every slot is reached at most once, the tree has no more nodes than there are slots. -/
theorem size_le_of_nodup {nodes : List Node} {f n : Nat} {t : Tree} (h : subtree nodes f n = some t)
    (hd : (slotsBelow nodes f n).Nodup) : t.size ≤ nodes.length := by
  obtain ⟨h1, h2⟩ := slotsBelow_spec h
  have hsub : slotsBelow nodes f n ⊆ List.range nodes.length := fun m hm => List.mem_range.2 (h2 m hm)
  have := (hd.subperm hsub).length_le
  simpa [h1] using this

/-- A valid store of R22 holds a tree of at most 256 leaves. -/
theorem NodeStore.Ok.leafCount {n : NodeStore} (h : n.Ok) (hv : n.valid = true) :
    ∃ t, n.tree = some t ∧ t.leafCount ≤ 256 := by
  obtain ⟨t, ht, hd⟩ := h.tree hv
  have h1 := size_le_of_nodup ht hd
  have h2 := h.cap
  rw [t.size_eq] at h1
  exact ⟨t, ht, by omega⟩

/-! ### What the deserializer builds -/

/-- The slots a tree takes when it is allocated in pre-order from slot `off` (R144). -/
def layout : Tree → Nat → List Node
  | .leaf s, _ => [.leaf s 0]
  | .node l h, off =>
    .internal 0 (BitVec.ofNat 9 (off + 1)) (BitVec.ofNat 9 (off + 1 + l.size)) ::
      (layout l (off + 1) ++ layout h (off + 1 + l.size))

@[simp] theorem layout_length (t : Tree) (off : Nat) : (layout t off).length = t.size := by
  induction t generalizing off with
  | leaf => rfl
  | node l h ihl ihh => simp only [layout, List.length_cons, List.length_append, ihl, ihh, Tree.size]; omega

theorem Tree.size_pos (t : Tree) : 0 < t.size := by cases t <;> simp only [Tree.size] <;> omega

/-- A tree laid out in the store is found there, in consecutive slots. -/
theorem subtree_layout (t : Tree) (xs ys : List Node) (f : Nat) (hf : t.size ≤ f) (hc : xs.length + t.size ≤ 511) :
    subtree (xs ++ (layout t xs.length ++ ys)) f xs.length = some t ∧
      slotsBelow (xs ++ (layout t xs.length ++ ys)) f xs.length = List.range' xs.length t.size := by
  induction t generalizing xs ys f with
  | leaf s =>
    obtain ⟨g, rfl⟩ : ∃ g, f = g + 1 := ⟨f - 1, by simp only [Tree.size] at hf; omega⟩
    simp [subtree, slotsBelow, layout, Tree.size]
  | node l h ihl ihh =>
    simp only [Tree.size] at hf hc
    have hl := l.size_pos; have hh := h.size_pos
    obtain ⟨g, rfl⟩ : ∃ g, f = g + 1 := ⟨f - 1, by omega⟩
    have hget : (xs ++ (layout (.node l h) xs.length ++ ys))[xs.length]? =
        some (.internal 0 (BitVec.ofNat 9 (xs.length + 1)) (BitVec.ofNat 9 (xs.length + 1 + l.size))) := by
      simp [layout]
    have e1 : (BitVec.ofNat 9 (xs.length + 1)).toNat = xs.length + 1 := by
      rw [BitVec.toNat_ofNat]; omega
    have e2 : (BitVec.ofNat 9 (xs.length + 1 + l.size)).toNat = xs.length + 1 + l.size := by
      rw [BitVec.toNat_ofNat]; omega
    have il := ihl (xs ++ [.internal 0 (BitVec.ofNat 9 (xs.length + 1)) (BitVec.ofNat 9 (xs.length + 1 + l.size))])
      (layout h (xs.length + 1 + l.size) ++ ys) g (by omega) (by simp; omega)
    have ih := ihh (xs ++ .internal 0 (BitVec.ofNat 9 (xs.length + 1)) (BitVec.ofNat 9 (xs.length + 1 + l.size)) ::
      layout l (xs.length + 1)) ys g (by omega) (by simp; omega)
    simp only [List.length_append, List.length_cons, List.length_nil, Nat.zero_add, layout_length, List.append_assoc,
      List.cons_append, List.nil_append] at il ih
    have e3 : xs.length + (l.size + 1) = xs.length + 1 + l.size := by omega
    rw [e3] at ih
    refine ⟨?_, ?_⟩
    · simp only [subtree, hget, e1, e2]
      simp only [layout, List.cons_append, List.append_assoc, il.1, ih.1]
    · simp only [slotsBelow, hget, e1, e2]
      simp only [layout, List.cons_append, List.append_assoc, il.2, ih.2, Tree.size]
      rw [List.range'_append_1, Nat.add_assoc 1, Nat.add_comm 1 (l.size + h.size), List.range'_succ]

/-- A tree laid out from slot 0 is the store's tree, with ROOT = 0, and meets R22. -/
theorem layout_store (t : Tree) (hc : t.size ≤ 511) :
    (NodeStore.mk (layout t 0) 0 true).tree = some t ∧ (NodeStore.mk (layout t 0) 0 true).Ok := by
  have h := subtree_layout t [] [] (layout t 0).length (by simp) (by simpa using hc)
  simp only [List.length_nil, List.nil_append, List.append_nil] at h
  refine ⟨h.1, ⟨by simpa using hc, fun _ => ⟨t, h.1, ?_⟩, fun h => by cases h⟩⟩
  show (slotsBelow (layout t 0) (layout t 0).length 0).Nodup
  rw [h.2]
  exact List.nodup_range'

theorem set_middle (xs ys : List Node) (x y : Node) : (xs ++ x :: ys).set xs.length y = xs ++ y :: ys := by
  simp

/-- Everything Deserialize can do (R144): if the bits still to come begin with a tree that fits into the 511 slots, it
reads exactly that tree and allocates it in pre-order; else it raises WRONG_INPUT. -/
theorem deserialize_spec (f : Nat) {b : Rebuild} (hr : b.reader.Ok) (hc : b.nodes.length ≤ 511)
    (hf : 512 ≤ f + b.nodes.length) :
    (∃ t rest b', b.reader.bits = treeBits t ++ rest ∧ b.nodes.length + t.size ≤ 511 ∧
      deserialize f b = .done b.nodes.length b' ∧ b'.nodes = b.nodes ++ layout t b.nodes.length ∧
      b'.reader.bits = rest ∧ b'.reader.Ok ∧ b'.reader.input = b.reader.input) ∨
    (∃ b', deserialize f b = .raised .wrongInput b' ∧ b'.reader.Ok ∧ b'.reader.input = b.reader.input ∧
      ∀ t rest, b.reader.bits = treeBits t ++ rest → 511 < b.nodes.length + t.size) := by
  induction f generalizing b with
  | zero => omega
  | succ f ih =>
    obtain ⟨r, nodes⟩ := b
    simp only at hr hc hf
    cases hb : r.bits with
    | nil =>
      refine .inr ⟨⟨r, nodes⟩, by simp [deserialize, Rebuild.getBit, getBit_nil hr hb], hr, rfl, ?_⟩
      intro t rest h
      cases t <;> simp [treeBits] at h
    | cons bit bs =>
      obtain ⟨r1, h1, h2, h3, h4, -⟩ := getBit_cons hr hb
      by_cases hcap : 511 ≤ nodes.length
      · refine .inr ⟨⟨r1, nodes⟩, ?_, h3, h4, ?_⟩
        · have hcap' : Config.nodeCap ≤ nodes.length := hcap
          cases bit <;> simp [deserialize, Rebuild.getBit, h1, alloc, hcap']
        · intro t rest _
          have := t.size_pos
          simp only; omega
      · have hcap' : ¬ Config.nodeCap ≤ nodes.length := hcap
        cases bit with
        | true =>
          by_cases hlen : bs.length < 8
          · obtain ⟨r2, g1, g2, g3, g4⟩ := getByte_short h3 (by rw [h2]; exact hlen)
            refine .inr ⟨⟨r2, nodes ++ [.leaf 0 0]⟩, ?_, g2, g3.trans h4, ?_⟩
            · simp [deserialize, Rebuild.getBit, Rebuild.getByte, h1, alloc, hcap', g1]
            · intro t rest h
              cases t with
              | leaf s =>
                simp only [treeBits, List.cons_append, List.cons.injEq, true_and] at h
                rw [h] at hlen; simp at hlen
              | node => simp [treeBits] at h
          · obtain ⟨v, hv⟩ := exists_byteBits (bs.take 8) (by simp; omega)
            have hbs : bs = byteBits v ++ bs.drop 8 := by rw [hv, List.take_append_drop]
            obtain ⟨r2, g1, g2, g3, g4, -⟩ := getByte_spec h3 (h2.trans hbs)
            refine .inl ⟨.leaf v, bs.drop 8, ⟨r2, nodes ++ [.leaf v 0]⟩, ?_, ?_, ?_, rfl, g2, g3, g4.trans h4⟩
            · rw [treeBits, List.cons_append, ← hbs]
            · simp only [Tree.size]; omega
            · simp [deserialize, Rebuild.getBit, Rebuild.getByte, h1, alloc, hcap', g1, setNode]
        | false =>
          have hlow := ih (b := ⟨r1, nodes ++ [.internal 0 0 0]⟩) h3 (by simp; omega) (by simp; omega)
          simp only [List.length_append, List.length_cons, List.length_nil, Nat.zero_add] at hlow
          rcases hlow with ⟨l, rest1, b1, e1, e2, e3, e4, e5, e6, e7⟩ | ⟨b1, e1, e2, e3, e4⟩
          · obtain ⟨r2, nodes2⟩ := b1
            simp only at e1 e4 e5 e6 e7
            have hset : nodes2.set nodes.length (.internal 0 (BitVec.ofNat 9 (nodes.length + 1)) 0) =
                nodes ++ .internal 0 (BitVec.ofNat 9 (nodes.length + 1)) 0 :: layout l (nodes.length + 1) := by
              rw [e4, List.append_assoc, List.singleton_append, set_middle]
            have hhigh := ih (b := ⟨r2, nodes ++ .internal 0 (BitVec.ofNat 9 (nodes.length + 1)) 0 ::
              layout l (nodes.length + 1)⟩) e6 (by simp; omega) (by simp; omega)
            simp only [List.length_append, List.length_cons, layout_length] at hhigh
            have e8 : nodes.length + (l.size + 1) = nodes.length + 1 + l.size := by omega
            rw [e8] at hhigh
            rcases hhigh with ⟨h, rest2, b2, k1, k2, k3, k4, k5, k6, k7⟩ | ⟨b2, k1, k2, k3, k4⟩
            · obtain ⟨r3, nodes3⟩ := b2
              simp only at k1 k4 k5 k6 k7
              refine .inl ⟨.node l h, rest2, ⟨r3, nodes ++ layout (.node l h) nodes.length⟩, ?_, ?_, ?_, rfl, k5, k6,
                k7.trans (e7.trans h4)⟩
              · rw [← h2, e1, ← e5, k1]
                simp only [treeBits, List.cons_append, List.append_assoc]
              · simp only [Tree.size]; omega
              · simp only [deserialize, Rebuild.getBit, h1, Run.lift_done, Run.bind_done, alloc, hcap', if_false, e3,
                  setNode, hset, k3, k4]
                simp only [List.append_assoc, List.cons_append, set_middle, layout]
                simp
            · refine .inr ⟨b2, ?_, k2, k3.trans (e7.trans h4), ?_⟩
              · simp only [deserialize, Rebuild.getBit, h1, Run.lift_done, Run.bind_done, alloc, hcap', if_false, e3,
                  setNode, hset, k1, Run.bind_raised]
                simp
              · intro t rest h
                cases t with
                | leaf => simp [treeBits] at h
                | node l' h' =>
                  simp only [treeBits, List.cons_append, List.cons.injEq, true_and, List.append_assoc] at h
                  rw [← h2, e1] at h
                  obtain ⟨rfl, hx⟩ := treeBits_append_inj h
                  have := k4 h' rest (e5.trans hx)
                  simp only [Tree.size]; omega
          · refine .inr ⟨b1, ?_, e2, e3.trans h4, ?_⟩
            · simp only [deserialize, Rebuild.getBit, h1, Run.lift_done, Run.bind_done, alloc, hcap', if_false, e1,
                Run.bind_raised]
              simp
            · intro t rest h
              cases t with
              | leaf => simp [treeBits] at h
              | node l' h' =>
                simp only [treeBits, List.cons_append, List.cons.injEq, true_and, List.append_assoc] at h
                have := e4 l' (treeBits h' ++ rest) (by rw [h2, h])
                have := h'.size_pos
                simp only [Tree.size]; omega

/-- Everything ReadTree can do (R143, R145). -/
theorem readTree_spec {s : State} (hr : s.reader.Ok) :
    (∃ t rest r', s.reader.bits = treeBits t ++ rest ∧ t.size ≤ 511 ∧
      readTree s = .done () { s with
        store := ⟨layout t 0, 0, true⟩, ct := ⟨s.ct.entries, false⟩, reader := align r' } ∧
      r'.bits = rest ∧ r'.Ok ∧ r'.input = s.reader.input) ∨
    (∃ r' nodes, readTree s = .raised .wrongInput { s with
        store := ⟨nodes, s.store.root, false⟩, ct := ⟨s.ct.entries, false⟩, reader := r' } ∧
      r'.Ok ∧ r'.input = s.reader.input ∧ ∀ t rest, s.reader.bits = treeBits t ++ rest → 511 < t.size) := by
  rcases deserialize_spec (Config.nodeCap + 1) (b := ⟨s.reader, []⟩) hr (by simp) (by simp [Config.nodeCap]) with
    ⟨t, rest, b', e1, e2, e3, e4, e5, e6, e7⟩ | ⟨b', e1, e2, e3, e4⟩
  · refine .inl ⟨t, rest, b'.reader, e1, by simpa using e2, ?_, e5, e6, e7⟩
    simp only [readTree, e3, Run.lift_done, Run.bind_done, e4]
    rfl
  · refine .inr ⟨b'.reader, b'.nodes, ?_, e2, e3, by simpa using e4⟩
    simp only [readTree, e1, Run.lift_raised, Run.bind_raised]

end Sys2Proof.Machine
end

