-- ==== Sys2Proof/Laws/Builder.lean ====
section
/-! SUPPORT. The tree builder (42_tree_builder.md R130 to R135): FOREST stays in KEY order, and what 255 merges leave. -/

namespace Sys2Proof.Machine

/-! ### KEY (R131) -/

theorem keyLt_iff (tie : TieMerged) (a b : ForestEntry) :
    a.keyLt tie b = true ↔
      a.freq.toNat < b.freq.toNat ∨ (a.freq.toNat = b.freq.toNat ∧
        ((a.tieKey tie).1 < (b.tieKey tie).1 ∨
          ((a.tieKey tie).1 = (b.tieKey tie).1 ∧ (a.tieKey tie).2 < (b.tieKey tie).2))) := by
  unfold ForestEntry.keyLt
  split
  · split <;> simp only [decide_eq_true_eq] <;> omega
  · simp only [decide_eq_true_eq]; omega

theorem keyLt_trans {tie : TieMerged} {a b c : ForestEntry} (h1 : a.keyLt tie b = true) (h2 : b.keyLt tie c = true) :
    a.keyLt tie c = true := by
  rw [keyLt_iff] at *; omega

/-- Distinct slots have distinct keys: KEY is a total order on slots. -/
theorem keyLt_total {tie : TieMerged} {a b : ForestEntry} (h : a.slot ≠ b.slot) :
    a.keyLt tie b = true ∨ b.keyLt tie a = true := by
  have hn : a.slot.toNat ≠ b.slot.toNat := fun e => h (BitVec.eq_of_toNat_eq e)
  have ha := a.slot.isLt; have hb := b.slot.isLt
  rw [keyLt_iff, keyLt_iff]
  cases tie with
  | after => simp [ForestEntry.tieKey]; omega
  | before =>
    simp only [ForestEntry.tieKey]
    cases a.leaf <;> cases b.leaf <;> simp <;> omega

/-- The forest is in ascending KEY order. -/
abbrev InKeyOrder (tie : TieMerged) (l : List ForestEntry) : Prop := l.Pairwise fun a b => a.keyLt tie b = true

theorem insertByKey_perm (tie : TieMerged) (e : ForestEntry) (l : List ForestEntry) :
    (insertByKey tie e l).Perm (e :: l) := by
  induction l with
  | nil => exact .refl _
  | cons x xs ih =>
    rw [insertByKey]
    split
    · exact (ih.cons x).trans (.swap e x xs)
    · exact .refl _

theorem insertByKey_sorted {tie : TieMerged} {e : ForestEntry} {l : List ForestEntry} (hl : InKeyOrder tie l)
    (hne : ∀ x ∈ l, x.slot ≠ e.slot) : InKeyOrder tie (insertByKey tie e l) := by
  induction l with
  | nil => exact List.pairwise_singleton _ _
  | cons x xs ih =>
    obtain ⟨h1, h2⟩ := List.pairwise_cons.1 hl
    rw [insertByKey]
    split
    · rename_i hx
      refine List.pairwise_cons.2 ⟨fun y hy => ?_, ih h2 fun y hy => hne y (List.mem_cons_of_mem _ hy)⟩
      rcases List.mem_cons.1 ((insertByKey_perm tie e xs).mem_iff.1 hy) with rfl | hy
      · exact hx
      · exact h1 y hy
    · rename_i hx
      have hex : e.keyLt tie x = true := (keyLt_total (hne x (by simp))).resolve_left hx
      refine List.pairwise_cons.2 ⟨fun y hy => ?_, hl⟩
      rcases List.mem_cons.1 hy with rfl | hy
      · exact hex
      · exact keyLt_trans hex (h1 y hy)

theorem sortByKey_perm (tie : TieMerged) (l : List ForestEntry) : (sortByKey tie l).Perm l := by
  induction l with
  | nil => exact .refl _
  | cons x xs ih => exact (insertByKey_perm tie x _).trans (ih.cons x)

theorem sortByKey_sorted {tie : TieMerged} {l : List ForestEntry} (h : l.Pairwise fun a b => a.slot ≠ b.slot) :
    InKeyOrder tie (sortByKey tie l) := by
  induction l with
  | nil => exact List.Pairwise.nil
  | cons x xs ih =>
    obtain ⟨h1, h2⟩ := List.pairwise_cons.1 h
    exact insertByKey_sorted (ih h2) fun y hy => (h1 y ((sortByKey_perm tie xs).mem_iff.1 hy)).symm

theorem mergePos_le (tie : TieMerged) (f : Word) (l : List ForestEntry) : mergePos tie f l ≤ l.length := by
  cases tie <;> exact List.countP_le_length

theorem insertAtPos_perm (tie : TieMerged) (x : ForestEntry) (l : List ForestEntry) :
    (l.insertIdx (mergePos tie x.freq l) x).Perm (x :: l) := List.perm_insertIdx x l (mergePos_le tie x.freq l)

/-- `pos(n)` agrees with KEY (R132): a merged node newer than every entry goes where the order is kept. -/
theorem insertAtPos_sorted {tie : TieMerged} {x : ForestEntry} {l : List ForestEntry} (hl : InKeyOrder tie l)
    (hx : x.leaf = false) (hnew : ∀ e ∈ l, e.slot.toNat < x.slot.toNat) :
    InKeyOrder tie (l.insertIdx (mergePos tie x.freq l) x) := by
  induction l with
  | nil => cases tie <;> simp [mergePos]
  | cons e es ih =>
    obtain ⟨h1, h2⟩ := List.pairwise_cons.1 hl
    have he := hnew e (by simp)
    have hx9 := x.slot.isLt
    have ih := ih h2 fun y hy => hnew y (List.mem_cons_of_mem _ hy)
    have hmono : ∀ y ∈ es, e.freq.toNat ≤ y.freq.toNat := by
      intro y hy
      have := h1 y hy
      rw [keyLt_iff] at this; omega
    have step (hex : e.keyLt tie x = true) :
        InKeyOrder tie (e :: es.insertIdx (mergePos tie x.freq es) x) := by
      refine List.pairwise_cons.2 ⟨fun y hy => ?_, ih⟩
      rcases List.mem_cons.1 ((insertAtPos_perm tie x es).mem_iff.1 hy) with rfl | hy
      · exact hex
      · exact h1 y hy
    have first (hxe : x.keyLt tie e = true) : InKeyOrder tie (x :: e :: es) := by
      refine List.pairwise_cons.2 ⟨fun y hy => ?_, hl⟩
      rcases List.mem_cons.1 hy with rfl | hy
      · exact hxe
      · exact keyLt_trans hxe (h1 y hy)
    cases tie with
    | after =>
      by_cases hp : e.freq.toNat ≤ x.freq.toNat
      · have hpos : mergePos .after x.freq (e :: es) = mergePos .after x.freq es + 1 := by simp [mergePos, hp]
        rw [hpos, List.insertIdx_succ_cons]
        exact step (by rw [keyLt_iff]; simp [ForestEntry.tieKey]; omega)
      · have hz : mergePos .after x.freq es = 0 := by
          simp only [mergePos, List.countP_eq_zero, decide_eq_true_eq]
          intro y hy; have := hmono y hy; omega
        have hpos : mergePos .after x.freq (e :: es) = 0 := by
          simp only [mergePos] at hz ⊢; simp [hp, hz]
        rw [hpos, List.insertIdx_zero]
        exact first (by rw [keyLt_iff]; omega)
    | before =>
      by_cases hp : e.freq.toNat < x.freq.toNat
      · have hpos : mergePos .before x.freq (e :: es) = mergePos .before x.freq es + 1 := by simp [mergePos, hp]
        rw [hpos, List.insertIdx_succ_cons]
        exact step (by rw [keyLt_iff]; omega)
      · have hz : mergePos .before x.freq es = 0 := by
          simp only [mergePos, List.countP_eq_zero, decide_eq_true_eq]
          intro y hy; have := hmono y hy; omega
        have hpos : mergePos .before x.freq (e :: es) = 0 := by
          simp only [mergePos] at hz ⊢; simp [hp, hz]
        rw [hpos, List.insertIdx_zero]
        refine first ?_
        rw [keyLt_iff]
        simp only [ForestEntry.tieKey, hx]
        cases e.leaf <;> simp <;> omega

/-! ### The forest after k merges -/

/-- The symbols below a forest entry. -/
def entrySymbols (nodes : List Node) (e : ForestEntry) : List Byte :=
  ((subtree nodes (e.slot.toNat + 1) e.slot.toNat).map Tree.symbols).getD []

/-- The slots below a forest entry. -/
def entrySlots (nodes : List Node) (e : ForestEntry) : List Nat := slotsBelow nodes (e.slot.toNat + 1) e.slot.toNat

/-- What holds after `k` merges of the forest of a frequency table (R130 to R133, R135). -/
structure BuildInv (tie : TieMerged) (t : FreqTable) (k : Nat) (f : Forest) : Prop where
  nodesLen : f.nodes.length = 256 + k
  forestLen : f.forest.length = 256 - k
  order : InKeyOrder tie f.forest
  entry : ∀ e ∈ f.forest, e.slot.toNat < f.nodes.length ∧ e.freq = nodeFreq f.nodes e.slot.toNat ∧
    e.leaf = decide (e.slot.toNat < 256) ∧ ∃ u, subtree f.nodes (e.slot.toNat + 1) e.slot.toNat = some u
  newest : 0 < k → ∃ e ∈ f.forest, e.slot.toNat = 255 + k
  symbols : (f.forest.flatMap (entrySymbols f.nodes)).Perm allBytes
  slots : (f.forest.flatMap (entrySlots f.nodes)).Perm (List.range (256 + k))
  sum : (f.forest.map ForestEntry.freq).sum = (allBytes.map t.get).sum
  leaves : ∀ s < 256, f.nodes[s]? = some (.leaf (BitVec.ofNat 8 s) (t.get (BitVec.ofNat 8 s)))
  merged : ∀ j, 256 ≤ j → j < 256 + k → ∃ low high,
    f.nodes[j]? = some (.internal (nodeFreq f.nodes low.toNat + nodeFreq f.nodes high.toNat) low high) ∧
      low.toNat < j ∧ high.toNat < j

theorem nodeFreq_append {nodes ys : List Node} {n : Nat} (h : n < nodes.length) :
    nodeFreq (nodes ++ ys) n = nodeFreq nodes n := by
  simp only [nodeFreq, List.getElem?_append_left h]

theorem initNodes_get (t : FreqTable) (s : Nat) (h : s < 256) :
    (initNodes t)[s]? = some (.leaf (BitVec.ofNat 8 s) (t.get (BitVec.ofNat 8 s))) := by
  simp [initNodes, List.getElem?_range h]

theorem initEntry_subtree (t : FreqTable) (s : Nat) (h : s < 256) (f : Nat) :
    subtree (initNodes t) (f + 1) s = some (.leaf (BitVec.ofNat 8 s)) ∧ slotsBelow (initNodes t) (f + 1) s = [s] := by
  constructor
  · simp only [subtree, initNodes_get t s h]
  · simp only [slotsBelow, initNodes_get t s h]

theorem ofNat9_toNat {n : Nat} (h : n < 512) : (BitVec.ofNat 9 n).toNat = n := by
  rw [BitVec.toNat_ofNat]; omega

theorem initEntries_length (t : FreqTable) : (initEntries t).length = 256 := by simp [initEntries]

theorem initEntries_slots (t : FreqTable) : (initEntries t).Pairwise fun a b => a.slot ≠ b.slot := by
  unfold initEntries
  rw [List.pairwise_map]
  refine List.Pairwise.imp_of_mem (fun {a b} ha hb h e => ?_) List.pairwise_lt_range
  have := congrArg BitVec.toNat e
  have ha := List.mem_range.1 ha
  have hb := List.mem_range.1 hb
  rw [ofNat9_toNat (by omega), ofNat9_toNat (by omega)] at this
  omega

theorem initEntries_symbols (t : FreqTable) : (initEntries t).flatMap (entrySymbols (initNodes t)) = allBytes := by
  unfold initEntries allBytes
  rw [List.flatMap_map, List.map_eq_flatMap]
  refine List.flatMap_congr fun s hs => ?_
  have hs := List.mem_range.1 hs
  unfold entrySymbols
  rw [ofNat9_toNat (show s < 512 by omega), (initEntry_subtree t s hs s).1]
  rfl

theorem initEntries_slotsBelow (t : FreqTable) : (initEntries t).flatMap (entrySlots (initNodes t)) = List.range 256 := by
  unfold initEntries
  rw [List.flatMap_map]
  refine .trans (List.flatMap_congr (g := fun s => [s]) fun s hs => ?_) (List.flatMap_singleton' _)
  have hs := List.mem_range.1 hs
  unfold entrySlots
  rw [ofNat9_toNat (show s < 512 by omega), (initEntry_subtree t s hs s).2]

theorem initEntries_freq (t : FreqTable) : (initEntries t).map ForestEntry.freq = allBytes.map t.get := by
  unfold initEntries allBytes
  rw [List.map_map, List.map_map]; rfl

theorem init_inv (tie : TieMerged) (t : FreqTable) : BuildInv tie t 0 (initForest tie t) := by
  have hp := sortByKey_perm tie (initEntries t)
  have hl := initEntries_length t
  have hsl := initEntries_slots t
  have hsy := initEntries_symbols t
  have hbl := initEntries_slotsBelow t
  have hfr := initEntries_freq t
  have hnl : (initNodes t).length = 256 := by simp [initNodes]
  have hmem : ∀ e ∈ initEntries t, ∃ s < 256, e = ⟨BitVec.ofNat 9 s, t.get (BitVec.ofNat 8 s), true⟩ := by
    intro e he
    unfold initEntries at he
    obtain ⟨s, h1, h2⟩ := List.mem_map.1 he
    exact ⟨s, List.mem_range.1 h1, h2.symm⟩
  have hget := initNodes_get t
  have hst := initEntry_subtree t
  unfold initForest
  generalize initEntries t = es at *
  generalize initNodes t = nodes at *
  refine ⟨hnl, hp.length_eq.trans hl, sortByKey_sorted hsl, ?_, by omega, ?_, ?_, ?_, hget, by omega⟩
  · intro e he
    obtain ⟨s, hs, rfl⟩ := hmem e (hp.mem_iff.1 he)
    have e9 := ofNat9_toNat (show s < 512 by omega)
    simp only [e9]
    refine ⟨by omega, ?_, by simp [hs], _, (hst s hs s).1⟩
    simp only [nodeFreq, hget s hs]
  · exact (hp.flatMap_right _).trans (.of_eq hsy)
  · exact (hp.flatMap_right _).trans (.of_eq hbl)
  · exact (hp.map _).sum_eq.trans (congrArg List.sum hfr)

/-- One merge keeps the invariant (R133). -/
theorem mergeOnce_inv {tie : TieMerged} {t : FreqTable} {k : Nat} {f : Forest} (h : BuildInv tie t k f) (hk : k < 255) :
    BuildInv tie t (k + 1) (mergeOnce tie f) := by
  obtain ⟨nodes, forest⟩ := f
  have hnl := h.nodesLen
  have hfl := h.forestLen
  simp only at hnl hfl
  obtain ⟨a, b, rest, rfl⟩ : ∃ a b rest, forest = a :: b :: rest := by
    match forest, hfl with
    | [], hfl => simp at hfl; omega
    | [_], hfl => simp at hfl; omega
    | a :: b :: rest, _ => exact ⟨a, b, rest, rfl⟩
  have hn9 : (BitVec.ofNat 9 nodes.length).toNat = nodes.length := ofNat9_toNat (by omega)
  obtain ⟨ha1, ha2, ha3, ua, ha4⟩ := h.entry a (by simp)
  obtain ⟨hb1, hb2, hb3, ub, hb4⟩ := h.entry b (by simp)
  simp only at ha1 ha2 ha4 hb1 hb2 hb4
  have hrest : ∀ e ∈ rest, e ∈ a :: b :: rest := fun e he => by simp [he]
  obtain ⟨x, hx⟩ : ∃ x, x = ForestEntry.mk (BitVec.ofNat 9 nodes.length) (a.freq + b.freq) false := ⟨_, rfl⟩
  have hxs : x.slot.toNat = nodes.length := by rw [hx]; exact hn9
  have hperm : (rest.insertIdx (mergePos tie (a.freq + b.freq) rest) x).Perm (x :: rest) := by
    have := insertAtPos_perm tie x rest
    rw [hx] at this ⊢; exact this
  have hgetn : (nodes ++ [Node.internal (a.freq + b.freq) a.slot b.slot])[nodes.length]? =
      some (.internal (a.freq + b.freq) a.slot b.slot) := by simp
  have hxt : subtree (nodes ++ [Node.internal (a.freq + b.freq) a.slot b.slot]) (nodes.length + 1) nodes.length =
      some (.node ua ub) := by
    simp only [subtree, hgetn, subtree_mono ha4 (show a.slot.toNat + 1 ≤ nodes.length from ha1),
      subtree_mono hb4 (show b.slot.toNat + 1 ≤ nodes.length from hb1)]
  have hxl : slotsBelow (nodes ++ [Node.internal (a.freq + b.freq) a.slot b.slot]) (nodes.length + 1) nodes.length =
      nodes.length :: (entrySlots nodes a ++ entrySlots nodes b) := by
    simp only [slotsBelow, hgetn, slotsBelow_mono ha4 (show a.slot.toNat + 1 ≤ nodes.length from ha1),
      slotsBelow_mono hb4 (show b.slot.toNat + 1 ≤ nodes.length from hb1)]
    rfl
  have hsame : ∀ e ∈ rest, entrySymbols (nodes ++ [Node.internal (a.freq + b.freq) a.slot b.slot]) e = entrySymbols nodes e ∧
      entrySlots (nodes ++ [Node.internal (a.freq + b.freq) a.slot b.slot]) e = entrySlots nodes e := by
    intro e he
    obtain ⟨-, -, -, u, hu⟩ := h.entry e (hrest e he)
    exact ⟨by simp only [entrySymbols, subtree_mono hu (Nat.le_refl _), hu],
      slotsBelow_mono hu (Nat.le_refl _)⟩
  have hmo : mergeOnce tie ⟨nodes, a :: b :: rest⟩ =
      ⟨nodes ++ [.internal (a.freq + b.freq) a.slot b.slot],
        rest.insertIdx (mergePos tie (a.freq + b.freq) rest) x⟩ := by rw [hx]; rfl
  rw [hmo]
  refine ⟨by simp [hnl]; omega, ?_, ?_, ?_, ?_, ?_, ?_, ?_, ?_, ?_⟩
  · simp only [hperm.length_eq, List.length_cons] at hfl ⊢; omega
  · have hord := h.order
    simp only [InKeyOrder, List.pairwise_cons] at hord
    have hf : a.freq + b.freq = x.freq := by rw [hx]
    simp only [hf]
    refine insertAtPos_sorted hord.2.2 (by rw [hx]) fun e he => ?_
    rw [hxs]; exact (h.entry e (hrest e he)).1
  · intro e he
    rcases List.mem_cons.1 (hperm.mem_iff.1 he) with rfl | he
    · rw [hxs]
      refine ⟨by simp, ?_, ?_, _, hxt⟩
      · simp only [nodeFreq, hgetn, hx]
      · rw [hx]; simp; omega
    · obtain ⟨h1, h2, h3, u, h4⟩ := h.entry e (hrest e he)
      simp only at h1 h2 h4
      exact ⟨by simp; omega, by rw [h2, nodeFreq_append h1], h3, u, subtree_mono h4 (Nat.le_refl _)⟩
  · intro _
    exact ⟨x, hperm.mem_iff.2 (by simp), by rw [hxs]; omega⟩
  · refine (hperm.flatMap_right _).trans (.trans (.of_eq ?_) h.symbols)
    have hs : entrySymbols (nodes ++ [Node.internal (a.freq + b.freq) a.slot b.slot]) x =
        entrySymbols nodes a ++ entrySymbols nodes b := by
      simp only [entrySymbols, hxs, hxt, ha4, hb4]; rfl
    simp only [List.flatMap_cons, hs, List.append_assoc]
    rw [List.flatMap_congr fun e he => (hsame e he).1]
  · have hs : entrySlots (nodes ++ [Node.internal (a.freq + b.freq) a.slot b.slot]) x =
        nodes.length :: (entrySlots nodes a ++ entrySlots nodes b) := by rw [entrySlots, hxs, hxl]
    refine (hperm.flatMap_right _).trans ?_
    simp only [List.flatMap_cons, hs]
    rw [List.flatMap_congr fun e he => (hsame e he).2]
    have hr : List.range (256 + (k + 1)) = List.range (256 + k) ++ [nodes.length] := by
      rw [← Nat.add_assoc, List.range_succ, hnl]
    rw [hr]
    refine (List.Perm.cons _ (.trans (.of_eq ?_) h.slots)).trans (List.perm_append_singleton _ _).symm
    simp only [List.flatMap_cons]
    exact List.append_assoc _ _ _
  · rw [(hperm.map _).sum_eq, ← h.sum, hx]
    simp only [List.map_cons, List.sum_cons, add_assoc]
  · intro s hs
    rw [List.getElem?_append_left (by omega)]
    exact h.leaves s hs
  · intro j hj1 hj2
    by_cases hj : j < nodes.length
    · obtain ⟨low, high, h1, h2, h3⟩ := h.merged j hj1 (by omega)
      simp only at h1
      refine ⟨low, high, ?_, h2, h3⟩
      rw [List.getElem?_append_left hj, nodeFreq_append (by omega), nodeFreq_append (by omega)]
      exact h1
    · have : j = nodes.length := by omega
      subst this
      refine ⟨a.slot, b.slot, ?_, ha1, hb1⟩
      rw [hgetn, nodeFreq_append ha1, nodeFreq_append hb1, ← ha2, ← hb2]

theorem mergeTimes_succ (tie : TieMerged) (n : Nat) (f : Forest) :
    mergeTimes tie (n + 1) f = mergeTimes tie n (mergeOnce tie f) := rfl

theorem mergeTimes_inv {tie : TieMerged} {t : FreqTable} (n : Nat) {k : Nat} {f : Forest} (h : BuildInv tie t k f)
    (hk : k + n ≤ 255) : BuildInv tie t (k + n) (mergeTimes tie n f) := by
  induction n generalizing k f with
  | zero => exact h
  | succ n ih =>
    have := ih (mergeOnce_inv h (by omega)) (by omega)
    rw [Nat.add_assoc, Nat.add_comm 1 n] at this
    exact this

/-- What holds after every number of merges (R133): FOREST is in KEY order, so the two taken are the two smallest. -/
theorem forest_inv (tie : TieMerged) (t : FreqTable) (k : Nat) (hk : k ≤ 255) :
    BuildInv tie t k (mergeTimes tie k (initForest tie t)) := by
  have := mergeTimes_inv k (init_inv tie t) (by omega)
  rwa [Nat.zero_add] at this

/-- Everything a built tree is (R133, R134, R135 items 1 to 3; R22). -/
theorem buildTree_spec (tie : TieMerged) (t : FreqTable) :
    (buildTree tie t).valid = true ∧ (buildTree tie t).root = 510 ∧ (buildTree tie t).nodes.length = 511 ∧
      (buildTree tie t).Ok ∧
      (∃ u, (buildTree tie t).tree = some u ∧ u.symbols.Perm allBytes) ∧
      nodeFreq (buildTree tie t).nodes 510 = (allBytes.map t.get).sum ∧
      (∀ s < 256, (buildTree tie t).nodes[s]? = some (.leaf (BitVec.ofNat 8 s) (t.get (BitVec.ofNat 8 s)))) ∧
      (∀ j, 256 ≤ j → j < 511 → ∃ low high,
        (buildTree tie t).nodes[j]? = some (.internal
          (nodeFreq (buildTree tie t).nodes low.toNat + nodeFreq (buildTree tie t).nodes high.toNat) low high) ∧
        low.toNat < j ∧ high.toNat < j) := by
  have h := forest_inv tie t 255 (Nat.le_refl _)
  rw [buildTree_eq]
  generalize mergeTimes tie 255 (initForest tie t) = f at h ⊢
  obtain ⟨nodes, forest⟩ := f
  obtain ⟨e, rfl⟩ : ∃ e, forest = [e] := List.length_eq_one_iff.1 h.forestLen
  have hslot : e.slot.toNat = 510 := by
    obtain ⟨e', he', h'⟩ := h.newest (by omega)
    rw [List.mem_singleton.1 he'] at h'; exact h'
  have hroot : e.slot = 510 := BitVec.eq_of_toNat_eq hslot
  obtain ⟨-, h2, -, u, hu⟩ := h.entry e (by simp)
  have hlen : nodes.length = 511 := h.nodesLen
  simp only [hslot] at h2 hu
  have hsym := h.symbols
  have hsl := h.slots
  have hsum := h.sum
  simp only [List.flatMap_cons, List.flatMap_nil, List.append_nil, entrySymbols, entrySlots, hslot, hu,
    Option.map_some, Option.getD_some] at hsym hsl
  simp only [List.map_cons, List.map_nil, List.sum_cons, List.sum_nil, add_zero] at hsum
  have htree : (finishedStore ⟨nodes, [e]⟩).tree = some u := by
    show subtree nodes nodes.length e.slot.toNat = some u
    rw [hlen, hslot]; exact hu
  refine ⟨rfl, hroot, hlen, ⟨by show nodes.length ≤ 511; omega, fun _ => ⟨u, htree, ?_⟩, fun h => by cases h⟩,
    ⟨u, htree, hsym⟩, by rw [← hsum, h2]; rfl, h.leaves, h.merged⟩
  show (slotsBelow nodes nodes.length e.slot.toNat).Nodup
  rw [hlen, hslot]
  exact hsl.nodup_iff.2 List.nodup_range

/-- A built tree has exactly 256 leaves, one for each symbol (R135 item 1). -/
theorem buildTree_leafCount {tie : TieMerged} {t : FreqTable} {u : Tree} (h : (buildTree tie t).tree = some u) :
    u.leafCount = 256 ∧ ∀ s, s ∈ u.symbols := by
  obtain ⟨-, -, -, -, ⟨u', h1, h2⟩, -⟩ := buildTree_spec tie t
  rw [h1] at h
  cases h
  refine ⟨by rw [← Tree.symbols_length, h2.length_eq]; simp [allBytes], fun s => ?_⟩
  rw [h2.mem_iff]
  exact List.mem_map.2 ⟨s.toNat, List.mem_range.2 s.isLt, by simp⟩

/-! ### FOREST, read from the node store -/

/-- FOREST after m merges depends only on the slots allocated by then. -/
theorem InForest.congr {x y : List Node} {m n : Nat} (h : ∀ j < 256 + m, x[j]? = y[j]?) (hi : InForest x m n) :
    InForest y m n := ⟨hi.1, fun j f low high hj hg => hi.2 j f low high hj ((h j hj).trans hg)⟩

/-- Merging only appends nodes (R133). -/
theorem mergeTimes_nodes (tie : TieMerged) (n : Nat) (f : Forest) : f.nodes <+: (mergeTimes tie n f).nodes := by
  induction n generalizing f with
  | zero => exact List.prefix_rfl
  | succ n ih =>
    rw [mergeTimes_succ]
    refine List.IsPrefix.trans ?_ (ih _)
    unfold mergeOnce
    split
    · exact List.prefix_append _ _
    · exact List.prefix_rfl

/-- m merges, then n more. -/
theorem mergeTimes_add (tie : TieMerged) (m n : Nat) (f : Forest) :
    mergeTimes tie (m + n) f = mergeTimes tie n (mergeTimes tie m f) := by
  induction m generalizing f with
  | zero => rw [Nat.zero_add]; rfl
  | succ m ih => rw [Nat.succ_add, mergeTimes_succ, ih, mergeTimes_succ]

/-- The two fields of an entry that KEY reads are those of its slot, so KEY of the entry is KEY of the slot (R131). -/
theorem keyLt_slotKey {tie : TieMerged} {t : FreqTable} {k : Nat} {f : Forest} (h : BuildInv tie t k f) {a b : ForestEntry}
    (ha : a ∈ f.forest) (hb : b ∈ f.forest) (hlt : a.keyLt tie b = true) :
    keyBefore (slotKey tie f.nodes a.slot.toNat) (slotKey tie f.nodes b.slot.toNat) := by
  have leafEq : ∀ e ∈ f.forest, isLeafSlot f.nodes e.slot.toNat = e.leaf := by
    intro e he
    obtain ⟨h1, -, h3, -⟩ := h.entry e he
    rw [h3]
    by_cases hs : e.slot.toNat < 256
    · simp only [isLeafSlot, h.leaves _ hs, hs, decide_true]
    · obtain ⟨low, high, hg, -⟩ := h.merged e.slot.toNat (by omega) (by rw [← h.nodesLen]; exact h1)
      simp only [isLeafSlot, hg, hs, decide_false]
  obtain ⟨-, a2, -, -⟩ := h.entry a ha
  obtain ⟨-, b2, -, -⟩ := h.entry b hb
  have la := leafEq a ha
  have lb := leafEq b hb
  rw [keyLt_iff, a2, b2] at hlt
  cases tie with
  | after => simpa [keyBefore, slotKey, ForestEntry.tieKey] using hlt
  | before =>
    simp only [keyBefore, slotKey, ForestEntry.tieKey, la, lb] at hlt ⊢
    cases ha' : a.leaf <;> cases hb' : b.leaf <;> simp [ha', hb'] at hlt ⊢ <;> exact hlt

/-- FOREST holds exactly the allocated slots that are no node's child (R133). -/
theorem forest_mem (tie : TieMerged) (t : FreqTable) (k : Nat) (hk : k ≤ 255) (n : Nat) :
    (∃ e ∈ (mergeTimes tie k (initForest tie t)).forest, e.slot.toNat = n) ↔
      InForest (mergeTimes tie k (initForest tie t)).nodes k n := by
  induction k generalizing n with
  | zero =>
    have h := init_inv tie t
    show (∃ e ∈ (initForest tie t).forest, e.slot.toNat = n) ↔ InForest (initForest tie t).nodes 0 n
    constructor
    · rintro ⟨e, he, rfl⟩
      obtain ⟨h1, -⟩ := h.entry e he
      rw [h.nodesLen] at h1
      refine ⟨h1, fun j f low high hj hg => ?_⟩
      rw [h.leaves j (by omega)] at hg; cases hg
    · rintro ⟨h1, -⟩
      refine ⟨⟨BitVec.ofNat 9 n, t.get (BitVec.ofNat 8 n), true⟩, ?_, ofNat9_toNat (by omega)⟩
      unfold initForest
      simp only
      rw [(sortByKey_perm tie (initEntries t)).mem_iff]
      unfold initEntries
      exact List.mem_map.2 ⟨n, List.mem_range.2 (by omega), rfl⟩
  | succ k ih =>
    have ih := ih (by omega)
    have h := forest_inv tie t k (by omega)
    have h' := forest_inv tie t (k + 1) hk
    rw [mergeTimes_add tie k 1] at h' ⊢
    generalize mergeTimes tie k (initForest tie t) = f at *
    have hnl := h.nodesLen
    have hfl := h.forestLen
    obtain ⟨nodes, forest⟩ := f
    simp only at hnl hfl
    obtain ⟨a, b, rest, rfl⟩ : ∃ a b rest, forest = a :: b :: rest := by
      match forest, hfl with
      | [], hfl => simp at hfl; omega
      | [_], hfl => simp at hfl; omega
      | a :: b :: rest, _ => exact ⟨a, b, rest, rfl⟩
    have irr : ∀ e : ForestEntry, ¬ e.keyLt tie e = true := fun e he => by rw [keyLt_iff] at he; omega
    have same : ∀ e ∈ a :: b :: rest, ∀ e' ∈ a :: b :: rest, e.slot.toNat = e'.slot.toNat → e = e' := by
      intro e he e' he' hs
      obtain ⟨-, e2, e3, -⟩ := h.entry e he
      obtain ⟨-, d2, d3, -⟩ := h.entry e' he'
      obtain ⟨s, q, l⟩ := e; obtain ⟨s', q', l'⟩ := e'
      simp only at hs e2 e3 d2 d3
      obtain rfl := BitVec.eq_of_toNat_eq hs
      rw [e2, e3, d2, d3]
    have hord := h.order
    simp only [InKeyOrder, List.pairwise_cons] at hord
    obtain ⟨oa, ob, -⟩ := hord
    have hx : ∀ x, (∃ e ∈ (mergeTimes tie 1 ⟨nodes, a :: b :: rest⟩).forest, e.slot.toNat = x) ↔
        x = nodes.length ∨ ∃ e ∈ rest, e.slot.toNat = x := by
      intro x
      have hp := insertAtPos_perm tie ⟨BitVec.ofNat 9 nodes.length, a.freq + b.freq, false⟩ rest
      have hm : ∀ e, e ∈ (mergeTimes tie 1 ⟨nodes, a :: b :: rest⟩).forest ↔
          e = ⟨BitVec.ofNat 9 nodes.length, a.freq + b.freq, false⟩ ∨ e ∈ rest := fun e => by
        rw [show e ∈ (mergeTimes tie 1 ⟨nodes, a :: b :: rest⟩).forest ↔ _ from hp.mem_iff, List.mem_cons]
      constructor
      · rintro ⟨e, he, rfl⟩
        rcases (hm e).1 he with rfl | he
        · exact .inl (ofNat9_toNat (by omega))
        · exact .inr ⟨e, he, rfl⟩
      · rintro (rfl | ⟨e, he, rfl⟩)
        · exact ⟨_, (hm _).2 (.inl rfl), ofNat9_toNat (by omega)⟩
        · exact ⟨e, (hm _).2 (.inr he), rfl⟩
    rw [hx]
    have hnodes : (mergeTimes tie 1 ⟨nodes, a :: b :: rest⟩).nodes =
        nodes ++ [.internal (a.freq + b.freq) a.slot b.slot] := rfl
    have hold : ∀ j < 256 + k, (nodes ++ [.internal (a.freq + b.freq) a.slot b.slot])[j]? = nodes[j]? :=
      fun j hj => List.getElem?_append_left (by omega)
    have hnew : (nodes ++ [.internal (a.freq + b.freq) a.slot b.slot])[256 + k]? =
        some (.internal (a.freq + b.freq) a.slot b.slot) := by rw [← hnl]; simp
    rw [hnodes]
    obtain ⟨ha1, -⟩ := h.entry a (by simp)
    obtain ⟨hb1, -⟩ := h.entry b (by simp)
    simp only at ha1 hb1
    constructor
    · rintro (rfl | ⟨e, he, rfl⟩)
      · refine ⟨by omega, fun j f low high hj hg => ?_⟩
        by_cases hj' : 256 ≤ j
        · obtain ⟨low', high', g1, g2, g3⟩ := h'.merged j hj' (by omega)
          rw [hnodes, hg] at g1
          cases g1
          omega
        · rw [hold j (by omega), h.leaves j (by omega)] at hg; cases hg
      · have he' : e ∈ a :: b :: rest := by simp [he]
        obtain ⟨i1, i2⟩ := (ih e.slot.toNat).1 ⟨e, he', rfl⟩
        refine ⟨by omega, fun j f low high hj hg => ?_⟩
        by_cases hj' : j < 256 + k
        · exact i2 j f low high hj' ((hold j hj').symm.trans hg)
        · obtain rfl : j = 256 + k := by omega
          rw [hnew] at hg; cases hg
          refine ⟨fun hs => ?_, fun hs => ?_⟩
          · have := same a (by simp) e he' hs; subst this
            exact irr _ (oa _ (by simp [he]))
          · have := same b (by simp) e he' hs; subst this
            exact irr _ (ob _ he)
    · rintro ⟨i1, i2⟩
      by_cases hn : n = nodes.length
      · exact .inl hn
      · have hin : InForest nodes k n := ⟨by omega, fun j f low high hj hg => i2 j f low high (by omega) ((hold j hj).trans hg)⟩
        obtain ⟨e, he, rfl⟩ := (ih n).2 hin
        have hc := i2 (256 + k) _ _ _ (by omega) hnew
        rcases List.mem_cons.1 he with rfl | he
        · exact absurd rfl hc.1
        · rcases List.mem_cons.1 he with rfl | he
          · exact absurd rfl hc.2
          · exact .inr ⟨e, he, rfl⟩

/-- The tree depends on the counters only (R135 item 6): TOTAL is not read. -/
theorem buildTree_freq (tie : TieMerged) {t t' : FreqTable} (h : t.freq = t'.freq) : buildTree tie t = buildTree tie t' := by
  have hg : ∀ q, t.get q = t'.get q := fun q => by simp only [FreqTable.get, h]
  have hf : initForest tie t = initForest tie t' := by simp only [initForest, initNodes, initEntries, hg]
  rw [buildTree_eq, buildTree_eq, hf]

/-- Leaf q is in slot q with frequency FREQ[q] (R130). -/
theorem buildTree_leaf (tie : TieMerged) (t : FreqTable) (q : Byte) :
    (buildTree tie t).nodes[q.toNat]? = some (.leaf q (t.get q)) := by
  obtain ⟨-, -, -, -, -, -, h, -⟩ := buildTree_spec tie t
  simpa using h q.toNat q.isLt

end Sys2Proof.Machine
end

