-- ==== Sys2Proof/Laws/Encoding.lean ====
section
/-! SUPPORT. The command word (30_encoding.md R70 to R74): its two fields, the rows of the opcode map, and what decoding
reads from a word put together from an opcode and an argument. -/

namespace Sys2Proof.Machine

theorem opField_append (op arg : Byte) : opField (op ++ arg) = op := by
  unfold opField; ext i hi
  rw [BitVec.getElem_extractLsb']
  exact (BitVec.getLsbD_append (x := op) (y := arg)).trans (by simp [hi])

theorem argField_append (op arg : Byte) : argField (op ++ arg) = arg := by
  unfold argField; ext i hi
  rw [BitVec.getElem_extractLsb']
  exact (BitVec.getLsbD_append (x := op) (y := arg)).trans (by simp [hi])

/-- Every word is its opcode field and its argument field (R70). -/
theorem word_eq_append (w : CmdWord) : w = opField w ++ argField w := by
  refine BitVec.eq_of_getLsbD_eq fun i hi => .trans ?_ (BitVec.getLsbD_append (x := opField w) (y := argField w)).symm
  simp only [opField, argField, BitVec.getLsbD_extractLsb']
  by_cases h : i < 8
  · simp [h]
  · have h2 : i - 8 < 8 := by omega
    have h3 : 8 + (i - 8) = i := by omega
    simp [h, h2, h3]

/-- What decoding reads from a word put together from its fields. -/
theorem decode_append (op arg : Byte) : decode (op ++ arg) =
    match opTable.find? (fun row => row.op == op) with
    | none => .error (.unassignedOpcode op)
    | some row =>
      if (arg &&& row.form.reserved) == 0 then .ok (row.make arg) else .error (.reservedBits op arg) := by
  unfold decode
  rw [opField_append, argField_append] <;> rfl

/-- Each row of the map names its opcode, its form and its operand consistently (R71, R72). -/
theorem opTable_row {row : OpRow} (h : row ∈ opTable) (arg : Byte) :
    opcodeOf (row.make arg) = row.op ∧ (row.make arg).form = row.form ∧
      ((arg &&& row.form.reserved) = 0 → (row.make arg).arg = arg) := by
  have bit (a : Byte) (h : a &&& 0xFE = 0) : (if a.getLsbD 0 then 1#8 else 0#8) = a := by
    revert h; revert a; decide
  have no (a : Byte) (h : a &&& 0xFF = 0) : (0 : Byte) = a := by revert h; revert a; decide
  simp only [opTable, List.cons_append, List.nil_append, List.mem_cons, List.not_mem_nil, or_false] at h
  rcases h with rfl | rfl | rfl | rfl | rfl | rfl | rfl | rfl | rfl | rfl | rfl | rfl | rfl | rfl | rfl | rfl | rfl | rfl |
    rfl | rfl | rfl | rfl
  all_goals first
    | exact ⟨rfl, rfl, fun h => no arg h⟩
    | exact ⟨rfl, rfl, fun _ => rfl⟩
    | exact ⟨rfl, rfl, fun h => bit arg h⟩

/-- A word that decodes does so through one row of the map. -/
theorem decode_ok {w : CmdWord} {i : Instr} (h : decode w = .ok i) :
    ∃ row ∈ opTable, row.op = opField w ∧ (argField w &&& row.form.reserved) = 0 ∧ i = row.make (argField w) := by
  unfold decode at h
  split at h
  · cases h
  · rename_i row hrow
    split at h
    · rename_i hres
      cases h
      exact ⟨row, List.mem_of_find?_eq_some hrow, by simpa using List.find?_some hrow, by simpa using hres, rfl⟩
    · cases h

/-- The opcode and the argument of the command a word decodes to are the word's fields. -/
theorem decode_fields {w : CmdWord} {i : Instr} (h : decode w = .ok i) : opcodeOf i = opField w ∧ i.arg = argField w := by
  obtain ⟨row, hm, hop, hres, rfl⟩ := decode_ok h
  obtain ⟨h1, -, h3⟩ := opTable_row hm (argField w)
  exact ⟨h1.trans hop, h3 hres⟩

/-- Whether a word decodes depends on its opcode's reserved mask (R73). -/
theorem reservedMask_find (op : Byte) :
    reservedMask op = (opTable.find? (fun row => row.op == op)).map fun row => row.form.reserved := by
  revert op; decide

theorem decode_error_iff (w : CmdWord) : IllegalWord w ↔ ∃ e, decode w = .error e := by
  have hm := reservedMask_find (opField w)
  unfold IllegalWord decode
  change reservedMask (opField w) = none ∨ (∃ m, reservedMask (opField w) = some m ∧ argField w &&& m ≠ 0) ↔ _
  rw [hm]
  cases hf : opTable.find? (fun row => row.op == opField w) with
  | none => simp
  | some row =>
    simp only [Option.map_some, reduceCtorEq, Option.some.injEq, exists_eq_left', false_or]
    by_cases hr : argField w &&& row.form.reserved = 0#8 <;> simp [hr]

/-- Every instruction is well formed: its operand's type leaves no reserved bit to set. -/
theorem instr_wellFormed (i : Instr) : i.wellFormed = true := by
  cases i
  case bwPutbit b => cases b <;> rfl
  all_goals simp [Instr.wellFormed, Instr.arg, Instr.form, Form.reserved]

/-- A row whose operand is a whole byte takes every argument (R72). -/
theorem takesByte_of_row {op : Byte} {make : Byte → Instr}
    (h : ∃ m, opTable.find? (fun row => row.op == op) = some ⟨op, m, .byteOrSym, make⟩) : TakesByte op make := by
  obtain ⟨m, h⟩ := h
  intro v
  rw [decode_append, h]
  simp [Form.reserved]

end Sys2Proof.Machine
end

