-- ==== Sys2Proof/Laws/Frames.lean ====
section
/-! SUPPORT. What no command touches and what a command may touch: the frame of every procedure, whether it ends or
raises, and from it one lemma that says everything exec can answer (60_exceptions.md R224 to R230, 10_state.md R34 to R39). -/

namespace Sys2Proof.Machine

/-- What holds of every way a procedure can end. -/
def Run.Post {σ α : Type} (r : Run σ α) (D : α → σ → Prop) (E : ErrorKind → σ → Prop) : Prop :=
  match r with
  | .done a s => D a s
  | .raised e s => E e s
  | .stuck _ => True

theorem Run.Post.bind {σ α β : Type} {r : Run σ α} {f : α → σ → Run σ β} {D : α → σ → Prop} {D' : β → σ → Prop}
    {E : ErrorKind → σ → Prop} (h : r.Post D E) (hf : ∀ a s, D a s → (f a s).Post D' E) : (r.bind f).Post D' E := by
  cases r with
  | done a s => exact hf a s h
  | raised e s => exact h
  | stuck k => trivial

theorem Run.Post.lift {σ τ α : Type} {r : Run σ α} {f : σ → τ} {D : α → τ → Prop} {E : ErrorKind → τ → Prop}
    (h : r.Post (fun a s => D a (f s)) (fun e s => E e (f s))) : (r.lift f).Post D E := by
  cases r <;> exact h

theorem Run.Post.mono {σ α : Type} {r : Run σ α} {D D' : α → σ → Prop} {E E' : ErrorKind → σ → Prop} (h : r.Post D E)
    (hd : ∀ a s, D a s → D' a s) (he : ∀ e s, E e s → E' e s) : r.Post D' E' := by
  cases r with
  | done a s => exact hd a s h
  | raised e s => exact he e s h
  | stuck k => trivial

/-- The reader moves forward in an input that stays (R39). -/
structure BitReader.Forward (r r' : BitReader) : Prop where
  input : r'.input = r.input
  ipos : r.ipos ≤ r'.ipos
  within : r.ipos ≤ r.input.length → r'.ipos ≤ r'.input.length

theorem BitReader.Forward.refl (r : BitReader) : r.Forward r := ⟨rfl, Nat.le_refl _, id⟩

theorem BitReader.Forward.trans {a b c : BitReader} (h : a.Forward b) (g : b.Forward c) : a.Forward c :=
  ⟨g.input.trans h.input, Nat.le_trans h.ipos g.ipos, fun hl => g.within (h.within hl)⟩

/-- A reading procedure moves forward and can only raise WRONG_INPUT. -/
abbrev ReadsForward {α : Type} (r : BitReader) (x : Run BitReader α) : Prop :=
  x.Post (fun _ r' => r.Forward r') (fun e r' => e = .wrongInput ∧ r.Forward r')

theorem srcRead_forward (r : BitReader) : ReadsForward r (srcRead r) := by
  unfold srcRead ReadsForward
  split
  · rename_i b hb
    have hlt := (List.getElem?_eq_some_iff.1 hb).1
    exact ⟨rfl, by simp, fun _ => hlt⟩
  · exact ⟨rfl, .refl r⟩

theorem getBit_forward (r : BitReader) : ReadsForward r (getBit r) := by
  unfold getBit
  split
  · refine (srcRead_forward r).bind fun b r' h => ?_
    exact ⟨h.input, h.ipos, h.within⟩
  · exact ⟨rfl, Nat.le_refl _, id⟩

theorem getByteLoop_forward (n : Nat) (v : Byte) (r : BitReader) : ReadsForward r (getByteLoop n v r) := by
  induction n generalizing v r with
  | zero => exact .refl r
  | succ n ih =>
    exact (getBit_forward r).bind fun b r' h => (ih _ r').mono (fun _ _ g => h.trans g) fun _ _ g => ⟨g.1, h.trans g.2⟩

theorem getByte_forward (r : BitReader) : ReadsForward r (getByte r) := getByteLoop_forward 8 0 r

theorem getCount_forward (r : BitReader) : ReadsForward r (getCount r) := by
  have next (r' : BitReader) (h : r.Forward r') :
      (getByte r').Post (fun _ r' => r.Forward r') (fun e r' => e = .wrongInput ∧ r.Forward r') :=
    (getByte_forward r').mono (fun _ _ g => h.trans g) fun _ _ g => ⟨g.1, h.trans g.2⟩
  exact (next r (.refl r)).bind fun _ r1 h1 => (next r1 h1).bind fun _ r2 h2 => (next r2 h2).bind fun _ r3 h3 =>
    (next r3 h3).bind fun _ r4 h4 => h4

theorem descend_forward (t : Tree) (r : BitReader) : ReadsForward r (descend t r) := by
  induction t generalizing r with
  | leaf s => exact .refl r
  | node l u ihl ihu =>
    refine (getBit_forward r).bind fun b r' h => ?_
    cases b
    · exact (ihl r').mono (fun _ _ g => h.trans g) fun _ _ g => ⟨g.1, h.trans g.2⟩
    · exact (ihu r').mono (fun _ _ g => h.trans g) fun _ _ g => ⟨g.1, h.trans g.2⟩

theorem deserialize_forward (f : Nat) (b : Rebuild) :
    (deserialize f b).Post (fun _ b' => b.reader.Forward b'.reader)
      (fun e b' => e = .wrongInput ∧ b.reader.Forward b'.reader) := by
  induction f generalizing b with
  | zero => exact ⟨rfl, .refl _⟩
  | succ f ih =>
    have alloc_post (n : Node) (c : Rebuild) (h : b.reader.Forward c.reader) :
        (alloc n c).Post (fun _ b' => b.reader.Forward b'.reader)
          (fun e b' => e = .wrongInput ∧ b.reader.Forward b'.reader) := by
      unfold alloc; split
      · exact ⟨rfl, h⟩
      · exact h
    have sub (c : Rebuild) (h : b.reader.Forward c.reader) :
        (deserialize f c).Post (fun _ b' => b.reader.Forward b'.reader)
          (fun e b' => e = .wrongInput ∧ b.reader.Forward b'.reader) :=
      (ih c).mono (fun _ _ g => h.trans g) fun _ _ g => ⟨g.1, h.trans g.2⟩
    have got (c : Rebuild) (h : b.reader.Forward c.reader) :
        c.getByte.Post (fun _ b' => b.reader.Forward b'.reader)
          (fun e b' => e = .wrongInput ∧ b.reader.Forward b'.reader) :=
      .lift ((getByte_forward c.reader).mono (fun _ _ g => h.trans g) fun _ _ g => ⟨g.1, h.trans g.2⟩)
    have first : b.getBit.Post (fun _ b' => b.reader.Forward b'.reader)
        (fun e b' => e = .wrongInput ∧ b.reader.Forward b'.reader) := .lift (getBit_forward b.reader)
    rw [deserialize]
    refine first.bind fun bit c h => ?_
    split
    · refine (alloc_post _ c h).bind fun n d h => ?_
      refine (got d h).bind fun sym e h => ?_
      exact h
    · refine (alloc_post _ c h).bind fun n d h => ?_
      refine (sub d h).bind fun low e h => ?_
      refine (sub (setNode n _ e) h).bind fun high g h => ?_
      exact h

/-! ### The state -/

/-- What a command's own pseudocode leaves alone before it writes RESULT (R34 to R39). -/
structure Frame (s t : State) : Prop where
  status : t.status = s.status
  errOp : t.errOp = s.errOp
  result : t.result = s.result
  tieMerged : t.tieMerged = s.tieMerged
  hostQueue : t.hostQueue = s.hostQueue
  answers : t.answers = s.answers
  out : s.writer.out <+: t.writer.out
  reader : s.reader.Forward t.reader

theorem Frame.refl (s : State) : Frame s s := ⟨rfl, rfl, rfl, rfl, rfl, rfl, List.prefix_rfl, .refl _⟩

theorem Frame.trans {a b c : State} (h : Frame a b) (g : Frame b c) : Frame a c :=
  ⟨g.status.trans h.status, g.errOp.trans h.errOp, g.result.trans h.result, g.tieMerged.trans h.tieMerged,
    g.hostQueue.trans h.hostQueue, g.answers.trans h.answers, h.out.trans g.out, h.reader.trans g.reader⟩

/-- A procedure on the state that keeps the frame and can only raise errors of some kinds. -/
abbrev Framed {α : Type} (K : ErrorKind → Prop) (s : State) (x : Run State α) : Prop :=
  x.Post (fun _ t => Frame s t) (fun e t => K e ∧ Frame s t)

theorem Framed.after {α : Type} {K : ErrorKind → Prop} {s t : State} {x : Run State α} (h : Framed K t x)
    (g : Frame s t) : Framed K s x := h.mono (fun _ _ k => g.trans k) fun _ _ k => ⟨k.1, g.trans k.2⟩

theorem Framed.bind {α β : Type} {K : ErrorKind → Prop} {s : State} {x : Run State α} {f : α → State → Run State β}
    (h : Framed K s x) (hf : ∀ a t, Framed K t (f a t)) : Framed K s (x.bind f) :=
  Run.Post.bind h fun a t g => (hf a t).after g

/-- A reading procedure, seen on the state. -/
theorem ReadsForward.framed {α : Type} {s : State} {x : Run BitReader α} (h : ReadsForward s.reader x) :
    Framed (· = .wrongInput) s (x.lift fun r => { s with reader := r }) :=
  .lift (h.mono (fun _ _ g => ⟨rfl, rfl, rfl, rfl, rfl, rfl, List.prefix_rfl, g⟩)
    fun _ _ g => ⟨g.1, rfl, rfl, rfl, rfl, rfl, rfl, List.prefix_rfl, g.2⟩)

theorem Framed.kinds {α : Type} {K L : ErrorKind → Prop} {s : State} {x : Run State α} (h : Framed K s x)
    (hk : ∀ e, K e → L e) : Framed L s x := h.mono (fun _ _ g => g) fun e _ g => ⟨hk e g.1, g.2⟩

/-- A write to the sink through the writer. -/
theorem Frame.writer {s : State} {w : BitWriter} (h : s.writer.out <+: w.out) : Frame s { s with writer := w } :=
  ⟨rfl, rfl, rfl, rfl, rfl, rfl, h, .refl _⟩

theorem release_frame (s : State) : Frame s (release s) :=
  ⟨rfl, rfl, rfl, rfl, rfl, rfl, List.prefix_rfl, ⟨rfl, Nat.le_refl _, id⟩⟩

theorem releaseTree_frame (s : State) : Frame s (releaseTree s) :=
  ⟨rfl, rfl, rfl, rfl, rfl, rfl, List.prefix_rfl, ⟨rfl, Nat.le_refl _, id⟩⟩

theorem putBit_out_prefix (b : Bool) (w : BitWriter) : w.out <+: (putBit b w).out := by
  unfold putBit; split
  · exact List.prefix_append _ _
  · exact List.prefix_rfl

theorem putBits_out_prefix (bs : List Bool) (w : BitWriter) : w.out <+: (putBits bs w).out := by
  induction bs generalizing w with
  | nil => exact List.prefix_rfl
  | cons b bs ih => exact (putBit_out_prefix b w).trans (ih _)

theorem putBytes_out_prefix (vs : List Byte) (w : BitWriter) : w.out <+: (putBytes vs w).out := by
  induction vs generalizing w with
  | nil => exact List.prefix_rfl
  | cons v vs ih => exact (putBits_out_prefix _ w).trans (ih _)

theorem flush_out_prefix (w : BitWriter) : w.out <+: (flush w).out := by
  unfold flush; split
  · exact List.prefix_rfl
  · exact List.prefix_append _ _

theorem serialize_out_prefix (t : Tree) (w : BitWriter) : w.out <+: (serialize t w).out := by
  induction t generalizing w with
  | leaf s => exact (putBit_out_prefix _ w).trans (putBits_out_prefix _ _)
  | node l r ihl ihr => exact ((putBit_out_prefix _ w).trans (ihl _)).trans (ihr _)

theorem ftCount_framed (sym : Byte) (s : State) :
    Framed (· = .outOfMemory) s ((ftCount sym s.ft).lift fun t => { s with ft := t }) := by
  unfold ftCount; split
  · exact ⟨rfl, .refl _⟩
  · exact ⟨rfl, rfl, rfl, rfl, rfl, rfl, List.prefix_rfl, .refl _⟩

theorem readCount_framed (s : State) : Framed (· = .wrongInput) s (readCount s) := by
  refine Framed.bind (getCount_forward s.reader).framed fun v t => ?_
  split
  · exact ⟨rfl, .refl _⟩
  · exact ⟨rfl, rfl, rfl, rfl, rfl, rfl, List.prefix_rfl, .refl _⟩

theorem readTree_framed (s : State) : Framed (· = .wrongInput) s (readTree s) := by
  unfold readTree
  refine Framed.bind (Run.Post.lift ?_) fun root t => ?_
  · refine (deserialize_forward (Config.nodeCap + 1) ⟨s.reader, []⟩).mono (fun _ b h => ?_) fun e b h => ⟨h.1, ?_⟩
    · exact ⟨rfl, rfl, rfl, rfl, rfl, rfl, List.prefix_rfl, h⟩
    · exact ⟨rfl, rfl, rfl, rfl, rfl, rfl, List.prefix_rfl, h.2⟩
  · exact ⟨rfl, rfl, rfl, rfl, rfl, rfl, List.prefix_rfl, ⟨rfl, Nat.le_refl _, id⟩⟩

theorem withTree_framed {K : ErrorKind → Prop} {s : State} {body : Tree → Run State Unit}
    (h : ∀ t, Framed K s (body t)) : Framed K s (withTree s body) := by
  unfold withTree; split
  · exact h _
  · trivial

theorem countPass_framed (n : Nat) (s : State) : Framed (fun e => e = .wrongInput ∨ e = .outOfMemory) s (countPass n s) := by
  induction n generalizing s with
  | zero => exact .refl s
  | succ n ih =>
    rw [countPass]; split
    · exact Framed.bind ((srcRead_forward s.reader).framed.kinds fun _ h => .inl h) fun sym t =>
        Framed.bind ((ftCount_framed sym t).kinds fun _ h => .inr h) fun _ u => ih u
    · exact .refl s

/-- While bytes are there to read, counting them can only raise OUT_OF_MEMORY (R190). -/
theorem countPass_kinds (n : Nat) (s : State) : (countPass n s).Post (fun _ _ => True) (fun e _ => e = .outOfMemory) := by
  induction n generalizing s with
  | zero => trivial
  | succ n ih =>
    rw [countPass]; split
    · rename_i h
      have hlt : s.reader.ipos < s.reader.input.length := by simpa [srcAvail] using h
      simp only [srcRead, List.getElem?_eq_getElem hlt, Run.lift_done, Run.bind_done]
      unfold ftCount; split
      · rfl
      · exact ih _
    · trivial

theorem encodePass_framed (n : Nat) (s : State) : Framed (fun _ => False) s (encodePass n s) := by
  induction n generalizing s with
  | zero => exact .refl s
  | succ n ih =>
    rw [encodePass]; split
    · rename_i h
      have hlt : s.reader.ipos < s.reader.input.length := by simpa [srcAvail] using h
      have hf := srcRead_forward s.reader
      simp only [srcRead, List.getElem?_eq_getElem hlt, Run.lift_done, Run.bind_done] at hf ⊢
      refine (ih _).after ?_
      exact ⟨rfl, rfl, rfl, rfl, rfl, rfl, putBits_out_prefix _ _, hf⟩
    · exact .refl s

theorem decodePass_framed (t : Tree) (n : Nat) (s : State) : Framed (· = .wrongInput) s (decodePass t n s) := by
  induction n generalizing s with
  | zero => exact .refl s
  | succ n ih =>
    exact Framed.bind (descend_forward t s.reader).framed fun sym u =>
      (ih _).after (.writer (List.prefix_append _ _))

/-! ### Every command -/

/-- The commands that write RESULT (R36). -/
def writesResult : Instr → Bool
  | .brGetbit | .brGetbyte | .ftRead _ | .ctReadlen _ | .hdDecode | .hdrRead => true
  | _ => false

/-- The commands that replace or clear the tree (R254), RESET aside. -/
def replacesTree : Instr → Bool
  | .tbBuild | .tdDeserialize | .compress | .decompress => true
  | _ => false

/-- The error kinds a command's own pseudocode can raise (R221). -/
def mayRaise (i : Instr) (e : ErrorKind) : Prop :=
  match i with
  | .brGetbit | .brGetbyte | .tdDeserialize | .hdDecode | .hdrRead | .decompress | .heEncode _ => e = .wrongInput
  | .ftCount _ | .compress => e = .outOfMemory
  | _ => False

/-- What a command's own pseudocode leaves when it ends normally. -/
structure Ended (i : Instr) (s t : State) : Prop where
  frame : Frame s { t with result := s.result }
  result : writesResult i = false → t.result = s.result
  codes : replacesTree i = true → t.ct.valid = false
  tree : replacesTree i = false → t.store = s.store ∧ (t.ct = s.ct ∨ t.ct.valid = true)

theorem Run.Post.true {σ α : Type} {r : Run σ α} {D : α → σ → Prop} {E : ErrorKind → σ → Prop}
    (hd : ∀ a s, D a s) (he : ∀ e s, E e s) : r.Post D E := by
  cases r with
  | done a s => exact hd a s
  | raised e s => exact he e s
  | stuck k => trivial

theorem readTree_ct (s : State) : (readTree s).Post (fun _ t => t.ct.valid = false) (fun _ _ => True) := by
  unfold readTree
  refine Run.Post.bind (D := fun _ t => t.ct.valid = false) (.lift (.true (fun _ _ => rfl) fun _ _ => trivial))
    fun _ _ h => ?_
  exact h

theorem Run.Post.and {σ α : Type} {r : Run σ α} {D D' : α → σ → Prop} {E E' : ErrorKind → σ → Prop} (h : r.Post D E)
    (g : r.Post D' E') : r.Post (fun a s => D a s ∧ D' a s) (fun e s => E e s ∧ E' e s) := by
  cases r with
  | done a s => exact ⟨h, g⟩
  | raised e s => exact ⟨h, g⟩
  | stuck k => trivial

/-- What the pseudocode of COMPRESS can do, at large (R190). -/
theorem compress_framed (s : State) :
    ((fun s : State =>
      let s := release s
      (countPass (unreadCount s.reader) s).bind fun _ s1 =>
        if s1.ft.total = 0 then compressEmpty s1 else compressCounted s.reader.ipos s1) s).Post
      (fun _ t => Frame s t ∧ t.ct.valid = false) (fun e t => e = .outOfMemory ∧ Frame s t) := by
  have hp := (countPass_framed (unreadCount (release s).reader) (release s)).and
    (countPass_kinds (unreadCount (release s).reader) (release s))
  refine Run.Post.bind (D := fun _ t => Frame s t)
    (hp.mono (fun _ _ g => (release_frame s).trans g.1) fun _ _ g => ⟨g.2, (release_frame s).trans g.1.2⟩) fun _ u h => ?_
  split
  · exact ⟨h.trans (.trans (.writer (putBytes_out_prefix _ _)) (releaseTree_frame _)), rfl⟩
  · unfold compressCounted withTree
    dsimp only
    split
    · rename_i t _
      refine Run.Post.bind (D := fun _ v => Frame s v) ?_ fun _ v h => ?_
      · refine (encodePass_framed _ _).mono (fun _ v g => Frame.trans ?_ g) fun _ _ g => g.1.elim
        have hw : u.writer.out <+: (flush (serialize t (putBytes (countBytes u.ft.total) u.writer))).out :=
          ((putBytes_out_prefix _ _).trans (serialize_out_prefix _ _)).trans (flush_out_prefix _)
        have hs := (release_frame s)
        refine ⟨h.status, h.errOp, h.result, h.tieMerged, h.hostQueue, h.answers, h.out.trans hw,
          ⟨h.reader.input, Nat.le_refl _, fun hl => ?_⟩⟩
        show s.reader.ipos ≤ u.reader.input.length
        rw [h.reader.input]; exact hl
      · exact ⟨h.trans (.trans (.writer (flush_out_prefix _)) (releaseTree_frame _)), rfl⟩
    · trivial

/-- What the pseudocode of DECOMPRESS can do, at large (R191). -/
theorem decompress_framed (s : State) :
    ((fun s : State =>
      (readCount (release s)).bind fun v s =>
        if v = 0 then .done () (releaseTree s)
        else
          (readTree s).bind fun _ s =>
            withTree s fun t =>
              (decodePass t v.toNat s).bind fun _ s => .done () (releaseTree s)) s).Post
      (fun _ t => Frame s t ∧ t.ct.valid = false) (fun e t => e = .wrongInput ∧ Frame s t) := by
  have after {α : Type} {u : State} {x : Run State α} (h : Frame s u) (g : Framed (· = .wrongInput) u x) :
      x.Post (fun _ t => Frame s t) (fun e t => e = .wrongInput ∧ Frame s t) := g.after h
  refine Run.Post.bind (after (release_frame s) (readCount_framed _)) fun v u h => ?_
  split
  · exact ⟨h.trans (releaseTree_frame _), rfl⟩
  · refine Run.Post.bind (after h (readTree_framed _)) fun _ w h => ?_
    unfold withTree; split
    · refine Run.Post.bind (after h (decodePass_framed _ _ _)) fun _ x h => ?_
      exact ⟨h.trans (releaseTree_frame _), rfl⟩
    · trivial

/-- The acceptance and the pseudocode of a command, with what the pseudocode can leave. -/
def BodyFramed (i : Instr) (s : State) : Prop :=
  ∃ (pre : State → Bool) (body : State → Run State Unit), exec i s = accept (opcodeOf i) pre body s ∧
    (pre s = true ↔ precondition (opcodeOf i) s) ∧
    (body s).Post (fun _ t => Ended i s t) (fun e t => mayRaise i e ∧ Frame s t)

section Bodies
variable {i : Instr} {s t : State}

theorem Ended.same (h : Frame s t) (hr : replacesTree i = false) (hs : t.store = s.store)
    (hc : t.ct = s.ct ∨ t.ct.valid = true) : Ended i s t :=
  ⟨⟨h.status, h.errOp, rfl, h.tieMerged, h.hostQueue, h.answers, h.out, h.reader⟩, fun _ => h.result,
    fun k => (by rw [hr] at k; cases k), fun _ => ⟨hs, hc⟩⟩

theorem Ended.replaced (h : Frame s t) (hr : replacesTree i = true) (hc : t.ct.valid = false) : Ended i s t :=
  ⟨⟨h.status, h.errOp, rfl, h.tieMerged, h.hostQueue, h.answers, h.out, h.reader⟩, fun _ => h.result,
    fun _ => hc, fun k => (by rw [hr] at k; cases k)⟩

theorem Ended.answered (h : Frame s { t with result := s.result }) (hj : writesResult i = true)
    (hr : replacesTree i = false) (hs : t.store = s.store) (hc : t.ct = s.ct) : Ended i s t :=
  ⟨h, fun k => (by rw [hj] at k; cases k), fun k => (by rw [hr] at k; cases k), fun _ => ⟨hs, .inl hc⟩⟩

theorem answers_from_reader {α : Type} {x : Run BitReader α} (g : α → State → State) (hx : ReadsForward s.reader x)
    (hg : ∀ a u, u.store = s.store → u.ct = s.ct → Frame s u →
      Frame s { g a u with result := s.result } ∧ (g a u).store = s.store ∧ (g a u).ct = s.ct)
    (hj : writesResult i = true) (hr : replacesTree i = false) (hm : mayRaise i .wrongInput) :
    ((x.lift fun r => { s with reader := r }).bind fun a u => (Run.done () (g a u) : Run State Unit)).Post
      (fun _ t => Ended i s t) (fun e t => mayRaise i e ∧ Frame s t) := by
  refine Run.Post.bind (D := fun _ u => u.store = s.store ∧ u.ct = s.ct ∧ Frame s u) (.lift ?_) fun a u h => ?_
  · refine hx.mono (fun _ r k => ⟨rfl, rfl, ⟨rfl, rfl, rfl, rfl, rfl, rfl, List.prefix_rfl, k⟩⟩) fun e r k => ?_
    exact ⟨k.1 ▸ hm, ⟨rfl, rfl, rfl, rfl, rfl, rfl, List.prefix_rfl, k.2⟩⟩
  · obtain ⟨h1, h2, h3⟩ := hg a u h.1 h.2.1 h.2.2
    exact Ended.answered h1 hj hr h2 h3

theorem nop_bodyFramed : BodyFramed .nop s := by
  unfold BodyFramed; dsimp only [exec, execNop]
  refine ⟨_, _, rfl, by simp [State.always, precondition, opcodeOf], ?_⟩
  exact Ended.same (.refl s) rfl rfl (.inl rfl)

theorem bwPutbit_bodyFramed (b : Bool) : BodyFramed (.bwPutbit b) s := by
  unfold BodyFramed; dsimp only [exec, execBwPutbit]
  refine ⟨_, _, rfl, by simp [State.always, precondition, opcodeOf], ?_⟩
  exact Ended.same (.writer (putBit_out_prefix _ _)) rfl rfl (.inl rfl)

theorem bwPutbyte_bodyFramed (v : Byte) : BodyFramed (.bwPutbyte v) s := by
  unfold BodyFramed; dsimp only [exec, execBwPutbyte]
  refine ⟨_, _, rfl, by simp [State.always, precondition, opcodeOf], ?_⟩
  exact Ended.same (.writer (putBits_out_prefix _ _)) rfl rfl (.inl rfl)

theorem bwFlush_bodyFramed : BodyFramed .bwFlush s := by
  unfold BodyFramed; dsimp only [exec, execBwFlush]
  refine ⟨_, _, rfl, by simp [State.always, precondition, opcodeOf], ?_⟩
  exact Ended.same (.writer (flush_out_prefix _)) rfl rfl (.inl rfl)

theorem brGetbit_bodyFramed : BodyFramed .brGetbit s := by
  unfold BodyFramed; dsimp only [exec, execBrGetbit]
  refine ⟨_, _, rfl, by simp [State.always, precondition, opcodeOf], ?_⟩
  exact answers_from_reader (fun b u => { u with result := bitWord b }) (getBit_forward s.reader)
      (fun a u h1 h2 h => ⟨⟨h.status, h.errOp, rfl, h.tieMerged, h.hostQueue, h.answers, h.out, h.reader⟩, h1, h2⟩)
      rfl rfl rfl

theorem brGetbyte_bodyFramed : BodyFramed .brGetbyte s := by
  unfold BodyFramed; dsimp only [exec, execBrGetbyte]
  refine ⟨_, _, rfl, by simp [State.always, precondition, opcodeOf], ?_⟩
  exact answers_from_reader (fun b u => { u with result := byteWord b }) (getByte_forward s.reader)
      (fun a u h1 h2 h => ⟨⟨h.status, h.errOp, rfl, h.tieMerged, h.hostQueue, h.answers, h.out, h.reader⟩, h1, h2⟩)
      rfl rfl rfl

theorem brAlign_bodyFramed : BodyFramed .brAlign s := by
  unfold BodyFramed; dsimp only [exec, execBrAlign]
  refine ⟨_, _, rfl, by simp [State.always, precondition, opcodeOf], ?_⟩
  exact Ended.same ⟨rfl, rfl, rfl, rfl, rfl, rfl, List.prefix_rfl, ⟨rfl, Nat.le_refl _, id⟩⟩ rfl rfl (.inl rfl)

theorem ftClear_bodyFramed : BodyFramed .ftClear s := by
  unfold BodyFramed; dsimp only [exec, execFtClear]
  refine ⟨_, _, rfl, by simp [State.always, precondition, opcodeOf], ?_⟩
  exact Ended.same ⟨rfl, rfl, rfl, rfl, rfl, rfl, List.prefix_rfl, .refl _⟩ rfl rfl (.inl rfl)

theorem ftCount_bodyFramed (sym : Byte) : BodyFramed (.ftCount sym) s := by
  unfold BodyFramed; dsimp only [exec, execFtCount]
  refine ⟨_, _, rfl, by simp [State.always, precondition, opcodeOf], ?_⟩
  unfold ftCount
  split
  · exact ⟨rfl, .refl s⟩
  · exact Ended.same ⟨rfl, rfl, rfl, rfl, rfl, rfl, List.prefix_rfl, .refl _⟩ rfl rfl (.inl rfl)

theorem ftRead_bodyFramed (sym : Byte) : BodyFramed (.ftRead sym) s := by
  unfold BodyFramed; dsimp only [exec, execFtRead]
  refine ⟨_, _, rfl, by simp [State.always, precondition, opcodeOf], ?_⟩
  exact Ended.answered ⟨rfl, rfl, rfl, rfl, rfl, rfl, List.prefix_rfl, .refl _⟩ rfl rfl rfl rfl

theorem tbBuild_bodyFramed : BodyFramed .tbBuild s := by
  unfold BodyFramed; dsimp only [exec, execTbBuild]
  refine ⟨_, _, rfl, by simp [State.always, precondition, opcodeOf], ?_⟩
  exact Ended.replaced ⟨rfl, rfl, rfl, rfl, rfl, rfl, List.prefix_rfl, .refl _⟩ rfl rfl

theorem tsSerialize_bodyFramed : BodyFramed .tsSerialize s := by
  unfold BodyFramed; dsimp only [exec, execTsSerialize]
  refine ⟨_, _, rfl, by simp [State.treeReady, precondition, opcodeOf], ?_⟩
  unfold withTree
  split
  · exact Ended.same (.writer ((serialize_out_prefix _ _).trans (flush_out_prefix _))) rfl rfl (.inl rfl)
  · trivial

theorem tdDeserialize_bodyFramed : BodyFramed .tdDeserialize s := by
  unfold BodyFramed; dsimp only [exec, execTdDeserialize]
  refine ⟨_, _, rfl, by simp [State.always, precondition, opcodeOf], ?_⟩
  exact ((readTree_framed s).and (readTree_ct s)).mono (fun _ _ g => Ended.replaced g.1 rfl g.2) fun _ _ g => g.1

theorem ctGenerate_bodyFramed : BodyFramed .ctGenerate s := by
  unfold BodyFramed; dsimp only [exec, execCtGenerate]
  refine ⟨_, _, rfl, by simp [State.treeReady, precondition, opcodeOf], ?_⟩
  unfold withTree
  split
  · exact Ended.same ⟨rfl, rfl, rfl, rfl, rfl, rfl, List.prefix_rfl, .refl _⟩ rfl rfl (.inr rfl)
  · trivial

theorem ctReadlen_bodyFramed (sym : Byte) : BodyFramed (.ctReadlen sym) s := by
  unfold BodyFramed; dsimp only [exec, execCtReadlen]
  refine ⟨_, _, rfl, by simp [State.always, precondition, opcodeOf], ?_⟩
  exact Ended.answered ⟨rfl, rfl, rfl, rfl, rfl, rfl, List.prefix_rfl, .refl _⟩ rfl rfl rfl rfl

theorem heEncode_bodyFramed (sym : Byte) : BodyFramed (.heEncode sym) s := by
  unfold BodyFramed; dsimp only [exec, execHeEncode]
  refine ⟨_, _, rfl, by simp [State.codesReady, precondition, opcodeOf], ?_⟩
  split
  · exact Ended.same (.writer (putBits_out_prefix _ _)) rfl rfl (.inl rfl)
  · exact ⟨rfl, .refl s⟩

theorem hdDecode_bodyFramed : BodyFramed .hdDecode s := by
  unfold BodyFramed; dsimp only [exec, execHdDecode]
  refine ⟨_, _, rfl, by simp [State.treeReady, precondition, opcodeOf], ?_⟩
  unfold withTree
  split
  · exact answers_from_reader (fun b u => { u with writer := sinkWrite b u.writer, result := byteWord b }) (descend_forward _ s.reader)
      (fun a u h1 h2 h => ⟨⟨h.status, h.errOp, rfl, h.tieMerged, h.hostQueue, h.answers,
        h.out.trans (List.prefix_append _ _), h.reader⟩, h1, h2⟩) rfl rfl rfl
  · trivial

theorem hdrWrite_bodyFramed : BodyFramed .hdrWrite s := by
  unfold BodyFramed; dsimp only [exec, execHdrWrite]
  refine ⟨_, _, rfl, by simp [State.always, precondition, opcodeOf], ?_⟩
  exact Ended.same (.writer (putBytes_out_prefix _ _)) rfl rfl (.inl rfl)

theorem hdrRead_bodyFramed : BodyFramed .hdrRead s := by
  unfold BodyFramed; dsimp only [exec, execHdrRead]
  refine ⟨_, _, rfl, by simp [State.always, precondition, opcodeOf], ?_⟩
  refine Run.Post.bind (D := fun _ u => Frame s u ∧ u.store = s.store ∧ u.ct = s.ct)
    (Run.Post.mono ((readCount_framed s).and (E' := fun _ _ => True) (D' := fun _ u => u.store = s.store ∧ u.ct = s.ct) ?_)
      (fun _ _ g => g) fun _ _ g => g.1) fun v u h => ?_
  · unfold readCount
    refine Run.Post.bind (D := fun _ u => u.store = s.store ∧ u.ct = s.ct) (.lift (.true (fun _ _ => ⟨rfl, rfl⟩)
      fun _ _ => trivial)) fun _ _ h => ?_
    split
    · trivial
    · exact h
  · exact Ended.answered ⟨h.1.status, h.1.errOp, rfl, h.1.tieMerged, h.1.hostQueue, h.1.answers, h.1.out, h.1.reader⟩ rfl rfl
      h.2.1 h.2.2

theorem compress_bodyFramed : BodyFramed .compress s := by
  unfold BodyFramed; dsimp only [exec, execCompress]
  refine ⟨_, _, rfl, by simp [State.always, precondition, opcodeOf], ?_⟩
  exact (compress_framed s).mono (fun _ _ g => Ended.replaced g.1 rfl g.2) fun _ _ g => g

theorem decompress_bodyFramed : BodyFramed .decompress s := by
  unfold BodyFramed; dsimp only [exec, execDecompress]
  refine ⟨_, _, rfl, by simp [State.always, precondition, opcodeOf], ?_⟩
  exact (decompress_framed s).mono (fun _ _ g => Ended.replaced g.1 rfl g.2) fun _ _ g => g

end Bodies

/-- Everything exec can answer with a next state (R224 to R230): RESET; ignored under the lock; a false precondition; the
command's own normal end; the error path of one of the kinds it may raise. -/
theorem exec_cases {i : Instr} {s t : State} (h : exec i s = .next t) :
    (i = .reset ∧ t = resetState s) ∨ (i ≠ .reset ∧ s.status ≠ .success ∧ t = s) ∨
    (i ≠ .reset ∧ s.status = .success ∧ ¬ precondition (opcodeOf i) s ∧ t = errorState .illegalCommand (opcodeOf i) s) ∨
    (i ≠ .reset ∧ s.status = .success ∧ precondition (opcodeOf i) s ∧ Ended i s t) ∨
    (i ≠ .reset ∧ s.status = .success ∧ precondition (opcodeOf i) s ∧
      ∃ e s', mayRaise i e ∧ Frame s s' ∧ t = errorState e.status (opcodeOf i) s') := by
  by_cases hi : i = .reset
  · subst hi; cases h; exact .inl ⟨rfl, rfl⟩
  refine .inr ?_
  obtain ⟨pre, body, he, hp, hb⟩ : BodyFramed i s := by
    cases i
    case reset => exact absurd rfl hi
    case nop => exact nop_bodyFramed
    case bwPutbit _ => exact bwPutbit_bodyFramed _
    case bwPutbyte _ => exact bwPutbyte_bodyFramed _
    case bwFlush => exact bwFlush_bodyFramed
    case brGetbit => exact brGetbit_bodyFramed
    case brGetbyte => exact brGetbyte_bodyFramed
    case brAlign => exact brAlign_bodyFramed
    case ftClear => exact ftClear_bodyFramed
    case ftCount _ => exact ftCount_bodyFramed _
    case ftRead _ => exact ftRead_bodyFramed _
    case tbBuild => exact tbBuild_bodyFramed
    case tsSerialize => exact tsSerialize_bodyFramed
    case tdDeserialize => exact tdDeserialize_bodyFramed
    case ctGenerate => exact ctGenerate_bodyFramed
    case ctReadlen _ => exact ctReadlen_bodyFramed _
    case heEncode _ => exact heEncode_bodyFramed _
    case hdDecode => exact hdDecode_bodyFramed
    case hdrWrite => exact hdrWrite_bodyFramed
    case hdrRead => exact hdrRead_bodyFramed
    case compress => exact compress_bodyFramed
    case decompress => exact decompress_bodyFramed
  rw [he] at h
  rcases accept_next_cases h with ⟨h1, h2⟩ | ⟨h1, h2, h3⟩ | ⟨h1, h2, h3⟩ | ⟨h1, h2, e, s', h3, h4⟩
  · exact .inl ⟨hi, h1, h2⟩
  · exact .inr (.inl ⟨hi, h1, fun k => (by rw [hp.2 k] at h2; cases h2), h3⟩)
  · rw [h3] at hb; exact .inr (.inr (.inl ⟨hi, h1, hp.1 h2, hb⟩))
  · rw [h3] at hb; exact .inr (.inr (.inr ⟨hi, h1, hp.1 h2, e, s', hb.1, hb.2, h4⟩))

end Sys2Proof.Machine
end

