-- ==== Sys2Proof/Laws/Commands.lean ====
section
/-! SUPPORT. What exec answers for each command once it is accepted (60_exceptions.md R224), in terms of the shared
operations, so that no later proof unfolds exec; and the two ways a command is not accepted. -/

namespace Sys2Proof.Machine

variable {s : State}

/-- A locked core ignores every command but RESET (R223). -/
theorem exec_locked {i : Instr} (h : i ≠ .reset) (hs : s.status ≠ .success) : exec i s = .next s := by
  cases i
  case reset => exact absurd rfl h
  all_goals
    dsimp only [exec, execNop, execBwPutbit, execBwPutbyte, execBwFlush, execBrGetbit, execBrGetbyte, execBrAlign, execFtClear,
    execFtCount, execFtRead, execTbBuild, execTsSerialize, execTdDeserialize, execCtGenerate, execCtReadlen, execHeEncode,
    execHdDecode, execHdrWrite, execHdrRead, execCompress, execDecompress]
    exact accept_locked hs

/-- A false precondition is ILLEGAL_COMMAND (R225). -/
theorem exec_precondition {i : Instr} (h : i ≠ .reset) (hs : s.status = .success) (hp : ¬ precondition (opcodeOf i) s) :
    exec i s = .next (errorState .illegalCommand (opcodeOf i) s) := by
  cases i
  case reset => exact absurd rfl h
  case tsSerialize =>
    dsimp only [exec, execTsSerialize]
    exact accept_precondition hs (by simpa [precondition, opcodeOf, State.treeReady] using hp)
  case ctGenerate =>
    dsimp only [exec, execCtGenerate]
    exact accept_precondition hs (by simpa [precondition, opcodeOf, State.treeReady] using hp)
  case hdDecode =>
    dsimp only [exec, execHdDecode]
    exact accept_precondition hs (by simpa [precondition, opcodeOf, State.treeReady] using hp)
  case heEncode =>
    dsimp only [exec, execHeEncode]
    exact accept_precondition hs (by simpa [precondition, opcodeOf, State.codesReady] using hp)
  all_goals simp [precondition, opcodeOf] at hp

section Accepted
variable (hs : s.status = .success)
include hs

theorem exec_nop : exec .nop s = .next s := by
  dsimp only [exec, execNop]; rw [accept_unlocked hs rfl, finish_done]

theorem exec_bwPutbit (b : Bool) : exec (.bwPutbit b) s = .next { s with writer := putBit b s.writer } := by
  dsimp only [exec, execBwPutbit]; rw [accept_unlocked hs rfl, finish_done]

theorem exec_bwPutbyte (v : Byte) : exec (.bwPutbyte v) s = .next { s with writer := putByte v s.writer } := by
  dsimp only [exec, execBwPutbyte]; rw [accept_unlocked hs rfl, finish_done]

theorem exec_bwFlush : exec .bwFlush s = .next { s with writer := flush s.writer } := by
  dsimp only [exec, execBwFlush]; rw [accept_unlocked hs rfl, finish_done]

theorem exec_brGetbit : exec .brGetbit s = finish 0x18
    (((getBit s.reader).lift fun r => { s with reader := r }).bind fun b s => .done () { s with result := bitWord b }) := by
  dsimp only [exec, execBrGetbit]; rw [accept_unlocked hs rfl]; rfl

theorem exec_brGetbyte : exec .brGetbyte s = finish 0x19
    (((getByte s.reader).lift fun r => { s with reader := r }).bind fun v s => .done () { s with result := byteWord v }) := by
  dsimp only [exec, execBrGetbyte]; rw [accept_unlocked hs rfl]; rfl

theorem exec_brAlign : exec .brAlign s = .next { s with reader := align s.reader } := by
  dsimp only [exec, execBrAlign]; rw [accept_unlocked hs rfl, finish_done]

theorem exec_ftClear : exec .ftClear s = .next { s with ft := .zero } := by
  dsimp only [exec, execFtClear]; rw [accept_unlocked hs rfl, finish_done]

theorem exec_ftCount (sym : Byte) :
    exec (.ftCount sym) s = finish 0x21 ((ftCount sym s.ft).lift fun t => { s with ft := t }) := by
  dsimp only [exec, execFtCount]; rw [accept_unlocked hs rfl]; rfl

theorem exec_ftRead (sym : Byte) : exec (.ftRead sym) s = .next { s with result := s.ft.get sym } := by
  dsimp only [exec, execFtRead]; rw [accept_unlocked hs rfl, finish_done]

theorem exec_tbBuild : exec .tbBuild s = .next (buildInto s) := by
  dsimp only [exec, execTbBuild]; rw [accept_unlocked hs rfl, finish_done]

theorem exec_tsSerialize (hv : s.store.valid = true) {t : Tree} (ht : s.store.tree = some t) :
    exec .tsSerialize s = .next { s with writer := flush (serialize t s.writer) } := by
  dsimp only [exec, execTsSerialize]; rw [accept_unlocked hs hv, withTree_some ht]; rfl

theorem exec_tdDeserialize : exec .tdDeserialize s = finish 0x31 (readTree s) := by
  dsimp only [exec, execTdDeserialize]; rw [accept_unlocked hs rfl]; rfl

theorem exec_ctGenerate (hv : s.store.valid = true) {t : Tree} (ht : s.store.tree = some t) :
    exec .ctGenerate s = .next { s with ct := generateCodes t } := by
  dsimp only [exec, execCtGenerate]; rw [accept_unlocked hs hv, withTree_some ht]; rfl

theorem exec_ctReadlen (sym : Byte) : exec (.ctReadlen sym) s = .next { s with result := (s.ct.get sym).readLen } := by
  dsimp only [exec, execCtReadlen]; rw [accept_unlocked hs rfl, finish_done]

theorem exec_heEncode (hv : s.ct.valid = true) (sym : Byte) :
    exec (.heEncode sym) s =
      if (s.ct.get sym).valid then .next { s with writer := putBits (s.ct.get sym).bits s.writer }
      else .next (errorState .wrongInput 0x40 s) := by
  dsimp only [exec, execHeEncode]; rw [accept_unlocked hs hv]; split <;> rfl

theorem exec_hdDecode (hv : s.store.valid = true) {t : Tree} (ht : s.store.tree = some t) :
    exec .hdDecode s = finish 0x48
      (((descend t s.reader).lift fun r => { s with reader := r }).bind fun sym s =>
        .done () { s with writer := sinkWrite sym s.writer, result := byteWord sym }) := by
  dsimp only [exec, execHdDecode]; rw [accept_unlocked hs hv, withTree_some ht]; rfl

theorem exec_hdrWrite : exec .hdrWrite s = .next { s with writer := putBytes (countBytes s.ft.total) s.writer } := by
  dsimp only [exec, execHdrWrite]; rw [accept_unlocked hs rfl, finish_done]

theorem exec_hdrRead :
    exec .hdrRead s = finish 0x51 ((readCount s).bind fun v s => .done () { s with result := v }) := by
  dsimp only [exec, execHdrRead]; rw [accept_unlocked hs rfl]; rfl

theorem exec_compress :
    exec .compress s = finish 0x60
      ((countPass (unreadCount (release s).reader) (release s)).bind fun _ s1 =>
        if s1.ft.total = 0 then compressEmpty s1 else compressCounted (release s).reader.ipos s1) := by
  dsimp only [exec, execCompress]; rw [accept_unlocked hs rfl]; rfl

theorem exec_decompress :
    exec .decompress s = finish 0x61
      ((readCount (release s)).bind fun v s =>
        if v = 0 then .done () (releaseTree s)
        else
          (readTree s).bind fun _ s =>
            withTree s fun t => (decodePass t v.toNat s).bind fun _ s => .done () (releaseTree s)) := by
  dsimp only [exec, execDecompress]; rw [accept_unlocked hs rfl]; rfl

end Accepted

/-! ### Words -/

/-- A word that decodes runs its command. -/
theorem issue_ok {w : CmdWord} {i : Instr} (h : decode w = .ok i) : issue w s = exec i s := by simp only [issue, h]

/-- An illegal word (R73): refused when unlocked, ignored when locked. -/
theorem issue_illegal {w : CmdWord} (h : IllegalWord w) : issue w s =
    if s.status = .success then .next (errorState .illegalCommand (w.extractLsb' 8 8) s) else .next s := by
  obtain ⟨e, he⟩ := (decode_error_iff w).1 h
  simp only [issue, he, rejectWord, State.locked]
  by_cases hs : s.status = .success
  · simp [hs]; rfl
  · simp [hs]

/-- A command without an operand refuses every other argument (R72, R73). -/
theorem takesNoOperand_of_mask {op : Byte} {i : Instr} (h : decode (op ++ 0#8) = .ok i) (hr : reservedMask op = some 0xFF) :
    TakesNoOperand op i := by
  refine ⟨h, fun arg s ha hs => ?_⟩
  have e1 : (op ++ arg).extractLsb' 8 8 = op := opField_append op arg
  have e2 : (op ++ arg).extractLsb' 0 8 = arg := argField_append op arg
  rw [issue_illegal (.inr ⟨0xFF, by rw [e1]; exact hr, ?_⟩), if_pos hs, e1]
  rw [e2]
  exact fun e => ha (by rw [← e]; exact (BitVec.and_allOnes (x := arg)).symm)

theorem runWords_nil : runWords [] s = .next s := rfl

theorem runWords_cons_next {w : CmdWord} {ws : List CmdWord} {u : State} (h : issue w s = .next u) :
    runWords (w :: ws) s = runWords ws u := by simp only [runWords, h]

theorem runWords_append_next {v w : List CmdWord} {u : State} (h : runWords v s = .next u) :
    runWords (v ++ w) s = runWords w u := by
  induction v generalizing s with
  | nil => cases h; rfl
  | cons x xs ih =>
    simp only [List.cons_append, runWords] at h ⊢
    cases hx : issue x s with
    | next t => rw [hx] at h; exact ih h
    | fault f => rw [hx] at h; cases h
    | refused r => rw [hx] at h; cases h

end Sys2Proof.Machine
end

