-- ==== Sys2Proof/Laws/Frequency.lean ====
section
/-! SUPPORT. The frequency table (41_frequency.md R120 to R123; 10_state.md R26, R27): one count, a whole pass, and the
table of a byte sequence. -/

namespace Sys2Proof.Machine

@[simp] theorem zeroTable_count (q : Byte) : FreqTable.zero.get q = 0 := by simp [FreqTable.get, FreqTable.zero]

@[simp] theorem zeroCodes_get (q : Byte) : CodeTable.zero.get q = ⟨false, 0, 0⟩ := by
  simp [CodeTable.get, CodeTable.zero, CodeEntry.none]

/-- Two frequency tables with the same counters and total are the same. -/
theorem FreqTable.ext {t u : FreqTable} (h : ∀ q, t.get q = u.get q) (ht : t.total = u.total) : t = u := by
  obtain ⟨f, n⟩ := t; obtain ⟨g, m⟩ := u
  cases ht
  congr
  refine Vector.ext fun i hi => ?_
  have := h (BitVec.ofNat 8 i)
  have e : (BitVec.ofNat 8 i).toNat = i := by rw [BitVec.toNat_ofNat]; omega
  simpa only [FreqTable.get, e] using this

theorem FreqTable.get_set (t : FreqTable) (sym q : Byte) (v n : Word) :
    (FreqTable.mk (t.freq.set sym.toNat v sym.isLt) n).get q = if q = sym then v else t.get q := by
  simp only [FreqTable.get, Vector.getElem_set]
  by_cases h : q = sym
  · subst h; simp
  · have : ¬ sym.toNat = q.toNat := fun e => h (BitVec.eq_of_toNat_eq e).symm
    simp [h, this]

theorem FreqTable.toList_eq (t : FreqTable) : t.freq.toList = allBytes.map t.get := by
  refine List.ext_getElem (by simp [allBytes]) fun i h1 h2 => ?_
  have hi : i < 256 := by simpa using h1
  have e : (BitVec.ofNat 8 i).toNat = i := by rw [BitVec.toNat_ofNat]; omega
  simp only [allBytes, List.map_map, List.getElem_map, List.getElem_range, Function.comp_apply, FreqTable.get, e,
    Vector.getElem_toList]

/-- R27's sum, over the byte values. -/
theorem FreqTable.sum_eq (t : FreqTable) : t.sum = (allBytes.map fun q => (t.get q).toNat).sum := by
  rw [FreqTable.sum, t.toList_eq, List.map_map]; rfl

theorem mem_allBytes (q : Byte) : q ∈ allBytes :=
  List.mem_map.2 ⟨q.toNat, List.mem_range.2 q.isLt, by simp⟩

theorem allBytes_nodup : allBytes.Nodup := by
  unfold allBytes
  refine List.Nodup.map_on (fun a ha b hb h => ?_) List.nodup_range
  have := congrArg BitVec.toNat h
  rw [BitVec.toNat_ofNat, BitVec.toNat_ofNat] at this
  have := List.mem_range.1 ha; have := List.mem_range.1 hb
  omega

/-- Changing a function at one member of a list without repeats changes its sum by the difference. -/
theorem sum_update {l : List Byte} (hl : l.Nodup) {sym : Byte} (hm : sym ∈ l) (f g : Byte → Nat)
    (hg : ∀ q, q ≠ sym → g q = f q) : (l.map g).sum + f sym = (l.map f).sum + g sym := by
  induction l with
  | nil => cases hm
  | cons x xs ih =>
    obtain ⟨hx, hxs⟩ := List.nodup_cons.1 hl
    by_cases h : x = sym
    · subst h
      have : xs.map g = xs.map f := List.map_congr_left fun q hq => hg q fun e => hx (e ▸ hq)
      simp only [List.map_cons, List.sum_cons, this]; omega
    · have := ih hxs ((List.mem_cons.1 hm).resolve_left fun e => h e.symm)
      simp only [List.map_cons, List.sum_cons, hg x h]; omega

theorem le_sum {l : List Byte} {sym : Byte} (hm : sym ∈ l) (f : Byte → Nat) : f sym ≤ (l.map f).sum := by
  induction l with
  | nil => cases hm
  | cons x xs ih =>
    simp only [List.map_cons, List.sum_cons]
    rcases List.mem_cons.1 hm with rfl | h
    · omega
    · have := ih h; omega

/-- No counter is above TOTAL (R27). -/
theorem FreqTable.Ok.get_le {t : FreqTable} (h : t.Ok) (q : Byte) : (t.get q).toNat ≤ t.total.toNat := by
  rw [← h.1, t.sum_eq]
  exact le_sum (mem_allBytes q) fun q => (t.get q).toNat

/-- The table after one count. -/
def counted (t : FreqTable) (sym : Byte) : FreqTable := ⟨t.freq.set sym.toNat (t.get sym + 1) sym.isLt, t.total + 1⟩

theorem counted_get (t : FreqTable) (sym q : Byte) : (counted t sym).get q = if q = sym then t.get q + 1 else t.get q := by
  rw [counted, t.get_set]
  split
  · rename_i h; rw [h]
  · rfl

theorem ftCount_cases (sym : Byte) (t : FreqTable) :
    ftCount sym t = if t.total = 0x7FFFFFFF then .raised .outOfMemory t else .done () (counted t sym) := rfl

/-- Counting keeps R27, and no addition wraps. -/
theorem counted_ok {t : FreqTable} (h : t.Ok) (hc : t.total ≠ 0x7FFFFFFF) (sym : Byte) :
    (counted t sym).Ok ∧ (counted t sym).total.toNat = t.total.toNat + 1 ∧
      ((counted t sym).get sym).toNat = (t.get sym).toNat + 1 := by
  have h1 := h.1; have h2 := h.2
  have hne : t.total.toNat ≠ 0x7FFFFFFF := fun e => hc (BitVec.eq_of_toNat_eq e)
  have hle := h.get_le sym
  have ht : (counted t sym).total.toNat = t.total.toNat + 1 := by
    show (t.total + 1).toNat = _
    rw [BitVec.toNat_add]; simp; omega
  have hg : ((counted t sym).get sym).toNat = (t.get sym).toNat + 1 := by
    rw [counted_get, if_pos rfl, BitVec.toNat_add]; simp; omega
  refine ⟨⟨?_, by omega⟩, ht, hg⟩
  have hs := sum_update allBytes_nodup (mem_allBytes sym) (fun q => (t.get q).toNat)
    (fun q => ((counted t sym).get q).toNat) fun q hq => by simp only [counted_get, if_neg hq]
  simp only [hg] at hs
  rw [FreqTable.sum_eq] at h1 ⊢
  omega

theorem zeroTable_ok : FreqTable.zero.Ok := by
  refine ⟨?_, by decide⟩
  rw [FreqTable.sum_eq]; simp only [zeroTable_count]; simp [FreqTable.zero]

/-! ### The table of a byte sequence -/

theorem freqOf_get (xs : List Byte) (q : Byte) : (freqOf xs).get q = BitVec.ofNat 32 (xs.count q) := by
  simp [FreqTable.get, freqOf]

theorem freqOf_nil : freqOf [] = .zero := FreqTable.ext (fun q => by rw [freqOf_get]; simp) rfl

/-- Counting one more byte at the end. -/
theorem counted_freqOf (xs : List Byte) (x : Byte) : counted (freqOf xs) x = freqOf (xs ++ [x]) := by
  refine FreqTable.ext (fun q => ?_) ?_
  · rw [counted_get, freqOf_get, freqOf_get, List.count_append]
    split
    · rename_i h; subst h; simp [BitVec.ofNat_add]
    · rename_i h
      have : List.count q [x] = 0 := by rw [List.count_eq_zero]; simpa using h
      rw [this, Nat.add_zero]
  · simp [counted, freqOf, BitVec.ofNat_add]

theorem freqOf_total {xs : List Byte} (h : xs.length ≤ 0x7FFFFFFF) : (freqOf xs).total.toNat = xs.length := by
  show (BitVec.ofNat 32 xs.length).toNat = _
  rw [BitVec.toNat_ofNat]; omega

theorem freqOf_count {xs : List Byte} (h : xs.length ≤ 0x7FFFFFFF) (q : Byte) : ((freqOf xs).get q).toNat = xs.count q := by
  have := List.count_le_length (a := q) (l := xs)
  rw [freqOf_get, BitVec.toNat_ofNat]; omega

theorem freqOf_ok {xs : List Byte} (h : xs.length ≤ 0x7FFFFFFF) : (freqOf xs).Ok := by
  induction xs using List.reverseRecOn with
  | nil => rw [freqOf_nil]; exact zeroTable_ok
  | append_singleton xs x ih =>
    rw [← counted_freqOf]
    simp only [List.length_append, List.length_singleton] at h
    refine (counted_ok (ih (by omega)) (fun e => ?_) x).1
    have := congrArg BitVec.toNat e
    rw [freqOf_total (by omega)] at this
    have h2 : (0x7FFFFFFF : Word).toNat = 0x7FFFFFFF := rfl
    omega

/-- Pass 1 of COMPRESS (R190 step 1): it counts every unread byte and leaves IPOS at the end, or raises OUT_OF_MEMORY just
past the byte that overflows. -/
theorem countPass_spec {s : State} (pre : List Byte) (hf : s.ft = freqOf pre) (hp : pre.length ≤ 0x7FFFFFFF)
    (hr : s.reader.ipos ≤ s.reader.input.length) :
    countPass (unreadCount s.reader) s =
      if pre.length + s.reader.unread.length ≤ 0x7FFFFFFF then
        .done () { s with
          ft := freqOf (pre ++ s.reader.unread), reader := { s.reader with ipos := s.reader.input.length } }
      else .raised .outOfMemory { s with
        ft := freqOf (pre ++ s.reader.unread.take (0x7FFFFFFF - pre.length))
        reader := { s.reader with ipos := s.reader.ipos + (0x7FFFFFFF - pre.length) + 1 } } := by
  generalize hn : unreadCount s.reader = n
  induction n generalizing s pre with
  | zero =>
    have hlen : s.reader.ipos = s.reader.input.length := by simp only [unreadCount] at hn; omega
    have hu : s.reader.unread = [] := by simp [BitReader.unread, hlen]
    rw [hu, if_pos (by simpa using hp), List.append_nil, ← hf, ← hlen, countPass]
  | succ n ih =>
    have hlt : s.reader.ipos < s.reader.input.length := by simp only [unreadCount] at hn; omega
    have hu : s.reader.unread = s.reader.input[s.reader.ipos] :: s.reader.input.drop (s.reader.ipos + 1) := by
      rw [BitReader.unread, List.drop_eq_getElem_cons hlt]
    have hav : srcAvail s.reader = true := by simpa [srcAvail] using hlt
    rw [countPass, if_pos hav, srcRead_some (List.getElem?_eq_getElem hlt)]
    simp only [Run.lift_done, Run.bind_done, ftCount_cases]
    by_cases hfull : pre.length = 0x7FFFFFFF
    · have ht : s.ft.total = 0x7FFFFFFF := by
        apply BitVec.eq_of_toNat_eq; rw [hf, freqOf_total hp, hfull]; rfl
      rw [if_pos ht, if_neg (by rw [hu]; simp; omega)]
      simp only [Run.lift_raised, Run.bind_raised, hfull, Nat.sub_self, List.take_zero, List.append_nil, ← hf, Nat.add_zero]
    · have ht : s.ft.total ≠ 0x7FFFFFFF := by
        intro e; have := congrArg BitVec.toNat e
        rw [hf, freqOf_total hp] at this; exact hfull this
      rw [if_neg ht]
      simp only [Run.lift_done, Run.bind_done]
      have := ih (s := { s with
          reader := { s.reader with ipos := s.reader.ipos + 1 }
          ft := counted s.ft s.reader.input[s.reader.ipos] }) (pre ++ [s.reader.input[s.reader.ipos]])
        (by rw [← counted_freqOf, ← hf]) (by simp; omega) hlt (by simp only [unreadCount] at hn ⊢; omega)
      have e1 : (pre ++ [s.reader.input[s.reader.ipos]]).length = pre.length + 1 := by simp
      have e2 : 0x7FFFFFFF - pre.length = (0x7FFFFFFF - (pre.length + 1)) + 1 := by omega
      have e3 : s.reader.ipos + 1 + (0x7FFFFFFF - (pre.length + 1)) + 1 =
          s.reader.ipos + (0x7FFFFFFF - (pre.length + 1) + 1) + 1 := by omega
      simp only [BitReader.unread, e1, List.append_assoc, List.singleton_append] at this
      rw [this, hu, e2, e3]
      simp only [List.length_cons, List.take_succ_cons]
      by_cases h : pre.length + 1 + (s.reader.input.drop (s.reader.ipos + 1)).length ≤ 0x7FFFFFFF
      · rw [if_pos h, if_pos (by omega)]
      · rw [if_neg h, if_neg (by omega)]

end Sys2Proof.Machine
end

