-- ==== Sys2Proof/Laws/Reader.lean ====
section
/-! SUPPORT. What the bit reader has taken (40_bit_io.md R103 to R105, R110): the bits, and where IPOS and RCNT then
stand; for every reading procedure, ended or raised. -/

namespace Sys2Proof.Machine

/-- From `r` the reader took exactly the bits `bs`; where it took any, it holds at most 7. -/
structure Took (r : BitReader) (bs : List Bool) (r' : BitReader) : Prop where
  ok : r'.Ok
  input : r'.input = r.input
  bits : r.bits = bs ++ r'.bits
  held : (bs = [] ∧ r' = r) ∨ (bs ≠ [] ∧ r'.rcnt.toNat ≤ 7)

theorem Took.nil {r : BitReader} (hr : r.Ok) : Took r [] r := ⟨hr, rfl, rfl, .inl ⟨rfl, rfl⟩⟩

theorem Took.trans {a b c : BitReader} {x y : List Bool} (h : Took a x b) (g : Took b y c) : Took a (x ++ y) c := by
  refine ⟨g.ok, g.input.trans h.input, by rw [h.bits, g.bits, List.append_assoc], ?_⟩
  rcases g.held with ⟨rfl, rfl⟩ | ⟨hy, hc⟩
  · rw [List.append_nil]; exact h.held
  · exact .inr ⟨by simp [hy], hc⟩

/-- Where IPOS stands after taking some bits: each byte is fetched when its first bit is asked for. -/
theorem Took.ipos {r r' : BitReader} {bs : List Bool} (hr : r.Ok) (h : Took r bs r') :
    r'.ipos = r.ipos + (bs.length - r.rcnt.toNat + 7) / 8 := by
  have hl := congrArg List.length h.bits
  rw [List.length_append, reader_bits_length hr, reader_bits_length h.ok, h.input] at hl
  have h1 := hr.1; have h2 := hr.2; have h3 := h.ok.1; have h4 := h.ok.2
  rw [h.input] at h4
  rcases h.held with ⟨rfl, rfl⟩ | ⟨hne, hc⟩
  · simp only [List.length_nil, Nat.zero_sub]; omega
  · have : 0 < bs.length := List.length_pos_iff.2 hne
    omega

/-- Where RCNT stands: the alignment moves with the bits taken. -/
theorem Took.rcnt {r r' : BitReader} {bs : List Bool} (hr : r.Ok) (h : Took r bs r') :
    (r'.rcnt.toNat + bs.length) % 8 = r.rcnt.toNat % 8 := by
  have hl := congrArg List.length h.bits
  rw [List.length_append, reader_bits_length hr, reader_bits_length h.ok, h.input] at hl
  have h2 := hr.2; have h4 := h.ok.2
  rw [h.input] at h4
  omega

/-- A raise at the end of the source leaves IPOS at the end. -/
theorem ipos_of_no_bits {r r' : BitReader} (hr : r'.Ok) (hi : r'.input = r.input) (h : r'.bits = []) :
    r'.ipos = r.input.length := by rw [(reader_exhausted hr h).2, hi]

theorem getBit_took {r : BitReader} (hr : r.Ok) {b : Bool} {bs : List Bool} (h : r.bits = b :: bs) :
    ∃ r', getBit r = .done b r' ∧ Took r [b] r' ∧ r'.bits = bs := by
  obtain ⟨r', h1, h2, h3, h4, h5, -⟩ := getBit_cons hr h
  exact ⟨r', h1, ⟨h3, h4, by rw [h, h2]; rfl, .inr ⟨by simp, by omega⟩⟩, h2⟩

theorem getByteLoop_took (bs : List Bool) (v : Byte) {r : BitReader} (hr : r.Ok) {rest : List Bool}
    (h : r.bits = bs ++ rest) :
    ∃ r', getByteLoop bs.length v r = .done (shiftIn v bs) r' ∧ Took r bs r' ∧ r'.bits = rest := by
  induction bs generalizing v r with
  | nil => exact ⟨r, rfl, .nil hr, h⟩
  | cons b bs ih =>
    obtain ⟨r1, h1, h2, h3⟩ := getBit_took hr (bs := bs ++ rest) h
    obtain ⟨r', g1, g2, g3⟩ := ih (shiftInBit v b) h2.ok h3
    exact ⟨r', by simp only [List.length_cons, getByteLoop, h1, Run.bind_done]; exact g1, h2.trans g2, g3⟩

/-- GetByte takes 8 bits, most significant first (R104). -/
theorem getByte_took {r : BitReader} (hr : r.Ok) {v : Byte} {rest : List Bool} (h : r.bits = byteBits v ++ rest) :
    ∃ r', getByte r = .done v r' ∧ Took r (byteBits v) r' ∧ r'.bits = rest := by
  obtain ⟨r', h1, h2, h3⟩ := getByteLoop_took (byteBits v) 0 hr h
  rw [shiftIn_byteBits] at h1
  exact ⟨r', h1, h2, h3⟩

/-- The bits of a count field, as they are read (R81, R173). -/
abbrev countBits (b0 b1 b2 b3 : Byte) : List Bool := byteBits b0 ++ byteBits b1 ++ byteBits b2 ++ byteBits b3

theorem getCount_took {r : BitReader} (hr : r.Ok) {b0 b1 b2 b3 : Byte} {rest : List Bool}
    (h : r.bits = countBits b0 b1 b2 b3 ++ rest) :
    ∃ r', getCount r = .done (joinCount b0 b1 b2 b3) r' ∧ Took r (countBits b0 b1 b2 b3) r' ∧ r'.bits = rest := by
  simp only [countBits, List.append_assoc] at h
  obtain ⟨r1, f1, g1, e1⟩ := getByte_took hr h
  obtain ⟨r2, f2, g2, e2⟩ := getByte_took g1.ok e1
  obtain ⟨r3, f3, g3, e3⟩ := getByte_took g2.ok e2
  obtain ⟨r4, f4, g4, e4⟩ := getByte_took g3.ok e3
  refine ⟨r4, ?_, ((g1.trans g2).trans g3).trans g4, e4⟩
  simp only [getCount, f1, f2, f3, f4, Run.bind_done]

/-- Bits enough for `n` bytes begin with `n` bytes. -/
theorem exists_byte (bs : List Bool) (h : 8 ≤ bs.length) : ∃ v rest, bs = byteBits v ++ rest := by
  obtain ⟨v, hv⟩ := exists_byteBits (bs.take 8) (by simp; omega)
  exact ⟨v, bs.drop 8, by rw [hv, List.take_append_drop]⟩

theorem getCount_short {r : BitReader} (hr : r.Ok) (h : r.bits.length < 32) :
    ∃ r', getCount r = .raised .wrongInput r' ∧ r'.Ok ∧ r'.input = r.input ∧ r'.bits = [] := by
  by_cases h1 : r.bits.length < 8
  · obtain ⟨r', f, g1, g2, g3⟩ := getByte_short hr h1
    exact ⟨r', by simp only [getCount, f, Run.bind_raised], g1, g2, g3⟩
  obtain ⟨v1, t1, e1⟩ := exists_byte r.bits (by omega)
  obtain ⟨r1, f1, k1, e1'⟩ := getByte_took hr e1
  have l1 := congrArg List.length e1
  simp only [List.length_append, byteBits_length] at l1
  by_cases h2 : t1.length < 8
  · obtain ⟨r', f, g1, g2, g3⟩ := getByte_short k1.ok (by rw [e1']; exact h2)
    exact ⟨r', by simp only [getCount, f1, f, Run.bind_done, Run.bind_raised], g1, g2.trans k1.input, g3⟩
  obtain ⟨v2, t2, e2⟩ := exists_byte t1 (by omega)
  obtain ⟨r2, f2, k2, e2'⟩ := getByte_took k1.ok (e1'.trans e2)
  have l2 := congrArg List.length e2
  simp only [List.length_append, byteBits_length] at l2
  by_cases h3 : t2.length < 8
  · obtain ⟨r', f, g1, g2, g3⟩ := getByte_short k2.ok (by rw [e2']; exact h3)
    exact ⟨r', by simp only [getCount, f1, f2, f, Run.bind_done, Run.bind_raised], g1,
      g2.trans (k2.input.trans k1.input), g3⟩
  obtain ⟨v3, t3, e3⟩ := exists_byte t2 (by omega)
  obtain ⟨r3, f3, k3, e3'⟩ := getByte_took k2.ok (e2'.trans e3)
  have l3 := congrArg List.length e3
  simp only [List.length_append, byteBits_length] at l3
  obtain ⟨r', f, g1, g2, g3⟩ := getByte_short k3.ok (by rw [e3']; omega)
  exact ⟨r', by simp only [getCount, f1, f2, f3, f, Run.bind_done, Run.bind_raised], g1,
    g2.trans (k3.input.trans (k2.input.trans k1.input)), g3⟩

/-- The sign bit of a count field is bit 7 of its last byte (R81). -/
theorem joinCount_sign (b0 b1 b2 b3 : Byte) : (joinCount b0 b1 b2 b3).getLsbD 31 = b3.getLsbD 7 := by
  simp only [joinCount, BitVec.getLsbD_append]; simp

/-- Everything readCount can do (R173): a count, a negative count, or a source that ends. -/
theorem readCount_took {s : State} (hr : s.reader.Ok) {b0 b1 b2 b3 : Byte} {rest : List Bool}
    (h : s.reader.bits = countBits b0 b1 b2 b3 ++ rest) :
    ∃ r', Took s.reader (countBits b0 b1 b2 b3) r' ∧ r'.bits = rest ∧
      readCount s =
        if b3.getLsbD 7 then .raised .wrongInput { s with reader := r' }
        else .done (joinCount b0 b1 b2 b3) { s with reader := r', dcount := joinCount b0 b1 b2 b3 } := by
  obtain ⟨r', f, g, e⟩ := getCount_took hr h
  refine ⟨r', g, e, ?_⟩
  simp only [readCount, f, Run.lift_done, Run.bind_done, joinCount_sign]

theorem readCount_short {s : State} (hr : s.reader.Ok) (h : s.reader.bits.length < 32) :
    ∃ r', readCount s = .raised .wrongInput { s with reader := r' } ∧ r'.Ok ∧ r'.input = s.reader.input ∧ r'.bits = [] := by
  obtain ⟨r', f, g1, g2, g3⟩ := getCount_short hr h
  exact ⟨r', by simp only [readCount, f, Run.lift_raised, Run.bind_raised], g1, g2, g3⟩

/-- The descent takes exactly a leaf's path (R171). -/
theorem descend_took {t : Tree} {p : List Bool} {s : Byte} (hc : (p, s) ∈ t.codes) {r : BitReader} (hr : r.Ok)
    {rest : List Bool} (h : r.bits = p ++ rest) :
    ∃ r', descend t r = .done s r' ∧ Took r p r' ∧ r'.bits = rest := by
  induction t generalizing p r with
  | leaf s' =>
    simp only [Tree.codes, List.mem_singleton, Prod.mk.injEq] at hc
    obtain ⟨rfl, rfl⟩ := hc
    exact ⟨r, rfl, .nil hr, h⟩
  | node l u ihl ihu =>
    obtain ⟨b, q, rfl, hq⟩ := Tree.mem_codes_node.1 hc
    obtain ⟨r1, h1, h2, h3⟩ := getBit_took hr h
    cases b
    · obtain ⟨r', e1, e2, e3⟩ := ihl hq h2.ok h3
      exact ⟨r', by simp only [descend, h1, Run.bind_done]; exact e1, h2.trans e2, e3⟩
    · obtain ⟨r', e1, e2, e3⟩ := ihu hq h2.ok h3
      exact ⟨r', by simp only [descend, h1, Run.bind_done]; exact e1, h2.trans e2, e3⟩

/-- Where a deserialized tree ends, at most 7 bits are held (R103, R144). -/
theorem deserialize_held (f : Nat) (b : Rebuild) :
    (deserialize f b).Post (fun _ b' => b.reader.Ok → b'.reader.Ok ∧ b'.reader.rcnt.toNat ≤ 7) (fun _ _ => True) := by
  induction f generalizing b with
  | zero => trivial
  | succ f ih =>
    have bit (b : Rebuild) : b.getBit.Post
        (fun _ b' => b.reader.Ok → b'.reader.Ok ∧ b'.reader.rcnt.toNat ≤ 7) (fun _ _ => True) := by
      by_cases hr : b.reader.Ok
      · cases hb : b.reader.bits with
        | nil => simp only [Rebuild.getBit, getBit_nil hr hb]; trivial
        | cons x xs =>
          obtain ⟨r', h1, h2, -⟩ := getBit_took hr hb
          simp only [Rebuild.getBit, h1]
          rcases h2.held with h | h
          · simp at h
          · exact fun _ => ⟨h2.ok, h.2⟩
      · exact .true (fun _ _ h => absurd h hr) fun _ _ => trivial
    have byte (b : Rebuild) : b.getByte.Post
        (fun _ b' => b.reader.Ok → b'.reader.Ok ∧ b'.reader.rcnt.toNat ≤ 7) (fun _ _ => True) := by
      by_cases hr : b.reader.Ok
      · by_cases hl : b.reader.bits.length < 8
        · obtain ⟨r', h1, -⟩ := getByte_short hr hl
          simp only [Rebuild.getByte, h1]; trivial
        · obtain ⟨v, rest, hv⟩ := exists_byte b.reader.bits (by omega)
          obtain ⟨r', h1, h2, -⟩ := getByte_took hr hv
          simp only [Rebuild.getByte, h1]
          rcases h2.held with h | h
          · simp [byteBits] at h
          · exact fun _ => ⟨h2.ok, h.2⟩
      · exact .true (fun _ _ h => absurd h hr) fun _ _ => trivial
    have take {c : Rebuild} (h : b.reader.Ok → c.reader.Ok ∧ c.reader.rcnt.toNat ≤ 7) (n : Node) :
        (alloc n c).Post (fun _ b' => b.reader.Ok → b'.reader.Ok ∧ b'.reader.rcnt.toNat ≤ 7) (fun _ _ => True) := by
      unfold alloc; split
      · trivial
      · exact h
    have on {α : Type} {c : Rebuild} {x : Run Rebuild α} (h : b.reader.Ok → c.reader.Ok ∧ c.reader.rcnt.toNat ≤ 7)
        (g : x.Post (fun _ b' => c.reader.Ok → b'.reader.Ok ∧ b'.reader.rcnt.toNat ≤ 7) (fun _ _ => True)) :
        x.Post (fun _ b' => b.reader.Ok → b'.reader.Ok ∧ b'.reader.rcnt.toNat ≤ 7) (fun _ _ => True) :=
      g.mono (fun _ _ k hb => k (h hb).1) fun _ _ k => k
    rw [deserialize]
    refine (bit b).bind fun x c h => ?_
    split
    · refine (take h _).bind fun n d h => ?_
      refine (on h (byte d)).bind fun sym e h => ?_
      exact h
    · refine (take h _).bind fun n d h => ?_
      refine (on h (ih d)).bind fun low e h => ?_
      refine (on (c := setNode n _ e) h (ih _)).bind fun high g h => ?_
      exact h

/-- Everything ReadTree can do (R143 to R145), with what it has taken. -/
theorem readTree_took {s : State} (hr : s.reader.Ok) :
    (∃ t rest r', t.leafCount ≤ 256 ∧ Took s.reader (treeBits t) r' ∧ r'.bits = rest ∧
      readTree s = .done () { s with
        store := ⟨layout t 0, 0, true⟩, ct := ⟨s.ct.entries, false⟩, reader := align r' }) ∨
    (∃ r' nodes, readTree s = .raised .wrongInput { s with
        store := ⟨nodes, s.store.root, false⟩, ct := ⟨s.ct.entries, false⟩, reader := r' } ∧
      r'.Ok ∧ r'.input = s.reader.input ∧ s.reader.ipos ≤ r'.ipos ∧
      ∀ t rest, s.reader.bits = treeBits t ++ rest → 256 < t.leafCount) := by
  have hd := deserialize_held (Config.nodeCap + 1) ⟨s.reader, []⟩
  have hf := deserialize_forward (Config.nodeCap + 1) ⟨s.reader, []⟩
  rcases deserialize_spec (Config.nodeCap + 1) (b := ⟨s.reader, []⟩) hr (by simp) (by simp [Config.nodeCap]) with
    ⟨t, rest, b', e1, e2, e3, e4, e5, e6, e7⟩ | ⟨b', e1, e2, e3, e4⟩
  · rw [e3] at hd
    have hsz := t.size_eq
    have hpos := t.leafCount_pos
    simp only [List.length_nil, Nat.zero_add] at e2
    refine .inl ⟨t, rest, b'.reader, by omega, ⟨e6, e7, by rw [e5]; exact e1, .inr ⟨?_, (hd hr).2⟩⟩, e5, ?_⟩
    · cases t <;> simp [treeBits]
    · simp only [readTree, e3, Run.lift_done, Run.bind_done, e4]; rfl
  · rw [e1] at hf
    refine .inr ⟨b'.reader, b'.nodes, ?_, e2, e3, hf.2.ipos, fun t rest h => ?_⟩
    · simp only [readTree, e1, Run.lift_raised, Run.bind_raised]
    · have := e4 t rest h
      have hsz := t.size_eq
      simp only [List.length_nil, Nat.zero_add] at this
      omega

end Sys2Proof.Machine
end

