-- ==== Sys2Proof/Laws/Pipelines.lean ====
section
/-! SUPPORT. The passes of the pipelines (46_pipelines.md R190, R191) and the container regions they write and read
(30_encoding.md R80 to R85). -/

namespace Sys2Proof.Machine

/-! ### Regions -/

theorem unread_bits {r : BitReader} (h : r.rcnt = 0) : r.bits = r.unread.flatMap byteBits := by
  simp [BitReader.bits, h, BitReader.unread, byteBits]

/-- A reader with no held bit and something to read is in order. -/
theorem ok_of_unread {r : BitReader} (h : r.rcnt = 0) (hu : r.unread ≠ []) : r.Ok := by
  refine ⟨by simp [h], ?_⟩
  by_contra hc
  exact hu (List.drop_of_length_le (by omega))

theorem unread_length (r : BitReader) : r.unread.length = r.input.length - r.ipos := by simp [BitReader.unread]

theorem writer_zero_ok (out : List Byte) : (BitWriter.mk 0 0 out).Ok := by intro i _; simp

/-- With nothing pending and the padding in order, ACC is 0. -/
theorem acc_zero {w : BitWriter} (hw : w.Ok) (hn : w.nacc = 0) : w = ⟨0, 0, w.out⟩ := by
  obtain ⟨acc, nacc, out⟩ := w
  cases hn
  have : acc = 0 := by
    refine BitVec.eq_of_getLsbD_eq fun i hi => ?_
    rw [hw i (by simpa using hi)]; simp
  rw [this]; rfl

/-- Whole bytes put at a byte boundary are appended as they are (R101). -/
theorem putBytes_aligned (vs : List Byte) (out : List Byte) : putBytes vs ⟨0, 0, out⟩ = ⟨0, 0, out ++ vs⟩ := by
  refine writer_ext ?_ (writer_zero_ok _) ?_
  · rw [putBytes_eq_putBits]; exact putBits_ok (writer_zero_ok _)
  · rw [putBytes_eq_putBits, putBits_bits]; simp [BitWriter.bits]

/-- The bytes a region packs to are determined by its bits (R84). -/
theorem PacksTo.unique {bs : List Bool} {x y : List Byte} (hx : PacksTo bs x) (hy : PacksTo bs y) : x = y := by
  have hl : x.length = y.length := hx.1.trans hy.1.symm
  exact flatMap_byteBits_injective (by rw [hx.2, hy.2, hl])

/-- From a byte boundary, putting a region and flushing appends its bytes. -/
theorem flush_putBits {bs : List Bool} {x : List Byte} (h : PacksTo bs x) (out : List Byte) :
    flush (putBits bs ⟨0, 0, out⟩) = ⟨0, 0, out ++ x⟩ := by
  obtain ⟨y, hy, he⟩ := flush_putBits_packs (writer_zero_ok out) rfl bs
  rw [he, h.unique hy]

/-! ### The passes -/

/-- Pass 2 of COMPRESS (R190 step 6): the codes of the unread bytes, in order. -/
theorem encodePass_spec {n : Nat} {s : State} (hn : unreadCount s.reader = n) (hr : s.reader.ipos ≤ s.reader.input.length) :
    encodePass n s = .done () { s with
      writer := putBits (s.reader.unread.flatMap fun q => (s.ct.get q).bits) s.writer
      reader := { s.reader with ipos := s.reader.input.length } } := by
  induction n generalizing s with
  | zero =>
    have hlen : s.reader.ipos = s.reader.input.length := by simp only [unreadCount] at hn; omega
    have hu : s.reader.unread = [] := by simp [BitReader.unread, hlen]
    rw [hu, ← hlen, encodePass]; rfl
  | succ n ih =>
    have hlt : s.reader.ipos < s.reader.input.length := by simp only [unreadCount] at hn; omega
    have hu : s.reader.unread = s.reader.input[s.reader.ipos] :: s.reader.input.drop (s.reader.ipos + 1) := by
      rw [BitReader.unread, List.drop_eq_getElem_cons hlt]
    have hav : srcAvail s.reader = true := by simpa [srcAvail] using hlt
    rw [encodePass, if_pos hav, srcRead_some (List.getElem?_eq_getElem hlt)]
    simp only [Run.lift_done, Run.bind_done]
    rw [ih (s := { s with
        reader := { s.reader with ipos := s.reader.ipos + 1 }
        writer := putBits (s.ct.get s.reader.input[s.reader.ipos]).bits s.writer })
      (by simp only [unreadCount] at hn ⊢; omega) hlt]
    rw [hu, List.flatMap_cons, putBits_append]
    rfl

/-- The payload's bits are the codes the table holds (R83, R85). -/
theorem payloadBits_eq {t : Tree} (h : t.leafCount ≤ 256) (xs : List Byte) :
    payloadBits t xs = xs.flatMap fun q => ((generateCodes t).get q).bits := by
  unfold payloadBits
  exact List.flatMap_congr fun q _ => (generateCodes_bits h q).symm

/-- COMPRESS after pass 1, for a count above 0 (R190 steps 2 to 6). -/
theorem compressCounted_spec {s : State} {start : Nat} {t : Tree} {region payload : List Byte}
    (hw : s.writer.acc = 0) (hn : s.writer.nacc = 0) (hstart : start ≤ s.reader.input.length)
    (ht : (buildTree s.tieMerged s.ft).tree = some t) (hg : PacksTo (treeBits t) region)
    (hp : PacksTo (payloadBits t (s.reader.input.drop start)) payload) :
    compressCounted start s = .done () (releaseTree { s with
      writer := ⟨0, 0, s.writer.out ++ countBytes s.ft.total ++ region ++ payload⟩
      reader := { s.reader with ipos := s.reader.input.length } }) := by
  have hc := (buildTree_leafCount ht).1
  have hwr : s.writer = ⟨0, 0, s.writer.out⟩ := by
    obtain ⟨⟩ := s; rename_i w _ _ _ _; obtain ⟨a, n, o⟩ := w; cases hw; cases hn; rfl
  have h1 : putBytes (countBytes s.ft.total) s.writer = ⟨0, 0, s.writer.out ++ countBytes s.ft.total⟩ := by
    rw [hwr]; exact putBytes_aligned _ _
  have h2 : flush (serialize t ⟨0, 0, s.writer.out ++ countBytes s.ft.total⟩) =
      ⟨0, 0, s.writer.out ++ countBytes s.ft.total ++ region⟩ := by
    rw [serialize_eq]; exact flush_putBits hg _
  simp only [compressCounted, buildInto_ft, buildInto_writer, h1]
  rw [withTree_some (t := t) (by simpa using ht)]
  simp only [h2, srcRewind]
  rw [payloadBits_eq (by omega)] at hp
  rw [encodePass_spec]
  case hn => rfl
  case hr => exact hstart
  simp only [Run.bind_done, BitReader.unread, buildInto_reader]
  rw [flush_putBits hp]
  rfl

/-- Step 3 of DECOMPRESS (R191): as many codes as asked for, each symbol straight to the sink. -/
theorem decodePass_spec {t : Tree} (cs : List (List Bool × Byte)) {s : State} (hc : ∀ c ∈ cs, c ∈ t.codes) (hr : s.reader.Ok)
    {tail : List Bool} (h : s.reader.bits = cs.flatMap Prod.fst ++ tail) (m : Nat) :
    ∃ r', Took s.reader (cs.flatMap Prod.fst) r' ∧ r'.bits = tail ∧
      decodePass t (cs.length + m) s =
        decodePass t m { s with reader := r', writer := { s.writer with out := s.writer.out ++ cs.map Prod.snd } } := by
  induction cs generalizing s with
  | nil => exact ⟨s.reader, .nil hr, by simpa using h, by simp⟩
  | cons c cs ih =>
    rw [List.flatMap_cons, List.append_assoc] at h
    obtain ⟨r1, h1, h2, h3⟩ := descend_took (hc c (by simp)) hr h
    obtain ⟨r', g1, g2, g3⟩ := ih (s := { s with reader := r1, writer := sinkWrite c.2 s.writer })
      (fun d hd => hc d (List.mem_cons_of_mem _ hd)) h2.ok h3
    refine ⟨r', h2.trans g1, g2, ?_⟩
    have e : (c :: cs).length + m = (cs.length + m) + 1 := by simp; omega
    rw [e, decodePass, h1]
    simp only [Run.lift_done, Run.bind_done]
    rw [g3]
    simp [sinkWrite]

/-- A payload that ends early (R191, R230): the symbols decoded before stay in OUT, IPOS is at the end. -/
theorem decodePass_short {t : Tree} {s : State} (m : Nat) (hr : s.reader.Ok)
    (h : ∀ p q, (p, q) ∈ t.codes → ¬ p <+: s.reader.bits) :
    ∃ r', decodePass t (m + 1) s = .raised .wrongInput { s with reader := r' } ∧ r'.Ok ∧ r'.input = s.reader.input ∧
      r'.bits = [] := by
  obtain ⟨r', h1, h2, h3, h4⟩ := descend_short hr h
  exact ⟨r', by simp only [decodePass, h1, Run.lift_raised, Run.bind_raised], h2, h3, h4⟩

end Sys2Proof.Machine
end

