-- ==== Sys2Proof/Laws/Containers.lean ====
section
/-! SUPPORT. Containers (30_encoding.md R80 to R87): how a byte sequence splits into the regions of a container, and its
payload into codes. -/

namespace Sys2Proof.Machine

/-! ### The count field -/

/-- The four bytes of a count join to it again (R81). -/
theorem joinCount_countBytes (n : Word) :
    joinCount (n.extractLsb' 0 8) (n.extractLsb' 8 8) (n.extractLsb' 16 8) (n.extractLsb' 24 8) = n := by
  apply BitVec.eq_of_toNat_eq
  simp only [joinCount, BitVec.toNat_append, BitVec.extractLsb'_toNat, Nat.shiftRight_eq_div_pow, Nat.shiftLeft_eq]
  have hn := n.isLt
  have join (x y : Nat) (h : y < 256) : x * 2 ^ 8 ||| y = x * 256 + y := by
    rw [Nat.mul_comm, ← Nat.two_pow_add_eq_or_of_lt (i := 8) h]; omega
  rw [join _ _ (by omega), join _ _ (by omega), join _ _ (by omega)]; omega

/-- A count up to COUNT_MAX is nonnegative as a signed number (R81, R8). -/
theorem count_sign {w : Word} (h : w.toNat ≤ 0x7FFFFFFF) : w.getLsbD 31 = false := by
  rw [BitVec.getLsbD, Nat.testBit_lt_two_pow (by omega)]

/-! ### Regions -/

/-- Every bit-string packs to some bytes (R84). -/
theorem PacksTo.exists (bs : List Bool) : ∃ x, PacksTo bs x := by
  obtain ⟨x, h, -⟩ := flush_putBits_packs (writer_zero_ok []) rfl bs
  exact ⟨x, h⟩

/-- What the serializer packs, the decoder accepts (R82, R84). -/
theorem PacksTo.treeRegion {t : Tree} {region : List Byte} (hk : t.leafCount ≤ 256) (h : PacksTo (treeBits t) region) :
    IsTreeRegion t region := by
  refine ⟨hk, _, ?_, h.2⟩
  have := h.1
  simp; omega

/-- The size of a tree region (R142). -/
theorem IsTreeRegion.length {t : Tree} {region : List Byte} (h : IsTreeRegion t region) :
    region.length = (10 * t.leafCount - 1 + 7) / 8 := by
  obtain ⟨-, pad, hp, he⟩ := h
  have hl := congrArg List.length he
  have := t.leafCount_pos
  rw [flatMap_byteBits_length, List.length_append, treeBits_length] at hl; omega

/-- Bytes that begin with a tree's bits begin with a tree region (R82, R84). -/
theorem exists_treeRegion {rest : List Byte} {t : Tree} {tail : List Bool} (hk : t.leafCount ≤ 256) (h : rest.flatMap byteBits = treeBits t ++ tail) :
    ∃ region payload, rest = region ++ payload ∧ IsTreeRegion t region := by
  have hl := congrArg List.length h
  rw [flatMap_byteBits_length, List.length_append] at hl
  have ht := treeBits_length t
  have hpos := t.leafCount_pos
  let n := ((treeBits t).length + 7) / 8
  have hn : n ≤ rest.length := by omega
  refine ⟨rest.take n, rest.drop n, (List.take_append_drop _ _).symm, hk, ((rest.take n).flatMap byteBits).drop (treeBits t).length, ?_, ?_⟩
  · rw [List.length_drop, flatMap_byteBits_length, List.length_take]; omega
  · have : treeBits t <+: (rest.take n).flatMap byteBits := by
      have h1 : (rest.take n).flatMap byteBits <+: treeBits t ++ tail := by
        rw [← h]; conv => rhs; rw [← List.take_append_drop n rest, List.flatMap_append]
        exact List.prefix_append _ _
      exact List.prefix_of_prefix_length_le (List.prefix_append _ _) h1 (by rw [flatMap_byteBits_length, List.length_take]; omega)
    obtain ⟨x, hx⟩ := this
    rw [← hx, List.drop_left]

/-! ### The payload -/

/-- Every bit-string is some codes, at most n, and a rest; with fewer than n the rest reaches no leaf (R87, R191). -/
theorem exists_codes (t : Tree) (n : Nat) (bs : List Bool) :
    ∃ (cs : List (List Bool × Byte)) (tail : List Bool), (∀ c ∈ cs, c ∈ t.codes) ∧ bs = cs.flatMap Prod.fst ++ tail ∧ cs.length ≤ n ∧
      (cs.length = n ∨ ∀ c ∈ t.codes, ¬ c.1 <+: tail) := by
  induction n generalizing bs with
  | zero => exact ⟨[], bs, by simp, rfl, by simp, .inl rfl⟩
  | succ n ih =>
    rcases codes_prefix_or_short t bs with ⟨p, q, rest, hp, rfl⟩ | h
    · obtain ⟨cs, tail, h1, rfl, h3, h4⟩ := ih rest
      refine ⟨(p, q) :: cs, tail, ?_, by simp, by simpa using h3, ?_⟩
      · intro c hc; rcases List.mem_cons.1 hc with rfl | hc
        · exact hp
        · exact h1 c hc
      · rcases h4 with h4 | h4
        · exact .inl (by simp [h4])
        · exact .inr h4
    · exact ⟨[], bs, by simp, rfl, by simp, .inr fun c hc => h c.1 c.2 hc⟩

/-- The payload of a sequence of symbols is a sequence of codes, one for each (R83). -/
theorem payload_codes {t : Tree} (xs : List Byte) (h : ∀ q ∈ xs, q ∈ t.symbols) :
    ∃ cs : List (List Bool × Byte), (∀ c ∈ cs, c ∈ t.codes) ∧ cs.map Prod.snd = xs ∧
      cs.flatMap Prod.fst = payloadBits t xs := by
  induction xs with
  | nil => exact ⟨[], by simp, rfl, rfl⟩
  | cons x xs ih =>
    obtain ⟨cs, h1, h2, h3⟩ := ih fun q hq => h q (by simp [hq])
    obtain ⟨p, hp⟩ := Tree.codeOf_isSome (h x (by simp))
    refine ⟨(p, x) :: cs, ?_, by simp [h2], ?_⟩
    · intro c hc; rcases List.mem_cons.1 hc with rfl | hc
      · exact Tree.codeOf_mem hp
      · exact h1 c hc
    · simp only [List.flatMap_cons, h3, payloadBits, hp]; rfl

/-- Equally many codes that begin one bit-string are the same codes: no code is a prefix of another (R163). -/
theorem codes_align {t : Tree} :
    ∀ (cs ds : List (List Bool × Byte)) (x y : List Bool), (∀ c ∈ cs, c ∈ t.codes) →
    (∀ c ∈ ds, c ∈ t.codes) → cs.length = ds.length →
    cs.flatMap Prod.fst ++ x <+: ds.flatMap Prod.fst ++ y → cs.flatMap Prod.fst = ds.flatMap Prod.fst
  | [], [], _, _, _, _, _, _ => rfl
  | [], _ :: _, _, _, _, _, h, _ => by simp at h
  | _ :: _, [], _, _, _, _, h, _ => by simp at h
  | c :: cs, d :: ds, x, y, hc, hd, hl, h => by
    simp only [List.flatMap_cons, List.append_assoc] at h ⊢
    have hcm : (c.1, c.2) ∈ t.codes := hc c (by simp)
    have hdm : (d.1, d.2) ∈ t.codes := hd d (by simp)
    have h1 : c.1 <+: d.1 ++ (ds.flatMap Prod.fst ++ y) := (List.prefix_append _ _).trans h
    have e : c.1 = d.1 := by
      rcases Nat.le_total c.1.length d.1.length with hle | hle
      · exact (Tree.codes_prefix_free hcm hdm (List.prefix_of_prefix_length_le h1 (List.prefix_append _ _) hle)).1
      · exact (Tree.codes_prefix_free hdm hcm (List.prefix_of_prefix_length_le (List.prefix_append _ _) h1 hle)).1.symm
    rw [e] at h ⊢
    rw [List.prefix_append_right_inj] at h
    rw [codes_align cs ds x y (fun c hc' => hc c (by simp [hc'])) (fun c hc' => hd c (by simp [hc'])) (by simpa using hl) h]

/-- The length of a payload, symbol by symbol or byte value by byte value (R86). -/
theorem flatMap_length_count (f : Byte → List Bool) (xs : List Byte) :
    (xs.flatMap f).length = (allBytes.map fun q => xs.count q * (f q).length).sum := by
  induction xs with
  | nil => simp
  | cons x xs ih =>
    have := sum_update allBytes_nodup (mem_allBytes x) (fun q => xs.count q * (f q).length)
      (fun q => (x :: xs).count q * (f q).length) (fun q hq => by rw [List.count_cons_of_ne (Ne.symm hq)])
    rw [List.flatMap_cons, List.length_append, ih]
    simp only [List.count_cons_self, Nat.add_mul, Nat.one_mul] at this
    omega

end Sys2Proof.Machine
end

