-- ==== Sys2Proof/Laws/Invariant.lean ====
section
/-! SUPPORT. The machine's invariant (10_state.md R22, R27 to R32; Safety.lean): what the error path and a reset leave
meets it, and so does a change of one part of an unlocked state that keeps that part in order. -/

namespace Sys2Proof.Machine

theorem zeroCodes_pad (sym : Byte) (j : Nat) : (CodeTable.zero.get sym).code.getLsbD j = false := by
  rw [CodeTable.get, zeroTable_get]; simp [CodeEntry.none]

theorem emptyStore_ok : NodeStore.empty.Ok :=
  ⟨by simp [NodeStore.empty], fun h => (by cases h), fun _ => rfl⟩

/-- The state an error leaves is in order (R226). -/
theorem takeError_inv (e : ErrorKind) (op : Byte) {s : State} (h : s.reader.ipos ≤ s.reader.input.length) :
    (takeError e op s).Inv where
  writer := writer_zero_ok _
  reader := ⟨by simp, h⟩
  freq := zeroTable_ok
  dcount := by simp
  store := emptyStore_ok
  codes := fun h => by cases h
  codePad := fun sym j _ => zeroCodes_pad sym j
  lock := fun _ => rfl
  errOp := fun h => by cases e <;> cases h

/-- The state a reset leaves is in order (R250). -/
theorem resetCore_inv {s : State} (h : s.reader.ipos ≤ s.reader.input.length) : (resetCore s).Inv where
  writer := writer_zero_ok _
  reader := ⟨by simp, h⟩
  freq := zeroTable_ok
  dcount := by simp
  store := emptyStore_ok
  codes := fun h => by cases h
  codePad := fun sym j _ => zeroCodes_pad sym j
  lock := fun h => absurd rfl h
  errOp := fun _ => rfl

section
variable {s : State} (h : s.Inv) (hs : s.status = .success)
include h hs

theorem State.Inv.setResult (v : Word) : ({ s with result := v } : State).Inv :=
  ⟨h.writer, h.reader, h.freq, h.dcount, h.store, h.codes, h.codePad, fun k => absurd hs k, h.errOp⟩

theorem State.Inv.setReader {r : BitReader} (hr : r.Ok) : ({ s with reader := r } : State).Inv :=
  ⟨h.writer, hr, h.freq, h.dcount, h.store, h.codes, h.codePad, fun k => absurd hs k, h.errOp⟩

theorem State.Inv.setWriter {w : BitWriter} (hw : w.Ok) : ({ s with writer := w } : State).Inv :=
  ⟨hw, h.reader, h.freq, h.dcount, h.store, h.codes, h.codePad, fun k => absurd hs k, h.errOp⟩

theorem State.Inv.setFreq {t : FreqTable} (ht : t.Ok) : ({ s with ft := t } : State).Inv :=
  ⟨h.writer, h.reader, ht, h.dcount, h.store, h.codes, h.codePad, fun k => absurd hs k, h.errOp⟩

/-- A new tree, CT_VALID cleared with it (R30, R254). -/
theorem State.Inv.setStore {n : NodeStore} (hn : n.Ok) : ({ s with store := n, ct := { s.ct with valid := false } } : State).Inv :=
  ⟨h.writer, h.reader, h.freq, h.dcount, hn, fun k => (by cases k), h.codePad, fun k => absurd hs k, h.errOp⟩

end

end Sys2Proof.Machine
end

