-- ==== Sys2Proof/Laws/PerInstr.lean ====
section
/-! SUPPORT. Statements made per instruction, one lemma for each constructor of Instr. -/

namespace Sys2Proof.Laws.Encoding

open Sys2Proof Sys2Proof.Machine

/-- R70 to R73 for one instruction: it is well formed; its word carries its opcode above its argument byte; the reserved
mask that R71 gives its opcode is that of its operand form, and the argument byte keeps clear of it. -/
def Statement (i : Instr) : Prop :=
  i.wellFormed = true ∧ opField (encode i) = opcodeOf i ∧ argField (encode i) = i.arg ∧
    reservedMask (opcodeOf i) = some i.form.reserved ∧ i.arg &&& i.form.reserved = 0

/-- What the table lemma of a constructor leaves to check. -/
theorem of_table {i : Instr} (h : reservedMask (opcodeOf i) = some i.form.reserved) : Statement i :=
  ⟨instr_wellFormed i, opField_append _ _, argField_append _ _, h, by
    simpa [Instr.wellFormed] using instr_wellFormed i⟩

theorem nop : Statement .nop := of_table (by decide)
theorem reset : Statement .reset := of_table (by decide)
theorem bwPutbit (bit : Bool) : Statement (.bwPutbit bit) := of_table rfl
theorem bwPutbyte (byte : Byte) : Statement (.bwPutbyte byte) := of_table rfl
theorem bwFlush : Statement .bwFlush := of_table (by decide)
theorem brGetbit : Statement .brGetbit := of_table (by decide)
theorem brGetbyte : Statement .brGetbyte := of_table (by decide)
theorem brAlign : Statement .brAlign := of_table (by decide)
theorem ftClear : Statement .ftClear := of_table (by decide)
theorem ftCount (sym : Byte) : Statement (.ftCount sym) := of_table rfl
theorem ftRead (sym : Byte) : Statement (.ftRead sym) := of_table rfl
theorem tbBuild : Statement .tbBuild := of_table (by decide)
theorem tsSerialize : Statement .tsSerialize := of_table (by decide)
theorem tdDeserialize : Statement .tdDeserialize := of_table (by decide)
theorem ctGenerate : Statement .ctGenerate := of_table (by decide)
theorem ctReadlen (sym : Byte) : Statement (.ctReadlen sym) := of_table rfl
theorem heEncode (sym : Byte) : Statement (.heEncode sym) := of_table rfl
theorem hdDecode : Statement .hdDecode := of_table (by decide)
theorem hdrWrite : Statement .hdrWrite := of_table (by decide)
theorem hdrRead : Statement .hdrRead := of_table (by decide)
theorem compress : Statement .compress := of_table (by decide)
theorem decompress : Statement .decompress := of_table (by decide)

end Sys2Proof.Laws.Encoding
end

