-- ==== Sys2Proof/Tests/Slice0.lean ====
section
/-! SUPPORT. Tests of the model. Expected values come from 95_test_vectors.md (the vector is named), from the encoding table of
30_encoding.md R71, or are worked out by hand from the rule named. The last part has, for every obligation with hypotheses,
concrete states and operands that meet them. -/

namespace Sys2Proof.Tests

open Sys2Proof Sys2Proof.Machine

/-! ### Decoding: a word of every command, bit by bit from 30_encoding.md R70 and R71 -/

theorem test_decode_nop : decode 0b0000000000000000 = .ok .nop := by decide
theorem test_decode_reset : decode 0b0000000100000000 = .ok .reset := by decide
theorem test_decode_bw_putbit_0 : decode 0b0001000000000000 = .ok (.bwPutbit false) := by decide
theorem test_decode_bw_putbit_1 : decode 0b0001000000000001 = .ok (.bwPutbit true) := by decide
theorem test_decode_bw_putbyte : decode 0b0001000110100110 = .ok (.bwPutbyte 0xA6) := by decide
theorem test_decode_bw_flush : decode 0b0001001000000000 = .ok .bwFlush := by decide
theorem test_decode_br_getbit : decode 0b0001100000000000 = .ok .brGetbit := by decide
theorem test_decode_br_getbyte : decode 0b0001100100000000 = .ok .brGetbyte := by decide
theorem test_decode_br_align : decode 0b0001101000000000 = .ok .brAlign := by decide
theorem test_decode_ft_clear : decode 0b0010000000000000 = .ok .ftClear := by decide
theorem test_decode_ft_count : decode 0b0010000101100001 = .ok (.ftCount 0x61) := by decide
theorem test_decode_ft_read : decode 0b0010001010000001 = .ok (.ftRead 0x81) := by decide
theorem test_decode_tb_build : decode 0b0010100000000000 = .ok .tbBuild := by decide
theorem test_decode_ts_serialize : decode 0b0011000000000000 = .ok .tsSerialize := by decide
theorem test_decode_td_deserialize : decode 0b0011000100000000 = .ok .tdDeserialize := by decide
theorem test_decode_ct_generate : decode 0b0011100000000000 = .ok .ctGenerate := by decide
theorem test_decode_ct_readlen : decode 0b0011100111111111 = .ok (.ctReadlen 0xFF) := by decide
theorem test_decode_he_encode : decode 0b0100000000000001 = .ok (.heEncode 0x01) := by decide
theorem test_decode_hd_decode : decode 0b0100100000000000 = .ok .hdDecode := by decide
theorem test_decode_hdr_write : decode 0b0101000000000000 = .ok .hdrWrite := by decide
theorem test_decode_hdr_read : decode 0b0101000100000000 = .ok .hdrRead := by decide
theorem test_decode_compress : decode 0b0110000000000000 = .ok .compress := by decide
theorem test_decode_decompress : decode 0b0110000100000000 = .ok .decompress := by decide

/-- Illegal words (R73) are rejected by name. -/
theorem test_decode_unassigned : decode 0x0200 = .error (.unassignedOpcode 0x02) ∧
    decode 0x8000 = .error (.unassignedOpcode 0x80) ∧ decode 0x6200 = .error (.unassignedOpcode 0x62) := by decide
theorem test_decode_reserved_bits : decode 0x0001 = .error (.reservedBits 0x00 0x01) ∧
    decode 0x1002 = .error (.reservedBits 0x10 0x02) ∧ decode 0x61FF = .error (.reservedBits 0x61 0xFF) := by decide

/-- The mnemonics and the forms are those of the opcode map (R71). -/
theorem test_mnemonics : opTable.map (fun row => (row.mnemonic, row.form)) = mnemonicForms := by decide

/-! ### Well-formedness: each operand rule of R75 refuses an ill-formed command -/

theorem test_wf_unknown_mnemonic : (AsmCommand.mk "BW_PUT" (some 1)).wellFormed = false := by decide
theorem test_wf_bit_too_large : (AsmCommand.mk "BW_PUTBIT" (some 2)).wellFormed = false := by decide
theorem test_wf_byte_too_large : (AsmCommand.mk "FT_COUNT" (some 256)).wellFormed = false := by decide
theorem test_wf_unwanted_operand : (AsmCommand.mk "NOP" (some 0)).wellFormed = false := by decide
theorem test_wf_missing_operand : (AsmCommand.mk "BW_PUTBIT" none).wellFormed = false ∧
    (AsmCommand.mk "HE_ENCODE" none).wellFormed = false := by decide
theorem test_wf_boundaries : (AsmCommand.mk "BW_PUTBIT" (some 1)).wellFormed = true ∧
    (AsmCommand.mk "FT_COUNT" (some 255)).wellFormed = true ∧ (AsmCommand.mk "NOP" none).wellFormed = true := by decide

/-- The written form (R75, R76): a character literal, a hexadecimal operand, a comment, a pseudo-command, an error. -/
theorem test_asm_char : assembleWords "FT_COUNT 'a' ; one" = .ok [0x2161] := by decide
theorem test_asm_pseudo : assembleWords "PUT_U32 0x0000000B" = .ok [0x110B, 0x1100, 0x1100, 0x1100] := by decide
theorem test_asm_error : assembleWords "BW_PUTBIT 2" = .error .badOperand := by decide

/-! ### One step of each command -/

/-- From reset with an input (R42). -/
def reading (bytes : List Byte) : State := { State.reset with reader := ⟨0, 0, bytes, 0⟩ }

/-- The answer is a next state with a property. -/
def Next (o : Host.Outcome State Fault Refusal) (p : State → Bool) : Bool :=
  match o with
  | .next s => p s
  | _ => false

/-- The tree that V-TD-1 reads from `58 6C 40`: 'a' under `low`, 'b' under `high`. -/
def abTree : Tree := .node (.leaf 0x61) (.leaf 0x62)

/-- The store that V-TD-1 leaves. -/
def abStore : NodeStore := ⟨[.internal 0 1 2, .leaf 0x61 0, .leaf 0x62 0], 0, true⟩

/-- A core that holds that tree. -/
def holding (bytes : List Byte) : State := { reading bytes with store := abStore }

/-- A core that holds that tree and its codes. -/
def coded (bytes : List Byte) : State := { holding bytes with ct := generateCodes abTree }

/-- A core locked by an error (R223). -/
def lockedCore : State := { State.reset with status := .wrongInput, errOp := 0x18 }

theorem test_nop : exec .nop (coded [1]) = .next (coded [1]) := rfl
theorem test_reset : Next (exec .reset lockedCore) (fun s => s.status == .success && s.errOp == 0) = true := by decide
/-- V-BW-2, the eighth bit. -/
theorem test_bw_putbit : Next (exec (.bwPutbit true) { State.reset with writer := ⟨0xA4, 7, []⟩ })
    (fun s => s.writer == ⟨0, 0, [0xA5]⟩) = true := by decide
/-- V-BW-5. -/
theorem test_bw_putbyte : Next (exec (.bwPutbyte 0xFF) { State.reset with writer := ⟨0xA0, 3, []⟩ })
    (fun s => s.writer == ⟨0xE0, 3, [0xBF]⟩ && infoView s == 0xC) = true := by decide
/-- V-BW-6 and V-BW-3. -/
theorem test_bw_flush : Next (exec .bwFlush { State.reset with writer := ⟨0xFE, 7, []⟩ }) (fun s => s.writer == ⟨0, 0, [0xFE]⟩) = true ∧
    Next (exec .bwFlush State.reset) (fun s => s.writer == ⟨0, 0, []⟩) = true := by decide
/-- V-BR-6. -/
theorem test_br_getbit : Next (exec .brGetbit (reading [0x80]))
    (fun s => s.result == 1 && s.reader.ipos == 1 && infoView s == 0xE0) = true := by decide
/-- V-BR-3. -/
theorem test_br_getbit_end : Next (exec .brGetbit State.reset)
    (fun s => s.status == .wrongInput && s.errOp == 0x18 && s.reader.ipos == 0) = true := by decide
/-- V-BR-2, its second word. -/
theorem test_br_getbyte : Next (exec .brGetbyte { reading [0x5A, 0xC3] with reader := ⟨0x5A, 7, [0x5A, 0xC3], 1⟩ })
    (fun s => s.result == 0xB5 && s.reader.ipos == 2 && infoView s == 0xE0) = true := by decide
/-- V-BR-4, its second word. -/
theorem test_br_align : Next (exec .brAlign { reading [0xFF] with reader := ⟨0xFF, 7, [0xFF], 1⟩ })
    (fun s => s.reader.rcnt == 0 && s.reader.ipos == 1) = true := by decide
/-- V-FT-2. -/
theorem test_ft_clear : Next (exec .ftClear { State.reset with ft := counted .zero 0x61 })
    (fun s => s.ft.get 0x61 == 0 && s.ft.total == 0) = true := by decide
/-- V-FT-1, its first word; IN is empty, as in program P4, whose count ends with STATUS 0 (log entry 11). -/
theorem test_ft_count : Next (exec (.ftCount 0x61) State.reset)
    (fun s => s.ft.get 0x61 == 1 && s.ft.get 0x62 == 0 && s.ft.total == 1 && s.status == .success && s.reader.ipos == 0) = true := by
  decide
/-- V-FT-4. -/
theorem test_ft_count_full :
    Next (exec (.ftCount 5) { State.reset with ft := ⟨FreqTable.zero.freq.set 0 0x7FFFFFFF, 0x7FFFFFFF⟩, result := 0x1234 })
      (fun s => s.status == .outOfMemory && s.errOp == 0x21 && s.result == 0x1234 && s.ft.total == 0 && s.ft.get 0 == 0) = true := by
  decide
/-- V-FT-3. -/
theorem test_ft_read : Next (exec (.ftRead 0x61) { State.reset with ft := counted .zero 0x61 }) (fun s => s.result == 1) = true := by
  decide
/-- V-TB-1. -/
theorem test_tb_build : Next (exec .tbBuild { State.reset with ft := counted .zero 0x61 })
    (fun s => s.store.nodes[510]? == some (.internal 1 509 0x61) && nodeFreq s.store.nodes 509 == 0 && s.store.root == 510 &&
      infoView s == 0x0003FE01) = true := by decide +kernel
/-- R133 by hand on three leaves of frequencies 0, 0 and 1; and R132: a merged node of frequency 0 goes behind two entries of
frequency 0 under AFTER, in front of them under BEFORE. -/
theorem test_merge_after :
    (mergeOnce .after ⟨[.leaf 0 0, .leaf 1 0, .leaf 2 1], [⟨0, 0, true⟩, ⟨1, 0, true⟩, ⟨2, 1, true⟩]⟩) =
      ⟨[.leaf 0 0, .leaf 1 0, .leaf 2 1, .internal 0 0 1], [⟨3, 0, false⟩, ⟨2, 1, true⟩]⟩ ∧
    mergePos .after 0 [⟨5, 0, true⟩, ⟨6, 0, false⟩, ⟨7, 1, true⟩] = 2 ∧
    mergePos .before 0 [⟨5, 0, true⟩, ⟨6, 0, false⟩, ⟨7, 1, true⟩] = 0 := by decide
/-- V-TS-1. -/
theorem test_ts_serialize : Next (exec .tsSerialize (holding []))
    (fun s => s.writer.out == [0x58, 0x6C, 0x40] && infoView s == 0x601) = true := by decide
/-- V-TS-4, its third word: the pending bit goes first. -/
theorem test_ts_serialize_pending :
    Next (exec .tsSerialize { reading [] with store := ⟨[.leaf 0x61 0], 0, true⟩, writer := ⟨0x80, 1, []⟩ })
      (fun s => s.writer == ⟨0, 0, [0xD8, 0x40]⟩ && infoView s == 0x201) = true := by decide
/-- V-TD-1. -/
theorem test_td_deserialize : Next (exec .tdDeserialize (reading [0x58, 0x6C, 0x40]))
    (fun s => s.store == abStore && s.reader.ipos == 3 && s.reader.rcnt == 0 && infoView s == 0x601) = true := by decide
/-- V-TD-2. -/
theorem test_td_deserialize_short : Next (exec .tdDeserialize (reading [0x58, 0x6C]))
    (fun s => s.status == .wrongInput && s.errOp == 0x31 && s.reader.ipos == 2 && infoView s == 0) = true := by decide
/-- V-CT-1 (the codes 'a' `0` and 'b' `1`). -/
theorem test_ct_generate : Next (exec .ctGenerate (holding []))
    (fun s => s.ct.get 0x61 == ⟨true, 1, 0⟩ && s.ct.get 0x62 == ⟨true, 1, 1⟩ && s.ct.get 0x63 == ⟨false, 0, 0⟩ &&
      infoView s == 0x603) = true := by decide
/-- V-CT-3: the later of two leaves wins. -/
theorem test_ct_generate_twice : Next (exec .ctGenerate { reading [] with store := ⟨[.internal 0 1 2, .leaf 0x61 0, .leaf 0x61 0], 0, true⟩ })
    (fun s => s.ct.get 0x61 == ⟨true, 1, 1⟩) = true := by decide
/-- V-CT-1 and V-CT-5. -/
theorem test_ct_readlen : Next (exec (.ctReadlen 0x61) (coded [])) (fun s => s.result == 0x101) = true ∧
    Next (exec (.ctReadlen 0x61) State.reset) (fun s => s.result == 0) = true := by decide
/-- R170 on V-CT-1's codes: 'b' is the one bit `1`. -/
theorem test_he_encode : Next (exec (.heEncode 0x62) (coded [])) (fun s => s.writer == ⟨0x80, 1, []⟩) = true := by decide
/-- V-HE-3. -/
theorem test_he_encode_no_code : Next (exec (.heEncode 0x63) (coded [])) (fun s => s.status == .wrongInput && s.errOp == 0x40 &&
    infoView s == 0) = true := by decide
/-- V-HD-1, its second word. -/
theorem test_hd_decode : Next (exec .hdDecode (holding [0x40]))
    (fun s => s.result == 0x61 && s.writer.out == [0x61] && s.reader.ipos == 1 && s.reader.rcnt == 7) = true := by decide
/-- V-HD-4: a root leaf reads no bits. -/
theorem test_hd_decode_root_leaf : Next (exec .hdDecode { reading [0x77] with store := ⟨[.leaf 0x61 0], 0, true⟩ })
    (fun s => s.result == 0x61 && s.writer.out == [0x61] && s.reader.ipos == 0) = true := by decide
/-- V-HDR-5, its second word. -/
theorem test_hdr_write : Next (exec .hdrWrite { State.reset with writer := ⟨0x80, 1, []⟩ })
    (fun s => s.writer == ⟨0, 1, [0x80, 0, 0, 0]⟩ && infoView s == 4) = true := by decide
/-- V-HDR-6. -/
theorem test_hdr_read : Next (exec .hdrRead (reading [0x78, 0x56, 0x34, 0x12]))
    (fun s => s.dcount == 0x12345678 && s.result == 0x12345678 && s.reader.ipos == 4) = true := by decide
/-- V-HDR-3. -/
theorem test_hdr_read_negative : Next (exec .hdrRead (reading [0, 0, 0, 0x80]))
    (fun s => s.status == .wrongInput && s.errOp == 0x51 && s.reader.ipos == 4 && s.dcount == 0) = true := by decide
/-- V-PL-5. -/
theorem test_compress_empty : Next (exec .compress State.reset)
    (fun s => s.status == .success && s.writer.out == [0, 0, 0, 0] && s.reader.ipos == 0 && s.ft.total == 0) = true := by decide
/-- V-PL-9. -/
theorem test_decompress : Next (exec .decompress (reading [2, 0, 0, 0, 0x58, 0x6C, 0x40, 0x40]))
    (fun s => s.status == .success && s.writer.out == [0x61, 0x62] && s.reader.ipos == 8 && s.dcount == 2 && infoView s == 0) = true := by
  decide
/-- V-PL-20. -/
theorem test_decompress_root_leaf : Next (exec .decompress (reading [3, 0, 0, 0, 0xB0, 0x80]))
    (fun s => s.writer.out == [0x61, 0x61, 0x61] && s.dcount == 3 && s.reader.ipos == 6) = true := by decide
/-- V-BW-4: a reserved argument bit is refused, and Release drops the pending bit. -/
theorem test_issue_reserved : Next (issue 0x1002 { State.reset with writer := ⟨0x80, 1, []⟩ })
    (fun s => s.status == .illegalCommand && s.errOp == 0x10 && s.writer == ⟨0, 0, []⟩) = true := by decide

/-! ### Witnesses: for every obligation with hypotheses, concrete values that meet them, one for each clause -/

/-- A core with TOTAL at its largest (R27). -/
def fullCore : State := { State.reset with ft := ⟨FreqTable.zero.freq.set 0 0x7FFFFFFF, 0x7FFFFFFF⟩ }

/-- A core in which only 'a' has been counted. -/
def countedA : State := { State.reset with ft := counted .zero 0x61 }

/-- The queue of the host's moves, on the reset state. -/
def asked (moves : List HostMove) : State := { State.reset with hostQueue := moves }

theorem abStore_tree : abStore.tree = some abTree := by decide

theorem abStore_ok : abStore.Ok :=
  ⟨by decide, fun _ => ⟨abTree, abStore_tree, by decide⟩, fun h => by cases h⟩

theorem coded_inv (bytes : List Byte) : (coded bytes).Inv where
  writer := writer_zero_ok _
  reader := ⟨by simp [coded, holding, reading], Nat.zero_le _⟩
  freq := zeroTable_ok
  dcount := by simp [coded, holding, reading, State.reset]
  store := abStore_ok
  codes := fun _ => ⟨rfl, abTree, abStore_tree, rfl⟩
  codePad := generateCodes_pad (by decide)
  lock := fun h => absurd rfl h
  errOp := fun _ => rfl

theorem reading_status (bytes : List Byte) : (reading bytes).status = .success := rfl
theorem reading_unread (bytes : List Byte) : (reading bytes).reader.unread = bytes := rfl
theorem reading_ok (bytes : List Byte) : (reading bytes).reader.Ok := ⟨by simp [reading], Nat.zero_le _⟩

/-- The premise `STATUS = SUCCESS`, and the accumulators the writing commands find: empty, one bit pending, full but one. -/
theorem witness_unlocked : State.reset.status = .success ∧ State.reset.writer.Ok ∧ State.reset.writer.nacc = 0 ∧
    State.reset.writer.acc = 0 ∧ State.reset.reader.Ok ∧ State.reset.store.Ok ∧ State.reset.ft.Ok :=
  ⟨rfl, writer_zero_ok _, rfl, rfl, ⟨by decide, by decide⟩, emptyStore_ok, zeroTable_ok⟩

theorem witness_DecodeOfEncode : (Instr.bwPutbyte 0xFF).wellFormed = true ∧ Instr.decompress.wellFormed = true := by decide
theorem witness_EncodeOfDecode : decode 0x1001 = .ok (.bwPutbit true) ∧ decode 0x6100 = .ok .decompress := by decide

theorem witness_IllegalWordsAreRefused_unassigned : IllegalWord 0x0200 ∧ State.reset.status = .success := ⟨.inl rfl, rfl⟩
theorem witness_IllegalWordsAreRefused_reserved : IllegalWord 0x1002 ∧ State.reset.status = .success :=
  ⟨.inr ⟨0xFE, by decide⟩, rfl⟩
theorem witness_IllegalWordsAreRefused_locked : lockedCore.status ≠ .success := by decide
theorem witness_IllegalWordsAreRefused_high : 0x80 ≤ ((0x8000 : CmdWord).extractLsb' 8 8).toNat ∧
    0x80 ≤ ((0xFFFF : CmdWord).extractLsb' 8 8).toNat := by decide

theorem witness_StepRunsTheDecodedCommand_write :
    (asked [.writeReg 0 0xFFFF2161, .powerOn]).hostQueue = .writeReg 0 0xFFFF2161 :: [.powerOn] ∧
      decode ((0xFFFF2161 : Word).extractLsb' 0 16) = .ok (.ftCount 0x61) := by decide
theorem witness_StepRunsTheDecodedCommand_word : 0x2161 < 2 ^ 16 ∧ decodeTableWord 16 0x2161 = some (.ftCount 0x61) := by decide
theorem witness_StepRunsTheDecodedCommand_idle : State.reset.hostQueue = [] := rfl

theorem witness_CommandProcedure_locked : (0x2161 : CmdWord) ≠ 0x0100 ∧ lockedCore.status ≠ .success := by decide
theorem witness_CommandProcedure_unassigned : (0x0200 : CmdWord) ≠ 0x0100 ∧ State.reset.status = .success ∧
    reservedMask ((0x0200 : CmdWord).extractLsb' 8 8) = none := by decide
theorem witness_CommandProcedure_reserved : (0x0101 : CmdWord) ≠ 0x0100 ∧ State.reset.status = .success ∧
    reservedMask ((0x0101 : CmdWord).extractLsb' 8 8) = some 0xFF ∧ (0x0101 : CmdWord).extractLsb' 0 8 &&& 0xFF ≠ 0 := by decide
theorem witness_CommandProcedure_precondition : (0x3000 : CmdWord) ≠ 0x0100 ∧ State.reset.status = .success ∧
    reservedMask ((0x3000 : CmdWord).extractLsb' 8 8) = some 0xFF ∧ (0x3000 : CmdWord).extractLsb' 0 8 &&& 0xFF = 0 ∧
    ¬ precondition ((0x3000 : CmdWord).extractLsb' 8 8) State.reset := ⟨by decide, rfl, by decide, by decide, fun h => by
      have := h.1 (.inl (by decide)); cases this⟩
theorem witness_CommandProcedure_accepted : (0x1800 : CmdWord) ≠ 0x0100 ∧ State.reset.status = .success ∧
    reservedMask ((0x1800 : CmdWord).extractLsb' 8 8) = some 0xFF ∧ (0x1800 : CmdWord).extractLsb' 0 8 &&& 0xFF = 0 ∧
    precondition ((0x1800 : CmdWord).extractLsb' 8 8) State.reset ∧
    ∃ t, exec .brGetbit State.reset = .next t ∧ t.status ≠ .success :=
  ⟨by decide, rfl, by decide, by decide, ⟨by decide, by decide⟩, _, rfl, by decide⟩

theorem witness_ErrorLockIgnoresAllButReset : lockedCore.status ≠ .success ∧ issue 0x2161 lockedCore = .next lockedCore ∧
    (0x2161 : CmdWord) ≠ 0x0100 ∧ issue 0x0100 lockedCore = .next (resetState lockedCore) :=
  ⟨by decide, rfl, by decide, rfl⟩

theorem witness_PreconditionsGuardTreeAndCodes_noTree : State.reset.status = .success ∧ State.reset.store.valid = false ∧
    State.reset.ct.valid = false := by decide
theorem witness_PreconditionsGuardTreeAndCodes_refused : ∃ t, exec .tsSerialize State.reset = .next t ∧ t.status = .illegalCommand :=
  ⟨_, rfl, rfl⟩
theorem witness_PreconditionsGuardTreeAndCodes_codes : (coded []).Inv ∧ (coded []).ct.valid = true := ⟨coded_inv _, rfl⟩

theorem witness_ErrorPathReleases : (reading [0x12]).status = .success ∧
    ∃ t, exec .brGetbyte { reading [0x12] with reader := ⟨0x12, 7, [0x12], 1⟩ } = .next t ∧ t.status ≠ .success :=
  ⟨rfl, _, rfl, by decide⟩

theorem witness_ErrorKindsByCommand_memory : fullCore.status = .success ∧
    ∃ t, exec (.ftCount 5) fullCore = .next t ∧ t.status = .outOfMemory := ⟨rfl, _, rfl, rfl⟩
theorem witness_ErrorKindsByCommand_input : ∃ t, exec .brGetbit State.reset = .next t ∧ t.status = .wrongInput := ⟨_, rfl, rfl⟩
theorem witness_ErrorKindsByCommand_illegal : ∃ t, exec .hdDecode State.reset = .next t ∧ t.status = .illegalCommand := ⟨_, rfl, rfl⟩
theorem witness_ErrorKindsByCommand_success : ∃ t, exec .nop State.reset = .next t ∧ t.status = .success := ⟨_, rfl, rfl⟩

theorem witness_ResetCommandResets : (0xFF : Byte) ≠ 0 ∧ State.reset.status = .success ∧ lockedCore.status ≠ .success := by decide
theorem witness_NopDoesNothing : (0xFF : Byte) ≠ 0 ∧ State.reset.status = .success := by decide

theorem witness_RegisterPort : (asked [.readReg 5]).hostQueue = .readReg 5 :: [] ∧ (asked [.readReg 5]).store.nodes.length ≤ 511 ∧
    (asked [.writeReg 0 0x2161]).hostQueue = .writeReg 0 0x2161 :: [] ∧
    (7 : Nat) ≠ 0 ∧ (asked [.writeReg 7 1]).hostQueue = .writeReg 7 1 :: [] := by decide
/-- R21, R37: every address, on V-HE-1's kind of state (a tree of 3 nodes, codes, 3 pending bits, 7 held bits). -/
theorem test_register_port :
    (List.range 8).map (readReg { coded [1] with
      errOp := 0x22, result := 7, dcount := 9, writer := ⟨0xC0, 3, []⟩, reader := ⟨0, 7, [1], 0⟩ }) =
      [0, 0, 0x22, 7, 0, 0x6EF, 9, 0] := by decide

theorem witness_OnlySixCommandsWriteResult : ∃ t, exec (.ftRead 0x61) countedA = .next t ∧ t.result ≠ countedA.result :=
  ⟨_, rfl, by decide⟩
theorem witness_StreamsAreReadForwardAndAppended : (∃ t, exec .brGetbit (reading [1]) = .next t) ∧
    (reading [1]).reader.ipos ≤ (reading [1]).reader.input.length := ⟨⟨_, rfl⟩, by decide⟩

theorem witness_PutBitFillsAccFromTheTop : (0xFE : Byte) &&& 0xFE ≠ 0 ∧ (0x02 : Byte) &&& 0xFE ≠ 0 ∧
    State.reset.status = .success := by decide
theorem witness_GetBitFetchesLazily_held : (8 : BitVec 4) ≠ 0 ∧ (1 : BitVec 4) ≠ 0 ∧ (reading [1]).status = .success := by decide
theorem witness_GetBitFetchesLazily_fetch : (reading [0x80]).reader.rcnt = 0 ∧
    (reading [0x80]).reader.input[(reading [0x80]).reader.ipos]? = some 0x80 := by decide
theorem witness_GetBitFetchesLazily_end : State.reset.reader.rcnt = 0 ∧
    State.reset.reader.input.length ≤ State.reset.reader.ipos := by decide
theorem witness_GetByteJoinsHeldAndFetchedBits : (7 : BitVec 4).toNat ≤ 7 ∧ (0 : BitVec 4).toNat ≤ 7 ∧
    (reading [0xC3]).reader.input[(reading [0xC3]).reader.ipos]? = some 0xC3 ∧
    ({ State.reset with reader := ⟨0xA5, 8, [], 0⟩ } : State).reader.rcnt = 8 ∧
    State.reset.reader.input.length ≤ State.reset.reader.ipos := by decide

theorem witness_WriterAndReaderAreInverses : (reading [0xA0, 0xFF]).status = .success ∧ (reading [0xA0, 0xFF]).reader.rcnt = 0 ∧
    (reading [0xA0, 0xFF]).reader.unread = [0xA0] ++ [0xFF] ∧ 7 < 8 * [(0xA0 : Byte)].length := by decide

theorem witness_CountAddsOne_below : State.reset.ft.total ≠ 0x7FFFFFFF ∧ (0x7FFFFFFE : Word) ≠ 0x7FFFFFFF ∧ State.reset.ft.Ok :=
  ⟨by decide, by decide, zeroTable_ok⟩
theorem witness_CountAddsOne_full : fullCore.status = .success ∧ fullCore.ft.total = 0x7FFFFFFF := ⟨rfl, rfl⟩

theorem witness_BuildMergesTheTwoSmallest : State.reset.status = .success ∧ 254 < 255 ∧ InForest [] 0 255 ∧ ¬ InForest [] 0 256 :=
  ⟨rfl, by decide, ⟨by decide, fun j _ _ _ _ h => by simp at h⟩, fun h => absurd h.1 (by decide)⟩
theorem witness_BuiltTreeHasEverySymbolOnce : countedA.status = .success ∧ countedA.ft.Ok ∧
    ∃ u, exec .tbBuild countedA = .next u := ⟨rfl, (counted_ok zeroTable_ok (by decide) _).1, _, exec_tbBuild rfl⟩
theorem witness_SingleSymbolGetsCodeOne : countedA.status = .success ∧ countedA.ft.get 0x61 ≠ 0 ∧
    ∀ q, q ≠ 0x61 → countedA.ft.get q = 0 :=
  ⟨rfl, by decide, fun q h => by
    show (counted .zero 0x61).get q = 0
    rw [counted_get, if_neg h]; simp [FreqTable.zero, FreqTable.get]⟩

theorem witness_SerializeWritesTheTreeRegion : (holding []).status = .success ∧ (holding []).store.Ok ∧
    (holding []).store.valid = true ∧ (holding []).writer.Ok ∧ State.reset.store.valid = false :=
  ⟨rfl, abStore_ok, rfl, writer_zero_ok _, rfl⟩
theorem witness_SerializedSize : (holding []).store.tree = some abTree ∧ (holding []).writer.nacc = 0 := ⟨abStore_tree, rfl⟩
theorem witness_DeserializeRebuildsTheTree_tree : (reading [0xB0, 0x80]).reader.Ok ∧
    (reading [0xB0, 0x80]).reader.bits = treeBits (.leaf 0x61) ++ List.replicate 7 false ∧ (Tree.leaf 0x61).leafCount ≤ 256 :=
  ⟨reading_ok _, by decide, by decide⟩
theorem treeBits_ne (t : Tree) (tail : List Bool) : ([] : List Bool) ≠ treeBits t ++ tail := by cases t <;> simp [treeBits]
theorem witness_DeserializeRebuildsTheTree_none :
    ∀ t rest, State.reset.reader.bits = treeBits t ++ rest → 256 < t.leafCount :=
  fun t rest h => absurd h (treeBits_ne t rest)
theorem witness_SerializeThenDeserializeGivesTheTree : (reading [0x58, 0x6C, 0x40, 9]).reader.rcnt = 0 ∧
    (reading [0x58, 0x6C, 0x40, 9]).reader.unread = [0x58, 0x6C, 0x40] ++ [9] := by decide

theorem witness_GenerateRecordsLeafPaths : abTree.codeOf 0x62 = some [true] ∧ abTree.codeOf 0x63 = none := by decide
theorem witness_GeneratedCodesArePrefixFree : ∃ u, exec .ctGenerate (holding []) = .next u ∧ (0x61 : Byte) ≠ 0x62 ∧
    (u.ct.get 0x61).valid = true ∧ (u.ct.get 0x62).valid = true :=
  ⟨_, exec_ctGenerate (s := holding []) rfl rfl abStore_tree, by decide, by decide, by decide⟩

theorem witness_EncodePutsTheCode : (coded []).status = .success ∧ (coded []).ct.valid = true ∧ ((coded []).ct.get 0x61).valid = true ∧
    ((coded []).ct.get 0x63).valid = false ∧ (holding []).ct.valid = false ∧ (coded []).writer.Ok :=
  ⟨rfl, rfl, by decide, by decide, rfl, writer_zero_ok _⟩
theorem witness_DecodeDescendsToALeaf_leaf : (holding [0x40]).reader.Ok ∧ (holding [0x40]).store.tree = some abTree ∧
    ([false], 0x61) ∈ abTree.codes ∧ (holding [0x40]).reader.bits = [false] ++ [true, false, false, false, false, false, false] :=
  ⟨reading_ok _, abStore_tree, by decide, by decide⟩
theorem witness_DecodeDescendsToALeaf_short : ∀ p sym, (p, sym) ∈ abTree.codes → ¬ p <+: (holding []).reader.bits := by
  intro p sym h
  obtain ⟨b, q, rfl, -⟩ := Tree.mem_codes_node.1 h
  simp [holding, reading, BitReader.bits, byteBits, State.reset]

theorem witness_ReadCountLoadsDcount_good : (reading [0xFF, 0xFF, 0xFF, 0x7F]).reader.Ok ∧
    (reading [0xFF, 0xFF, 0xFF, 0x7F]).reader.bits = byteBits 0xFF ++ byteBits 0xFF ++ byteBits 0xFF ++ byteBits 0x7F ++ [] ∧
    (0x7F : Byte).getLsbD 7 = false := ⟨reading_ok _, by decide, by decide⟩
theorem witness_ReadCountLoadsDcount_negative :
    (reading [0, 0, 0, 0x80]).reader.bits = byteBits 0 ++ byteBits 0 ++ byteBits 0 ++ byteBits 0x80 ++ [] ∧
    (0x80 : Byte).getLsbD 7 = true := by decide
theorem witness_ReadCountLoadsDcount_short : (reading [1, 2, 3]).reader.bits.length < 32 := by decide
theorem witness_WriteCountPutsTotal : State.reset.writer.Ok ∧ State.reset.writer.nacc = 0 ∧ State.reset.ft.Ok :=
  ⟨writer_zero_ok _, rfl, zeroTable_ok⟩

theorem witness_EncoderAndDecoderAreInverses : abTree.symbols.Nodup ∧ (∀ x ∈ [(0x61 : Byte), 0x62], x ∈ abTree.symbols) ∧
    abTree.leafCount ≤ 256 ∧ (coded []).status = .success ∧ (coded []).writer.Ok ∧ (coded []).writer.nacc = 0 ∧
    (coded []).ct = generateCodes abTree ∧ (holding [0x40, 9]).status = .success ∧ (holding [0x40, 9]).store.valid = true ∧
    (holding [0x40, 9]).store.tree = some abTree ∧ (holding [0x40, 9]).reader.rcnt = 0 ∧
    (holding [0x40, 9]).reader.unread = [0x40] ++ [9] :=
  ⟨by decide, by decide, by decide, rfl, writer_zero_ok _, rfl, rfl, rfl, rfl, abStore_tree, rfl, rfl⟩

theorem witness_CompressWritesTheContainer : (reading [0x61]).status = .success ∧ (reading [0x61]).reader.Ok ∧
    (reading [0x61]).reader.unread.length ≤ 0x7FFFFFFF ∧ (reading []).reader.unread.length ≤ 0x7FFFFFFF :=
  ⟨rfl, reading_ok _, by decide, by decide⟩
theorem witness_CompressWritesTheContainer_longest : (reading (List.replicate 0x7FFFFFFF 0)).status = .success ∧
    (reading (List.replicate 0x7FFFFFFF 0)).reader.Ok ∧
    (reading (List.replicate 0x7FFFFFFF 0)).reader.unread.length ≤ 0x7FFFFFFF := by
  refine ⟨reading_status _, reading_ok _, ?_⟩
  rw [reading_unread, List.length_replicate]
theorem witness_CompressWritesTheContainer_tooLong : (reading (List.replicate 0x80000000 0)).status = .success ∧
    0x7FFFFFFF < (reading (List.replicate 0x80000000 0)).reader.unread.length := by
  refine ⟨reading_status _, ?_⟩
  rw [reading_unread, List.length_replicate]; omega
theorem witness_CompressedSize_empty : ∃ u, exec .compress State.reset = .next u ∧ u.status = .success ∧
    State.reset.reader.unread = [] := ⟨_, rfl, rfl, rfl⟩
theorem witness_CompressedSize_one : ∃ u, exec .compress (reading [0x61]) = .next u ∧ u.status = .success ∧
    (reading [0x61]).reader.unread ≠ [] := by
  obtain ⟨-, -, -, -, ⟨t, ht, -⟩, -⟩ := buildTree_spec .after (freqOf [0x61])
  obtain ⟨region, hg⟩ := PacksTo.exists (treeBits t)
  obtain ⟨payload, hp⟩ := PacksTo.exists (payloadBits t [0x61])
  have hc := countPass_spec (s := release (reading [0x61])) [] (by rw [freqOf_nil]; rfl) (by decide) (by decide)
  rw [if_pos (by decide)] at hc
  obtain ⟨s1, h1, hf, hst, ht', ha, hn, hi⟩ : ∃ s1, countPass (unreadCount (release (reading [0x61])).reader) (release (reading [0x61])) =
      .done () s1 ∧ s1.ft = freqOf [0x61] ∧ s1.status = .success ∧ s1.tieMerged = .after ∧ s1.writer.acc = 0 ∧
      s1.writer.nacc = 0 ∧ s1.reader.input = [0x61] := ⟨_, hc, rfl, rfl, rfl, rfl, rfl, rfl⟩
  have h2 := compressCounted_spec (s := s1) (start := 0) (t := t) (region := region) (payload := payload) ha hn (Nat.zero_le _)
    (by rw [ht', hf]; exact ht) hg (by rw [hi]; exact hp)
  have h3 := exec_compress (s := reading [0x61]) rfl
  rw [h1, Run.bind_done, if_neg (by rw [hf]; decide)] at h3
  exact ⟨_, h3.trans (congrArg (finish 0x60) h2), hst, by decide⟩

theorem abRegion : IsTreeRegion abTree [0x58, 0x6C, 0x40] := ⟨by decide, List.replicate 5 false, by decide, by decide⟩
theorem witness_DecompressDecodesContainers_empty : (reading [0, 0, 0, 0, 0xFF]).reader.unread = 0 :: 0 :: 0 :: 0 :: [0xFF] ∧
    (0 : Byte).getLsbD 7 = false ∧ ((0 : Byte) ++ (0 : Byte) ++ (0 : Byte) ++ (0 : Byte) : Word) = 0 := by decide
theorem witness_DecompressDecodesContainers_two :
    (reading [2, 0, 0, 0, 0x58, 0x6C, 0x40, 0x40]).reader.unread = 2 :: 0 :: 0 :: 0 :: ([0x58, 0x6C, 0x40] ++ [0x40]) ∧
    IsTreeRegion abTree [0x58, 0x6C, 0x40] ∧
    PayloadHolds abTree [0x40] [([false], 0x61), ([true], 0x62)] (List.replicate 6 false) ∧
    [([false], (0x61 : Byte)), ([true], 0x62)].length = ((0 : Byte) ++ (0 : Byte) ++ (0 : Byte) ++ (2 : Byte) : Word).toNat :=
  ⟨by decide, abRegion, ⟨by decide, by decide⟩, by decide⟩
/-- The largest count, over a root leaf. -/
theorem witness_DecompressDecodesContainers_largest : IsTreeRegion (.leaf 0x61) [0xB0, 0x80] ∧
    PayloadHolds (.leaf 0x61) [] (List.replicate 0x7FFFFFFF ([], 0x61)) [] ∧ (0x7F : Byte).getLsbD 7 = false ∧
    (List.replicate 0x7FFFFFFF (([], 0x61) : List Bool × Byte)).length =
      ((0x7F : Byte) ++ (0xFF : Byte) ++ (0xFF : Byte) ++ (0xFF : Byte) : Word).toNat := by
  refine ⟨⟨by decide, List.replicate 7 false, by decide, by decide⟩, ⟨fun c hc => ?_, ?_⟩, by decide, ?_⟩
  · rw [(List.mem_replicate.1 hc).2]; decide
  · have : (List.replicate 0x7FFFFFFF (([], 0x61) : List Bool × Byte)).flatMap Prod.fst = [] :=
      List.flatMap_eq_nil_iff.2 fun c hc => by rw [(List.mem_replicate.1 hc).2]
    rw [this]; rfl
  · rw [List.length_replicate]; decide

theorem witness_RefusedContainer_short : RefusedContainer [] ∧ RefusedContainer [1, 0, 0] := ⟨.inl (by decide), .inl (by decide)⟩
theorem witness_RefusedContainer_negative : RefusedContainer [0, 0, 0, 0x80] :=
  .inr ⟨0, 0, 0, 0x80, [], rfl, .inl (by decide)⟩
theorem witness_RefusedContainer_noTree : RefusedContainer [1, 0, 0, 0] :=
  .inr ⟨1, 0, 0, 0, [], rfl, .inr ⟨by decide, by decide, .inl fun t tail h => absurd h (treeBits_ne t tail)⟩⟩
theorem abShort : ∀ c ∈ abTree.codes, ¬ c.1 <+: ([] : List Bool) := by decide
theorem witness_RefusedContainer_payload : RefusedContainer [1, 0, 0, 0, 0x58, 0x6C, 0x40] :=
  .inr ⟨1, 0, 0, 0, _, rfl, .inr ⟨by decide, by decide, .inr ⟨abTree, [0x58, 0x6C, 0x40], [], [], rfl, abRegion, by decide, [],
    ⟨by decide, rfl⟩, abShort⟩⟩⟩
theorem witness_RefusedContainer_not : ¬ RefusedContainer [0, 0, 0, 0] := by
  rintro (h | ⟨b0, b1, b2, b3, rest, h, hb⟩)
  · exact absurd h (by decide)
  · cases h
    rcases hb with hb | ⟨-, h0, -⟩
    · exact absurd hb (by decide)
    · exact h0 (by decide)

/-- Eight codes in the one payload byte, and a ninth asked for. -/
theorem witness_DecompressDecodesContainers_endsEarly :
    (reading [9, 0, 0, 0, 0x58, 0x6C, 0x40, 0x40]).reader.unread = 9 :: 0 :: 0 :: 0 :: ([0x58, 0x6C, 0x40] ++ [0x40]) ∧
    PayloadEndsEarly ((0 : Byte) ++ (0 : Byte) ++ (0 : Byte) ++ (9 : Byte) : Word).toNat abTree [0x40]
      (([false], 0x61) :: ([true], 0x62) :: List.replicate 6 ([false], 0x61)) :=
  ⟨by decide, by decide, [], ⟨by decide, by decide⟩, abShort⟩

theorem witness_RoundTrip : (reading [0, 0, 0, 0, 0xFF]).reader.Ok ∧
    (reading [0, 0, 0, 0, 0xFF]).reader.unread = [0, 0, 0, 0] ++ [0xFF] := ⟨reading_ok _, rfl⟩
theorem witness_TruncatedContainersAreRefused : (reading [0, 0, 0]).reader.unread = [0, 0, 0] ∧
    [(0 : Byte), 0, 0] <+: [0, 0, 0, 0] ∧ [(0 : Byte), 0, 0] ≠ [0, 0, 0, 0] := by decide
theorem witness_CompressIsDeterminedByInput : (reading [1, 2]).tieMerged = (coded [1, 2]).tieMerged ∧
    (reading [1, 2]).reader.unread = (coded [1, 2]).reader.unread ∧ (coded [1, 2]).reader.Ok := ⟨rfl, rfl, reading_ok _⟩
theorem witness_ManualCompressMatchesCompress : [(0x61 : Byte)] ≠ [] ∧ [(0x61 : Byte)].length ≤ 0x7FFFFFFF ∧
    (reading [0x61]).tieMerged = State.reset.tieMerged ∧ (reading [0x61]).reader.unread = [0x61] := by decide
theorem witness_PutU32MatchesHdrWrite : fullCore.status = .success ∧ fullCore.ft.total = 0x7FFFFFFF := ⟨rfl, rfl⟩

theorem witness_NoStaleCodeTable_replaced : ∃ t, exec .tbBuild (coded []) = .next t ∧ t.store ≠ (coded []).store ∧
    (coded []).status = .success ∧ t.ct.valid = false ∧ (coded []).ct.valid = true := by
  refine ⟨_, exec_tbBuild (s := coded []) rfl, fun h => ?_, rfl, rfl, rfl⟩
  obtain ⟨-, h2, -⟩ := buildTree_spec (coded []).tieMerged (coded []).ft
  have h := congrArg NodeStore.root h
  rw [show (buildInto (coded [])).store.root = 510 from h2] at h
  exact absurd h (by decide)
theorem witness_NoStaleCodeTable_counted : ∃ t, exec (.ftCount 5) (coded []) = .next t ∧ t.status = .success := ⟨_, rfl, rfl⟩

theorem witness_WrapperSelects_compress : (0x63 : Byte) = 0x63 ∧ ∃ u, issue 0x6000 (reading []) = .next u :=
  ⟨rfl, _, by rw [issue_ok (i := .compress) (by decide)]; exact exec_compress (s := reading []) rfl⟩
theorem witness_WrapperSelects_decompress : ∃ u, issue 0x6100 (reading [0, 0, 0, 0]) = .next u :=
  ⟨_, by rw [issue_ok (i := .decompress) (by decide)]; exact exec_decompress (s := reading [0, 0, 0, 0]) rfl⟩
theorem witness_WrapperSelects_other : (0x62 : Byte) ≠ 0x63 ∧ (0x62 : Byte) ≠ 0x64 ∧ (0x65 : Byte) ≠ 0x63 ∧ (0x65 : Byte) ≠ 0x64 := by
  decide

theorem witness_EveryStepKeepsTheInvariant : (coded [0x40]).Inv ∧ ∃ t, step (coded [0x40]) = .next t := ⟨coded_inv _, _, rfl⟩
theorem witness_EveryRunIsSafe : (coded [0x40]).Inv := coded_inv _

end Sys2Proof.Tests
end

section
/-! SUPPORT. One step of the machine, move by move (00_scope.md R2, 10_state.md R38, 60_exceptions.md R222), and the word
that withFetchWord puts at the head of the host's moves (log entry 1). -/

namespace Sys2Proof.Machine

variable {s : State}

/-- With no move pending nothing happens (R222). -/
theorem step_idle (h : s.hostQueue = []) : step s = .next s := by simp only [step, h]

/-- A step takes the oldest pending move off the queue and serves it. -/
theorem step_serves {m : HostMove} {rest : List HostMove} (h : s.hostQueue = m :: rest) :
    step s = serve m { s with hostQueue := rest } := by simp only [step, h]

/-- A write to CMD issues the command word in bits 15 to 0 of the data (R38). -/
theorem step_issues_of_writeCmd {data : Word} {rest : List HostMove} (h : s.hostQueue = .writeReg 0 data :: rest) :
    step s = issue (data.extractLsb' 0 16) { s with hostQueue := rest } := step_serves h

/-- A write to CMD of a word that decodes runs its command (R224). -/
theorem step_runs_of_decode {data : Word} {rest : List HostMove} {i : Instr}
    (h : s.hostQueue = .writeReg 0 data :: rest) (hd : decode (data.extractLsb' 0 16) = .ok i) :
    step s = exec i { s with hostQueue := rest } := (step_issues_of_writeCmd h).trans (issue_ok hd)

@[simp] theorem withFetchWord_hostQueue (s : State) (nbits w : Nat) :
    (s.withFetchWord nbits w).hostQueue = .writeReg 0 (BitVec.ofNat 32 (w % 2 ^ nbits)) :: s.hostQueue := rfl

/-- Taking the placed word off the queue gives the state it was placed in. -/
theorem withFetchWord_taken (s : State) (nbits w : Nat) :
    { s.withFetchWord nbits w with hostQueue := s.hostQueue } = s := rfl

/-- Bits 15 to 0 of the 32-bit data that carries a number are that number as a command word. -/
theorem cmdWord_ofNat (n : Nat) : (BitVec.ofNat 32 n).extractLsb' 0 16 = BitVec.ofNat 16 n := by
  rw [← BitVec.setWidth_eq_extractLsb' (by decide), BitVec.setWidth_ofNat_of_le (by decide)]

/-- What decoding by the opcode table's numbering reads is what the command word decodes to. -/
theorem decodeTableWord_eq_some_iff {nbits w : Nat} {i : Instr} : decodeTableWord nbits w = some i ↔
    w % 2 ^ nbits < 2 ^ 16 ∧ decode (BitVec.ofNat 16 (w % 2 ^ nbits)) = .ok i := by
  rw [decodeTableWord, Option.ite_none_right_eq_some]
  cases decode (BitVec.ofNat 16 (w % 2 ^ nbits)) <;> simp

/-- A step on a placed word that decodes runs its command in the state the word was placed in. -/
theorem step_withFetchWord {nbits w : Nat} {i : Instr} (h : decodeTableWord nbits w = some i) :
    step (s.withFetchWord nbits w) = exec i s := by
  obtain ⟨-, hd⟩ := decodeTableWord_eq_some_iff.1 h
  rw [← cmdWord_ofNat] at hd
  rw [step_runs_of_decode (withFetchWord_hostQueue s nbits w) hd, withFetchWord_taken]

/-- Settles O5: a step serves the oldest move, a write to CMD issues its low 16 bits, and a placed word is such a write. -/
theorem stepRunsTheDecodedCommand : Obligations.StepRunsTheDecodedCommand :=
  ⟨fun _ _ _ _ => step_runs_of_decode, fun _ _ _ _ => step_withFetchWord, fun _ => step_idle⟩

end Sys2Proof.Machine
end

section
/-! SUPPORT. The invariant along the pseudocode of a command (10_state.md R22, R27 to R32): a reading procedure keeps the
reader in order; a procedure that starts in an unlocked state in order ends in one, unless it raises. -/

namespace Sys2Proof.Machine

/-! ### The reader stays in order -/

/-- A reading procedure that ends normally leaves the reader in order (R32, R39). -/
abbrev ReadsOk {α : Type} (x : Run BitReader α) : Prop := x.Post (fun _ r => r.Ok) (fun _ _ => True)

section
variable {r : BitReader} (hr : r.Ok)
include hr

theorem srcRead_ok : ReadsOk (srcRead r) := by
  cases hb : r.input[r.ipos]? with
  | none => rw [srcRead_none hb]; trivial
  | some b =>
    obtain ⟨hlt, -⟩ := List.getElem?_eq_some_iff.1 hb
    rw [srcRead_some hb]; exact ⟨hr.1, hlt⟩

theorem getBit_ok : ReadsOk (getBit r) := by
  cases hb : r.bits with
  | nil => rw [getBit_nil hr hb]; trivial
  | cons b bs =>
    obtain ⟨r', he, -, hok, -⟩ := getBit_cons hr hb
    rw [he]; exact hok

theorem getByteLoop_ok (n : Nat) (v : Byte) : ReadsOk (getByteLoop n v r) := by
  induction n generalizing v r with
  | zero => exact hr
  | succ n ih => exact (getBit_ok hr).bind fun _ _ h => ih h _

theorem getByte_ok : ReadsOk (getByte r) := getByteLoop_ok hr 8 0

theorem getCount_ok : ReadsOk (getCount r) :=
  (getByte_ok hr).bind fun _ _ h => (getByte_ok h).bind fun _ _ h => (getByte_ok h).bind fun _ _ h =>
    (getByte_ok h).bind fun _ _ h => h

theorem descend_ok (t : Tree) : ReadsOk (descend t r) := by
  induction t generalizing r with
  | leaf sym => exact hr
  | node low high ihl ihh =>
    refine (getBit_ok hr).bind fun b r' h => ?_
    cases b
    · exact ihl h
    · exact ihh h

end

/-! ### The writer stays in order -/

/-- SinkWrite leaves the accumulator alone (R54, R171). -/
theorem sinkWrite_ok {w : BitWriter} (hw : w.Ok) (b : Byte) : (sinkWrite b w).Ok := hw

theorem putBytes_ok {w : BitWriter} (hw : w.Ok) (vs : List Byte) : (putBytes vs w).Ok := by
  rw [putBytes_eq_putBits]; exact putBits_ok hw

theorem flush_serialize_ok {w : BitWriter} (hw : w.Ok) (t : Tree) : (flush (serialize t w)).Ok := by
  rw [serialize_eq]; exact flush_ok (putBits_ok hw)

/-- A count field without its sign bit is at most COUNT_MAX (R28, R173). -/
theorem toNat_le_of_nonnegative {v : Word} (h : ¬ v.getLsbD 31 = true) : v.toNat ≤ 0x7FFFFFFF := by
  have hmsb : v.msb = false := (BitVec.msb_eq_getLsbD_last v).trans (Bool.eq_false_iff.2 h)
  have := BitVec.msb_eq_false_iff_two_mul_lt.1 hmsb
  omega

/-! ### The state while a command runs -/

/-- What holds while an accepted command runs: the invariant, with the error lock off (R223). -/
structure State.Active (s : State) : Prop where
  inv : s.Inv
  unlocked : s.status = .success

/-- A procedure on the state that ends normally leaves it in order and unlocked. -/
abbrev StaysActive {α : Type} (x : Run State α) : Prop := x.Post (fun _ t => t.Active) (fun _ _ => True)

namespace State.Active

variable {s : State} (h : s.Active)
include h

theorem setResult (v : Word) : ({ s with result := v } : State).Active := ⟨h.inv.setResult h.unlocked v, h.unlocked⟩

theorem setReader {r : BitReader} (hr : r.Ok) : ({ s with reader := r } : State).Active :=
  ⟨h.inv.setReader h.unlocked hr, h.unlocked⟩

theorem setWriter {w : BitWriter} (hw : w.Ok) : ({ s with writer := w } : State).Active :=
  ⟨h.inv.setWriter h.unlocked hw, h.unlocked⟩

theorem setFreq {t : FreqTable} (ht : t.Ok) : ({ s with ft := t } : State).Active :=
  ⟨h.inv.setFreq h.unlocked ht, h.unlocked⟩

theorem setStore {n : NodeStore} (hn : n.Ok) :
    ({ s with store := n, ct := { s.ct with valid := false } } : State).Active :=
  ⟨h.inv.setStore h.unlocked hn, h.unlocked⟩

/-- DCOUNT holds a count: a nonnegative 32-bit value (R28). -/
theorem setDcount {v : Word} (hv : v.toNat ≤ 0x7FFFFFFF) : ({ s with dcount := v } : State).Active :=
  ⟨{ h.inv with dcount := hv, lock := fun k => absurd h.unlocked k }, h.unlocked⟩

/-- The code table of the tree in the store (R30). -/
theorem setCodes (hv : s.store.valid = true) {t : Tree} (ht : s.store.tree = some t) :
    ({ s with ct := generateCodes t } : State).Active := by
  obtain ⟨u, hu, hc⟩ := h.inv.store.leafCount hv
  cases ht.symm.trans hu
  exact ⟨{ h.inv with
    codes := fun _ => ⟨hv, t, ht, rfl⟩, codePad := generateCodes_pad hc, lock := fun k => absurd h.unlocked k }, h.unlocked⟩

theorem releaseTree : (releaseTree s).Active :=
  ⟨{ h.inv with
    reader := ⟨Nat.zero_le _, h.inv.reader.2⟩
    store := emptyStore_ok
    codes := fun k => by cases k
    codePad := fun sym j _ => zeroCodes_pad sym j
    lock := fun k => absurd h.unlocked k }, h.unlocked⟩

theorem release : (release s).Active :=
  ((h.releaseTree.setFreq zeroTable_ok).setDcount (v := 0) (Nat.zero_le _)).setWriter (writer_zero_ok s.writer.out)

theorem buildInto : (buildInto s).Active := by
  obtain ⟨-, -, -, hok, -⟩ := buildTree_spec s.tieMerged s.ft
  exact h.setStore hok

/-- A reading procedure, seen on the state. -/
theorem reads {α : Type} {x : Run BitReader α} (hx : ReadsOk x) :
    StaysActive (x.lift fun r => { s with reader := r }) :=
  .lift (hx.mono (fun _ _ hr => h.setReader hr) fun _ _ _ => trivial)

/-! ### The procedures of the commands -/

theorem ftCount (sym : Byte) : StaysActive ((ftCount sym s.ft).lift fun t => { s with ft := t }) := by
  rw [ftCount_cases]
  split
  · trivial
  · next hc => exact h.setFreq (counted_ok h.inv.freq hc sym).1

theorem readCount : StaysActive (readCount s) := by
  refine (h.reads (getCount_ok h.inv.reader)).bind fun v t ht => ?_
  split
  · trivial
  · next hv => exact ht.setDcount (toNat_le_of_nonnegative hv)

theorem readTree : StaysActive (readTree s) := by
  rcases readTree_took h.inv.reader with ⟨t, rest, r', hc, htook, -, he⟩ | ⟨r', nodes, he, -⟩
  · have hsize : t.size ≤ 511 := by rw [t.size_eq]; omega
    rw [he]
    exact (h.setStore (layout_store t hsize).2).setReader (align_ok htook.ok)
  · rw [he]; trivial

theorem countPass (n : Nat) : StaysActive (countPass n s) := by
  induction n generalizing s with
  | zero => exact h
  | succ n ih =>
    rw [Machine.countPass]
    split
    · exact (h.reads (srcRead_ok h.inv.reader)).bind fun sym _ hu => (hu.ftCount sym).bind fun _ _ hv => ih hv
    · exact h

theorem encodePass (n : Nat) : StaysActive (encodePass n s) := by
  induction n generalizing s with
  | zero => exact h
  | succ n ih =>
    rw [Machine.encodePass]
    split
    · exact (h.reads (srcRead_ok h.inv.reader)).bind fun _ _ hu => ih (hu.setWriter (putBits_ok hu.inv.writer))
    · exact h

theorem decodePass (t : Tree) (n : Nat) : StaysActive (decodePass t n s) := by
  induction n generalizing s with
  | zero => exact h
  | succ n ih =>
    exact (h.reads (descend_ok h.inv.reader t)).bind fun sym _ hu => ih (hu.setWriter (sinkWrite_ok hu.inv.writer sym))

theorem compressCounted {start : Nat} (hstart : start ≤ s.reader.input.length) :
    StaysActive (compressCounted start s) := by
  obtain ⟨hv, -, -, -, ⟨t, ht, -⟩, -⟩ := buildTree_spec s.tieMerged s.ft
  have hbuilt := h.buildInto.setWriter (putBytes_ok h.inv.writer (countBytes s.ft.total))
  have hcoded := (hbuilt.setWriter (flush_serialize_ok hbuilt.inv.writer t)).setCodes hv ht
  rw [Machine.compressCounted, withTree_some ht]
  refine ((hcoded.setReader (r := srcRewind start s.reader) ⟨h.inv.reader.1, hstart⟩).encodePass _).bind fun _ u hu => ?_
  exact (hu.setWriter (flush_ok hu.inv.writer)).releaseTree

end State.Active

end Sys2Proof.Machine
end

section
/-! SUPPORT. The invariant along a command and along a step of the machine (10_state.md R22, R27 to R32, R35; 60_exceptions.md
R223 to R226): a command, a command word and a move of the host each keep it. -/

namespace Sys2Proof.Machine

/-! ### One command -/

/-- A command whose procedure ends unlocked ended normally. -/
theorem finish_next_of_success {op : Byte} {x : Run State Unit} {t : State} (h : finish op x = .next t)
    (ht : t.status = .success) : x = .done () t := by
  cases x with
  | done a s => cases h; rfl
  | raised e s => cases h; cases e <;> cases ht
  | stuck k => cases h

theorem inv_of_exec_finish {op : Byte} {x : Run State Unit} {s t : State} {i : Instr} (he : exec i s = finish op x)
    (h : exec i s = .next t) (ht : t.status = .success) (hx : StaysActive x) : t.Inv := by
  rw [finish_next_of_success (he.symm.trans h) ht] at hx
  exact hx.inv

theorem State.Active.inv_of_exec {s t u : State} {i : Instr} (hu : u.Active) (he : exec i s = .next u)
    (h : exec i s = .next t) : t.Inv := by
  cases he.symm.trans h
  exact hu.inv

section
variable {s t : State} (h : s.Active)
include h

/-- COMPRESS, when it ends normally, leaves a state in order (R190). -/
theorem State.Active.compress (he : exec .compress s = .next t) (ht : t.status = .success) : t.Inv := by
  refine inv_of_exec_finish (exec_compress h.unlocked) he ht ?_
  refine Run.Post.bind (D := fun _ u => u.Active ∧ u.reader.input = s.reader.input)
    (((h.release.countPass _).and (countPass_framed _ _)).mono (fun _ _ g => ⟨g.1, g.2.reader.input⟩) fun _ _ _ => trivial)
    fun _ u hu => ?_
  obtain ⟨hu, hin⟩ := hu
  split
  · exact (hu.setWriter (putBytes_ok hu.inv.writer _)).releaseTree
  · exact hu.compressCounted (by rw [hin]; exact h.inv.reader.2)

/-- DECOMPRESS, when it ends normally, leaves a state in order (R191). -/
theorem State.Active.decompress (he : exec .decompress s = .next t) (ht : t.status = .success) : t.Inv := by
  refine inv_of_exec_finish (exec_decompress h.unlocked) he ht ?_
  refine h.release.readCount.bind fun v u hu => ?_
  split
  · exact hu.releaseTree
  · refine hu.readTree.bind fun _ w hw => ?_
    unfold withTree
    split
    · exact (hw.decodePass _ _).bind fun _ _ hx => hx.releaseTree
    · trivial

/-- An accepted command that ends normally leaves a state in order. -/
theorem State.Active.exec_inv {i : Instr} (hi : i ≠ .reset) (hp : precondition (opcodeOf i) s) (he : exec i s = .next t)
    (ht : t.status = .success) : t.Inv := by
  have hs := h.unlocked
  have hw := h.inv.writer
  have hr := h.inv.reader
  cases i with
  | reset => exact absurd rfl hi
  | nop => exact h.inv_of_exec (exec_nop hs) he
  | bwPutbit b => exact (h.setWriter (putBit_ok hw)).inv_of_exec (exec_bwPutbit hs b) he
  | bwPutbyte v => exact (h.setWriter (putBits_ok hw)).inv_of_exec (exec_bwPutbyte hs v) he
  | bwFlush => exact (h.setWriter (flush_ok hw)).inv_of_exec (exec_bwFlush hs) he
  | brGetbit =>
    exact inv_of_exec_finish (exec_brGetbit hs) he ht ((h.reads (getBit_ok hr)).bind fun _ _ hu => hu.setResult _)
  | brGetbyte =>
    exact inv_of_exec_finish (exec_brGetbyte hs) he ht ((h.reads (getByte_ok hr)).bind fun _ _ hu => hu.setResult _)
  | brAlign => exact (h.setReader (align_ok hr)).inv_of_exec (exec_brAlign hs) he
  | ftClear => exact (h.setFreq zeroTable_ok).inv_of_exec (exec_ftClear hs) he
  | ftCount sym => exact inv_of_exec_finish (exec_ftCount hs sym) he ht (h.ftCount sym)
  | ftRead sym => exact (h.setResult _).inv_of_exec (exec_ftRead hs sym) he
  | tbBuild => exact h.buildInto.inv_of_exec (exec_tbBuild hs) he
  | tsSerialize =>
    have hv : s.store.valid = true := hp.1 (.inl rfl)
    obtain ⟨u, hu, -⟩ := h.inv.store.tree hv
    exact (h.setWriter (flush_serialize_ok hw u)).inv_of_exec (exec_tsSerialize hs hv hu) he
  | tdDeserialize => exact inv_of_exec_finish (exec_tdDeserialize hs) he ht h.readTree
  | ctGenerate =>
    have hv : s.store.valid = true := hp.1 (.inr (.inl rfl))
    obtain ⟨u, hu, -⟩ := h.inv.store.tree hv
    exact (h.setCodes hv hu).inv_of_exec (exec_ctGenerate hs hv hu) he
  | ctReadlen sym => exact (h.setResult _).inv_of_exec (exec_ctReadlen hs sym) he
  | heEncode sym =>
    rw [exec_heEncode hs (hp.2 rfl)] at he
    split at he
    · cases he; exact (h.setWriter (putBits_ok hw)).inv
    · cases he; cases ht
  | hdDecode =>
    have hv : s.store.valid = true := hp.1 (.inr (.inr rfl))
    obtain ⟨u, hu, -⟩ := h.inv.store.tree hv
    exact inv_of_exec_finish (exec_hdDecode hs hv hu) he ht
      ((h.reads (descend_ok hr u)).bind fun _ _ hx => (hx.setWriter (sinkWrite_ok hx.inv.writer _)).setResult _)
  | hdrWrite => exact (h.setWriter (putBytes_ok hw _)).inv_of_exec (exec_hdrWrite hs) he
  | hdrRead => exact inv_of_exec_finish (exec_hdrRead hs) he ht (h.readCount.bind fun _ _ hu => hu.setResult _)
  | compress => exact h.compress he ht
  | decompress => exact h.decompress he ht

end

/-- Every command keeps the invariant: ignored, refused, done, or on the error path (R223 to R226). -/
theorem State.Inv.exec {i : Instr} {s t : State} (h : s.Inv) (he : exec i s = .next t) : t.Inv := by
  rcases exec_cases he with
    ⟨-, rfl⟩ | ⟨-, -, rfl⟩ | ⟨-, -, -, rfl⟩ | ⟨hi, hs, hp, hend⟩ | ⟨-, -, -, e, u, -, hframe, rfl⟩
  · exact resetCore_inv h.reader.2
  · exact h
  · exact takeError_inv .illegalCommand _ h.reader.2
  · exact State.Active.exec_inv ⟨h, hs⟩ hi hp he (hend.frame.status.trans hs)
  · exact takeError_inv e _ (hframe.reader.within h.reader.2)

/-- Every command word keeps the invariant, legal or not (R73, R224). -/
theorem State.Inv.issue {w : CmdWord} {s t : State} (h : s.Inv) (he : issue w s = .next t) : t.Inv := by
  cases hd : decode w with
  | ok i => rw [issue_ok hd] at he; exact h.exec he
  | error e =>
    rw [issue_illegal ((decode_error_iff w).2 ⟨e, hd⟩)] at he
    split at he
    · cases he; exact takeError_inv .illegalCommand _ h.reader.2
    · cases he; exact h

/-! ### One move of the host -/

/-- The state with other values of what the host owns or the port keeps: the queue and the answers (log entry 1), the sink
and the source with its position (R39). -/
def State.withHostSide (s : State) (queue : List HostMove) (answers : List Word) (out input : List Byte) (ipos : Nat) :
    State :=
  { s with
    hostQueue := queue, answers := answers, writer := { s.writer with out := out }
    reader := { s.reader with input := input, ipos := ipos } }

/-- The invariant asks nothing of the host's side but that IPOS is inside IN (R39). -/
theorem State.Inv.withHostSide {s : State} (h : s.Inv) (queue : List HostMove) (answers : List Word)
    (out : List Byte) {input : List Byte} {ipos : Nat} (hpos : ipos ≤ input.length) :
    (s.withHostSide queue answers out input ipos).Inv :=
  { h with
    reader := ⟨h.reader.1, hpos⟩
    lock := fun hl => congrArg (State.withHostSide · queue answers out input ipos) (h.lock hl) }

/-- Every move of the host keeps the invariant (R233, R251). -/
theorem State.Inv.serve {m : HostMove} {s t : State} (h : s.Inv) (he : serve m s = .next t) : t.Inv := by
  cases m with
  | writeReg addr data =>
    cases addr with
    | zero => exact h.issue he
    | succ n => cases he; exact h
  | readReg addr => cases he; exact h.withHostSide _ _ _ h.reader.2
  | presentInput bytes => cases he; exact h.withHostSide _ _ _ (Nat.zero_le _)
  | takeOutput => cases he; exact h.withHostSide _ _ _ h.reader.2
  | powerOn => cases he; exact resetCore_inv h.reader.2

/-- Settles O54: a step is idle or serves one move of the host, and each move keeps the invariant. -/
theorem everyStepKeepsTheInvariant : Obligations.EveryStepKeepsTheInvariant := by
  intro s t h he
  cases hq : s.hostQueue with
  | nil => rw [step_idle hq] at he; cases he; exact h
  | cons m rest =>
    rw [step_serves hq] at he
    exact (h.withHostSide rest s.answers s.writer.out h.reader.2).serve he

/-- Settles O53: the reset state is what a reset leaves of it, and what a reset leaves is in order. -/
theorem resetMeetsTheInvariant : Obligations.ResetMeetsTheInvariant :=
  resetCore_inv (s := State.reset) (Nat.le_refl _)

end Sys2Proof.Machine
end

section
/-! SUPPORT. The reset values (10_state.md R42), the register port (R21, R37, R38), and what no command writes of RESULT, the
streams and the model's own fields (R36, R39; 20_memory.md R58). -/

namespace Sys2Proof.Machine

/-! ### Reset -/

/-- Settles O11: the values stand in State.reset, its tables read 0 at every symbol, and RESET leaves the streams. -/
theorem resetValues : Obligations.ResetValues :=
  ⟨rfl, rfl, rfl, zeroTable_count, rfl, rfl, rfl, rfl, rfl, zeroCodes_get, rfl, rfl, rfl, rfl, rfl, rfl,
    fun _ _ h => by cases h; exact ⟨rfl, rfl, rfl⟩⟩

/-! ### The register port -/

/-- A concatenation as a sum: the low part stays below the weight of the high part. -/
theorem toNat_append_eq_add {m n : Nat} (x : BitVec m) (y : BitVec n) :
    (x ++ y).toNat = x.toNat * 2 ^ n + y.toNat := by
  rw [BitVec.toNat_append, ← Nat.shiftLeft_add_eq_or_of_lt y.isLt, Nat.shiftLeft_eq]

/-- INFO is the sum of its fields, each at its weight (R37), while NODE_COUNT fits its ten bits (R23). -/
theorem infoView_toNat {s : State} (h : s.store.nodes.length ≤ 511) :
    (infoView s).toNat = (if s.store.valid then 1 else 0) + (if s.ct.valid then 2 else 0) + 4 * s.writer.nacc.toNat +
      32 * s.reader.rcnt.toNat + 512 * s.store.nodes.length := by
  have hcount : s.store.count.toNat = s.store.nodes.length := by
    rw [NodeStore.count, BitVec.toNat_ofNat]; omega
  simp only [infoView, toNat_append_eq_add, hcount, BitVec.toNat_ofBool, Bool.toNat, Bool.cond_eq_ite, BitVec.toNat_ofNat]
  split_ifs <;> omega

/-- A host read answers the register and takes the move off the queue (R21). -/
theorem step_answers_of_readReg {s : State} {a : Nat} {rest : List HostMove} (h : s.hostQueue = .readReg a :: rest) :
    step s = .next { s with hostQueue := rest, answers := s.answers ++ [readReg s a] } := by
  rw [step_serves h]
  rfl

/-- A write to any address but that of CMD is ignored (R38). -/
theorem step_ignores_of_writeReg {s : State} {a : Nat} {data : Word} {rest : List HostMove} (ha : a ≠ 0)
    (h : s.hostQueue = .writeReg a data :: rest) : step s = .next { s with hostQueue := rest } := by
  obtain ⟨n, rfl⟩ := Nat.exists_eq_succ_of_ne_zero ha
  rw [step_serves h]
  rfl

/-- Settles O14: a read answers readReg, register by register; a write to CMD issues its low 16 bits; no other write acts. -/
theorem registerPort : Obligations.RegisterPort := by
  refine ⟨fun s a rest h hcap => ⟨readReg s a, step_answers_of_readReg h, ?_⟩, fun _ _ _ => step_issues_of_writeCmd,
    fun _ _ _ _ => step_ignores_of_writeReg⟩
  match a with
  | 0 => rfl
  | 1 => cases hs : s.status <;> simp [readReg, hs, Status.code]
  | 2 => exact BitVec.toNat_setWidth_of_le (by decide)
  | 3 => rfl
  | 4 => rfl
  | 5 => exact infoView_toNat hcap
  | 6 => rfl
  | _ + 7 => rfl

/-! ### What no command writes -/

/-- A command changes STATUS, ERR_OP and RESULT and otherwise keeps the frame of every procedure (R34 to R39), however it
ends. -/
theorem exec_frame {i : Instr} {s t : State} (h : exec i s = .next t) :
    Frame s { t with status := s.status, errOp := s.errOp, result := s.result } := by
  rcases exec_cases h with
    ⟨-, rfl⟩ | ⟨-, -, rfl⟩ | ⟨-, -, -, rfl⟩ | ⟨-, -, -, hend⟩ | ⟨-, -, -, e, u, -, hframe, rfl⟩
  · exact release_frame s
  · exact .refl _
  · exact release_frame s
  · exact { hend.frame with status := rfl, errOp := rfl }
  · exact { hframe.trans (release_frame u) with status := rfl, errOp := rfl, result := rfl }

/-- Settles O16: the frame of every command holds the streams and the model's own fields. -/
theorem streamsAreReadForwardAndAppended : Obligations.StreamsAreReadForwardAndAppended := by
  intro i s t h
  obtain ⟨-, -, -, htie, hqueue, hanswers, hout, hreader⟩ := exec_frame h
  exact ⟨hreader.input, hout, fun hpos => ⟨hreader.ipos, hreader.within hpos⟩, htie, hqueue, hanswers⟩

/-- The commands that write RESULT, by name (R36). -/
theorem writesResult_iff (i : Instr) : writesResult i = true ↔
    i = .brGetbit ∨ i = .brGetbyte ∨ (∃ q, i = .ftRead q) ∨ (∃ q, i = .ctReadlen q) ∨ i = .hdDecode ∨ i = .hdrRead := by
  cases i <;> simp [writesResult]

/-- Settles O15: refusals and errors keep RESULT, and so does a normal end of a command that does not write it. -/
theorem onlySixCommandsWriteResult : Obligations.OnlySixCommandsWriteResult := by
  intro i s t h hne
  rcases exec_cases h with
    ⟨hi, -⟩ | ⟨-, -, rfl⟩ | ⟨-, -, -, rfl⟩ | ⟨-, hs, -, hend⟩ | ⟨-, -, -, e, u, -, hframe, rfl⟩
  · exact .inl hi
  · exact absurd rfl hne
  · exact absurd rfl hne
  · refine .inr ⟨hend.frame.status.trans hs, (writesResult_iff i).1 ?_⟩
    exact eq_true_of_ne_false fun hw => hne (hend.result hw)
  · exact absurd hframe.result hne

end Sys2Proof.Machine
end

section
/-! SUPPORT. Decoding and encoding are inverse to each other (30_encoding.md R70 to R74), and what illegal words do (R73). -/

namespace Sys2Proof.Machine

/-! ### Decoding the word of a command -/

/-- The row of the opcode map for a command's opcode gives the command back from its argument byte (R71, R72). -/
theorem opTable_find_opcodeOf (i : Instr) :
    ∃ row, opTable.find? (fun row => row.op == opcodeOf i) = some row ∧ row.form = i.form ∧ row.make i.arg = i := by
  cases i with
  | bwPutbit b => exact ⟨_, rfl, rfl, by cases b <;> rfl⟩
  | _ => exact ⟨_, rfl, rfl, rfl⟩

/-- Decoding the word of a command gives the command back (R70 to R72). -/
theorem decode_encode (i : Instr) : decode (encode i) = .ok i := by
  obtain ⟨row, hfind, hform, hmake⟩ := opTable_find_opcodeOf i
  have hres : (i.arg &&& row.form.reserved) == 0 := hform ▸ instr_wellFormed i
  simp only [encode, decode_append, hfind, hres, hmake, if_true]

/-- Settles O2: the row of a command's opcode makes the command from its argument byte. -/
theorem decodeOfEncode : Obligations.DecodeOfEncode := fun i _ => decode_encode i

/-! ### The word of a decoded command -/

/-- A word that decodes is the word of the command it decodes to (R70, R74). -/
theorem encode_of_decode {w : CmdWord} {i : Instr} (h : decode w = .ok i) : encode i = w := by
  obtain ⟨hop, harg⟩ := decode_fields h
  rw [encode, hop, harg, ← word_eq_append]

/-- A word decodes to a command exactly when it is the command's word (R74). -/
theorem decode_eq_ok_iff {w : CmdWord} {i : Instr} : decode w = .ok i ↔ w = encode i :=
  ⟨fun h => (encode_of_decode h).symm, fun h => h ▸ decode_encode i⟩

/-- Settles O3: the fields of a word that decodes are the opcode and the argument byte of its command. -/
theorem encodeOfDecode : Obligations.EncodeOfDecode := fun _ i h =>
  ⟨encode_of_decode h, instr_wellFormed i, (decode_fields h).1.symm⟩

/-- Settles O1: each word of a command without a byte operand is the command's word; the rows of the others take every byte. -/
theorem commandWordsDecodeAsTabled : Obligations.CommandWordsDecodeAsTabled := by
  refine ⟨?_, takesByte_of_row ⟨_, rfl⟩, takesByte_of_row ⟨_, rfl⟩, takesByte_of_row ⟨_, rfl⟩, takesByte_of_row ⟨_, rfl⟩,
    takesByte_of_row ⟨_, rfl⟩⟩
  simp only [decode_eq_ok_iff]
  decide

/-! ### Illegal words -/

/-- No opcode from 0x80 is assigned (R73). -/
theorem reservedMask_of_ge {op : Byte} (h : 0x80 ≤ op.toNat) : reservedMask op = none := by
  revert op; decide

/-- Settles O4: a word is illegal exactly when decoding rejects it, and a rejected word is refused by the error path. -/
theorem illegalWordsAreRefused : Obligations.IllegalWordsAreRefused := by
  refine ⟨decode_error_iff, fun w s hw hs => ?_, fun s _ => ?_, fun w hw => .inl (reservedMask_of_ge hw), fun w => ?_⟩
  · rw [issue_illegal hw, if_pos hs]
  · exact issue_ok (i := .reset) (decode_encode .reset)
  · exact decode_eq_ok_iff

end Sys2Proof.Machine
end

section
/-! SUPPORT. Runs of command words written one after another (60_exceptions.md R236): the repeated commands that the
pseudo-commands expand to (30_encoding.md R76). -/

namespace Sys2Proof.Machine

variable {s u v : State}

theorem runWords_encode_singleton {i : Instr} (h : exec i s = .next u) : runWords ([i].map encode) s = .next u := by
  rw [List.map_singleton, runWords_cons_next ((issue_ok (decode_encode i)).trans h), runWords_nil]

theorem runWords_encode_append {is js : List Instr} (h : runWords (is.map encode) s = .next u)
    (g : runWords (js.map encode) u = .next v) : runWords ((is ++ js).map encode) s = .next v := by
  rw [List.map_append, runWords_append_next h, g]

theorem runWords_encode_cons {i : Instr} {is : List Instr} (h : exec i s = .next u)
    (g : runWords (is.map encode) u = .next v) : runWords ((i :: is).map encode) s = .next v :=
  runWords_encode_append (runWords_encode_singleton h) g

/-- BW_PUTBYTE of each byte of a list is PutByte of each byte (R107). -/
theorem runWords_bwPutbytes (hs : s.status = .success) (vs : List Byte) :
    runWords ((vs.map Instr.bwPutbyte).map encode) s = .next { s with writer := putBytes vs s.writer } := by
  induction vs generalizing s with
  | nil => exact runWords_nil
  | cons v vs ih => exact runWords_encode_cons (exec_bwPutbyte hs v) (ih hs)

/-- FT_COUNT of each byte of a list counts them all, while the total stays within COUNT_MAX (R120, R121). -/
theorem runWords_ftCounts (hs : s.status = .success) (xs : List Byte) {pre : List Byte} (hf : s.ft = freqOf pre)
    (hlen : pre.length + xs.length ≤ 0x7FFFFFFF) :
    runWords ((xs.map Instr.ftCount).map encode) s = .next { s with ft := freqOf (pre ++ xs) } := by
  induction xs generalizing s pre with
  | nil => rw [List.append_nil, ← hf]; exact runWords_nil
  | cons x xs ih =>
    rw [List.length_cons] at hlen
    have hroom : s.ft.total ≠ 0x7FFFFFFF := fun e => by
      have htotal := congrArg BitVec.toNat e
      rw [hf, freqOf_total (by omega), show (0x7FFFFFFF : Word).toNat = 0x7FFFFFFF from rfl] at htotal
      omega
    have hcount : exec (.ftCount x) s = .next { s with ft := freqOf (pre ++ [x]) } := by
      rw [exec_ftCount hs, ftCount_cases, if_neg hroom, hf, counted_freqOf]; rfl
    refine runWords_encode_cons hcount ?_
    rw [ih (s := { s with ft := freqOf (pre ++ [x]) }) (by simpa using hs) rfl
      (by rw [List.length_append, List.length_singleton]; omega), List.append_assoc, List.singleton_append]

/-- HE_ENCODE of each symbol of a list puts their codes in order, where each has one (R170). -/
theorem runWords_heEncodes (hs : s.status = .success) (hv : s.ct.valid = true) (xs : List Byte)
    (hx : ∀ x ∈ xs, (s.ct.get x).valid = true) :
    runWords ((xs.map Instr.heEncode).map encode) s =
      .next { s with writer := putBits (xs.flatMap fun x => (s.ct.get x).bits) s.writer } := by
  induction xs generalizing s with
  | nil => exact runWords_nil
  | cons x xs ih =>
    have hfirst : exec (.heEncode x) s = .next { s with writer := putBits (s.ct.get x).bits s.writer } := by
      rw [exec_heEncode hs hv, if_pos (hx x List.mem_cons_self)]
    rw [List.flatMap_cons, putBits_append]
    exact runWords_encode_cons hfirst (ih hs hv fun y hy => hx y (List.mem_cons_of_mem x hy))

/-- Settles O50: the four BW_PUTBYTEs and HDR_WRITE put the same four bytes. -/
theorem putU32MatchesHdrWrite : Obligations.PutU32MatchesHdrWrite := by
  rintro v s hs rfl
  exact ⟨_, runWords_bwPutbytes hs (countBytes s.ft.total), exec_hdrWrite hs, _, rfl⟩

end Sys2Proof.Machine
end

section
/-! SUPPORT. What COMPRESS and the expansion of MANUAL_COMPRESS leave (46_pipelines.md R190, R192; 30_encoding.md R76), by
way of the container of the input (R80 to R86). -/

namespace Sys2Proof.Machine

/-! ### The container of an input -/

variable {tie : TieMerged} {xs c : List Byte}

/-- The container of an input that is not empty: count field, tree region, payload (R80). -/
theorem isContainer_iff (h : xs ≠ []) : IsContainer tie xs c ↔
    ∃ t region payload, (buildTree tie (freqOf xs)).tree = some t ∧ PacksTo (treeBits t) region ∧
      PacksTo (payloadBits t xs) payload ∧ c = countBytes (BitVec.ofNat 32 xs.length) ++ region ++ payload := by
  rw [IsContainer, if_neg h]

theorem isContainer_nil : IsContainer tie [] c ↔ c = [0, 0, 0, 0] := by
  rw [IsContainer, if_pos rfl]

/-- Every input has a container (R80, R135). -/
theorem exists_isContainer (tie : TieMerged) (xs : List Byte) : ∃ c, IsContainer tie xs c := by
  by_cases hx : xs = []
  · exact ⟨_, hx ▸ isContainer_nil.2 rfl⟩
  · obtain ⟨-, -, -, -, ⟨t, ht, -⟩, -⟩ := buildTree_spec tie (freqOf xs)
    obtain ⟨region, hregion⟩ := PacksTo.exists (treeBits t)
    obtain ⟨payload, hpayload⟩ := PacksTo.exists (payloadBits t xs)
    exact ⟨_, (isContainer_iff hx).2 ⟨t, region, payload, ht, hregion, hpayload, rfl⟩⟩

/-- The size of a container (R86, R142): 4 bytes of count, 320 of tree region, and the packed payload. -/
theorem IsContainer.length (hc : IsContainer tie xs c) (hx : xs ≠ []) :
    ∃ t, (buildTree tie (freqOf xs)).tree = some t ∧
      c.length = 4 + 320 + ((allBytes.map fun q => xs.count q * ((t.codeOf q).getD []).length).sum + 7) / 8 := by
  obtain ⟨t, region, payload, ht, ⟨hregion, -⟩, ⟨hpayload, -⟩, rfl⟩ := (isContainer_iff hx).1 hc
  refine ⟨t, ht, ?_⟩
  rw [treeBits_length, (buildTree_leafCount ht).1] at hregion
  rw [payloadBits, flatMap_length_count] at hpayload
  rw [List.length_append, List.length_append, hregion, hpayload]
  rfl

/-! ### COMPRESS -/

/-- What COMPRESS leaves when it has appended `c` (R190). -/
def compressed (s : State) (c : List Byte) : State :=
  { s with
    ft := freqOf s.reader.unread, dcount := 0, store := .empty, ct := .zero
    writer := ⟨0, 0, s.writer.out ++ c⟩, reader := ⟨0, 0, s.reader.input, s.reader.input.length⟩ }

variable {s : State}

@[simp] theorem compressed_status (s : State) (c : List Byte) : (compressed s c).status = s.status := by rw [compressed]
@[simp] theorem compressed_ft (s : State) (c : List Byte) : (compressed s c).ft = freqOf s.reader.unread := by rw [compressed]
@[simp] theorem compressed_out (s : State) (c : List Byte) : (compressed s c).writer.out = s.writer.out ++ c := by
  rw [compressed]

/-- Pass 1 of COMPRESS counts the unread bytes, where they are at most COUNT_MAX (R190 step 1). -/
theorem countPass_release (hr : s.reader.Ok) (hlen : s.reader.unread.length ≤ 0x7FFFFFFF) :
    countPass (unreadCount (release s).reader) (release s) = .done () { release s with
      ft := freqOf s.reader.unread, reader := ⟨0, 0, s.reader.input, s.reader.input.length⟩ } := by
  rw [countPass_spec (s := release s) [] freqOf_nil.symm (Nat.zero_le _) hr.2, if_pos (by simpa [BitReader.unread] using hlen),
    List.nil_append, release_reader]
  rfl

/-- COMPRESS of at most COUNT_MAX bytes appends their container (R190, R192). -/
theorem exec_compress_container (hs : s.status = .success) (hr : s.reader.Ok) (hlen : s.reader.unread.length ≤ 0x7FFFFFFF)
    (hc : IsContainer s.tieMerged s.reader.unread c) : exec .compress s = .next (compressed s c) := by
  have htotal := freqOf_total hlen
  have hcount : (freqOf s.reader.unread).total = BitVec.ofNat 32 s.reader.unread.length := rfl
  rw [exec_compress hs, countPass_release hr hlen, Run.bind_done, compressed]
  by_cases hx : s.reader.unread = []
  · have hzero : (freqOf s.reader.unread).total = 0 := by rw [hx, freqOf_nil]; rfl
    rw [hx] at hc
    generalize freqOf s.reader.unread = f at hzero ⊢
    rw [if_pos hzero, compressEmpty, isContainer_nil.1 hc, release_writer, putBytes_aligned, finish_done]
    rfl
  · obtain ⟨t, region, payload, ht, hregion, hpayload, rfl⟩ := (isContainer_iff hx).1 hc
    have hne : (freqOf s.reader.unread).total ≠ 0 := fun e => by
      rw [e] at htotal
      exact hx (List.length_eq_zero_iff.1 htotal.symm)
    generalize freqOf s.reader.unread = f at ht hcount hne ⊢
    have hrest := compressCounted_spec
      (s := { release s with ft := f, reader := ⟨0, 0, s.reader.input, s.reader.input.length⟩ })
      (by rw [release_writer]) (by rw [release_writer]) hr.2 ht hregion hpayload
    rw [if_neg hne, release_reader, hrest, finish_done, ← hcount]
    simp only [release_writer, List.append_assoc]
    rfl

/-- COMPRESS of a longer input is OUT_OF_MEMORY just past the byte that overflows TOTAL (R120, R190). -/
theorem exec_compress_overflow (hs : s.status = .success) (hlen : 0x7FFFFFFF < s.reader.unread.length) :
    exec .compress s = .next (errorState .outOfMemory 0x60
      { s with reader := { s.reader with ipos := s.reader.ipos + 0x7FFFFFFF + 1 } }) := by
  have hpos : s.reader.ipos ≤ s.reader.input.length := by rw [unread_length] at hlen; omega
  have hlong : ¬ ([] : List Byte).length + (release s).reader.unread.length ≤ 0x7FFFFFFF := by
    rw [List.length_nil, Nat.zero_add]; exact Nat.not_le.2 hlen
  rw [exec_compress hs, countPass_spec (s := release s) [] freqOf_nil.symm (Nat.zero_le _) hpos, if_neg hlong,
    Run.bind_raised, finish_raised, List.length_nil, Nat.sub_zero]
  simp only [errorState, release_reader, release_writer]
  rfl

/-- Settles O43: the input was within COUNT_MAX, so COMPRESS appended its container, and FREQ counts the input. -/
theorem compressedSize : Obligations.CompressedSize := by
  intro s u hs hr he hu
  by_cases hlen : s.reader.unread.length ≤ 0x7FFFFFFF
  · obtain ⟨c, hc⟩ := exists_isContainer s.tieMerged s.reader.unread
    rw [exec_compress_container hs hr hlen hc] at he
    cases he
    refine ⟨c, compressed_out s c, hc, fun hx => isContainer_nil.1 (hx ▸ hc), fun hx => ?_⟩
    simp only [compressed_ft, freqOf_count hlen]
    exact hc.length hx
  · rw [exec_compress_overflow hs (by omega)] at he
    cases he
    cases hu

/-! ### MANUAL_COMPRESS -/

/-- The entry the generated table holds for a symbol of the tree is valid (R160). -/
theorem generateCodes_valid {t : Tree} {q : Byte} (h : q ∈ t.symbols) : ((generateCodes t).get q).valid = true := by
  obtain ⟨p, hp⟩ := Tree.codeOf_isSome h
  rw [generateCodes_get, hp]
  rfl

/-- MANUAL_COMPRESS counts its string from a cleared table (R76). -/
theorem runWords_clearCount (hs : s.status = .success) (hlen : xs.length ≤ 0x7FFFFFFF) :
    ∃ u, runWords (([Instr.ftClear] ++ xs.map Instr.ftCount).map encode) s = .next u ∧ u.status = .success ∧
      u.ft = freqOf xs ∧ u.tieMerged = s.tieMerged ∧ u.writer = s.writer := by
  have hcounts := runWords_ftCounts (s := { s with ft := .zero }) hs xs (pre := []) freqOf_nil.symm (by simpa using hlen)
  rw [List.nil_append] at hcounts
  generalize freqOf xs = f at hcounts ⊢
  refine ⟨_, runWords_encode_append (runWords_encode_singleton (exec_ftClear hs)) hcounts, ?_, ?_, ?_, ?_⟩ <;> simp [hs]

/-- MANUAL_COMPRESS then writes the count field and the tree region and generates the codes (R76). -/
theorem runWords_buildWriteGenerate (hs : s.status = .success) {t : Tree} (ht : (buildTree s.tieMerged s.ft).tree = some t) :
    ∃ u, runWords ([Instr.tbBuild, .hdrWrite, .tsSerialize, .ctGenerate].map encode) s = .next u ∧ u.status = .success ∧
      u.ct = generateCodes t ∧ u.writer = flush (serialize t (putBytes (countBytes s.ft.total) s.writer)) := by
  obtain ⟨hv, -⟩ := buildTree_spec s.tieMerged s.ft
  have hbuild := exec_tbBuild hs
  have hheader := exec_hdrWrite (s := buildInto s) (by simpa using hs)
  rw [buildInto_ft, buildInto_writer] at hheader
  have htree := exec_tsSerialize (s := { buildInto s with writer := putBytes (countBytes s.ft.total) s.writer })
    (by simpa using hs) (by simpa using hv) (by simpa using ht)
  have hcodes := exec_ctGenerate (s := { buildInto s with
    writer := flush (serialize t (putBytes (countBytes s.ft.total) s.writer)) })
    (by simpa using hs) (by simpa using hv) (by simpa using ht)
  dsimp only at htree
  refine ⟨_, runWords_encode_cons hbuild (runWords_encode_cons hheader (runWords_encode_cons htree
    (runWords_encode_singleton hcodes))), ?_, ?_, ?_⟩ <;> simp [hs]

/-- MANUAL_COMPRESS last writes the payload (R76): the codes of its symbols, then the padding. -/
theorem runWords_encodeFlush (hs : s.status = .success) {t : Tree} (hct : s.ct = generateCodes t) (hk : t.leafCount ≤ 256)
    (hx : ∀ x ∈ xs, x ∈ t.symbols) :
    ∃ u, runWords ((xs.map Instr.heEncode ++ [Instr.bwFlush]).map encode) s = .next u ∧ u.status = .success ∧
      u.writer = flush (putBits (payloadBits t xs) s.writer) := by
  have hencodes := runWords_heEncodes hs (by rw [hct]; rfl) xs fun x hm => hct ▸ generateCodes_valid (hx x hm)
  rw [hct, ← payloadBits_eq hk] at hencodes
  refine ⟨_, runWords_encode_append hencodes (runWords_encode_singleton (exec_bwFlush ?_)), ?_, ?_⟩ <;> simp [hs]

/-- The component commands of MANUAL_COMPRESS append the container from a byte boundary (R76). -/
theorem runWords_manualCompress (hs : s.status = .success) (hw : s.writer.Ok) (hn : s.writer.nacc = 0) (hx : xs ≠ [])
    (hlen : xs.length ≤ 0x7FFFFFFF) (hc : IsContainer s.tieMerged xs c) :
    ∃ u, runWords ((expandPseudo (.manualCompress xs)).map encode) s = .next u ∧ u.status = .success ∧
      u.writer.out = s.writer.out ++ c := by
  obtain ⟨t, region, payload, ht, hregion, hpayload, rfl⟩ := (isContainer_iff hx).1 hc
  obtain ⟨hleaves, hsymbols⟩ := buildTree_leafCount ht
  obtain ⟨u, hcount, hus, huf, hut, huw⟩ := runWords_clearCount hs hlen
  rw [← huf, ← hut] at ht
  obtain ⟨v, hbuild, hvs, hvc, hvw⟩ := runWords_buildWriteGenerate hus ht
  obtain ⟨w, hencode, hws, hww⟩ := runWords_encodeFlush hvs hvc (by omega) fun x (_ : x ∈ xs) => hsymbols x
  refine ⟨w, ?_, hws, ?_⟩
  · rw [expandPseudo, List.append_assoc _ (xs.map Instr.heEncode)]
    exact runWords_encode_append (runWords_encode_append hcount hbuild) hencode
  · rw [hww, hvw, huw, acc_zero hw hn, putBytes_aligned, serialize_eq, flush_putBits hregion, flush_putBits hpayload, huf]
    simp only [List.append_assoc]
    rfl

/-- Settles O49: both append the container of the input, which its bytes and TIE_MERGED fix. -/
theorem manualCompressMatchesCompress : Obligations.ManualCompressMatchesCompress := by
  intro xs s hx hlen hs hw hn
  obtain ⟨c, hc⟩ := exists_isContainer s.tieMerged xs
  obtain ⟨u, hrun, hu, hout⟩ := runWords_manualCompress hs hw hn hx hlen hc
  refine ⟨c, u, hrun, hu, hout, fun r hrs hr htie hunread => ⟨compressed r c, ?_, by simpa using hrs, compressed_out r c⟩⟩
  subst hunread
  rw [← htie] at hc
  exact exec_compress_container hrs hr hlen hc

end Sys2Proof.Machine
end

section
/-! SUPPORT. What DECOMPRESS does with each kind of byte sequence (46_pipelines.md R191; 30_encoding.md R87): the refused
containers (a) to (e), and the accepted ones. -/

namespace Sys2Proof.Machine

/-! ### The byte sequences that are not refused -/

/-- At least four bytes are a count field and what follows it. -/
theorem exists_countField {bytes : List Byte} (h : ¬ bytes.length < 4) :
    ∃ b0 b1 b2 b3 rest, bytes = b0 :: b1 :: b2 :: b3 :: rest := by
  match bytes, h with
  | b0 :: b1 :: b2 :: b3 :: rest, _ => exact ⟨b0, b1, b2, b3, rest, rfl⟩
  | [], h | [_], h | [_, _], h | [_, _, _], h => simp at h

/-- A byte sequence that R87 does not refuse has a nonnegative count, which is 0 or is followed by a tree region and at
least as many codes. -/
theorem regions_of_not_refused {bytes : List Byte} (h : ¬ RefusedContainer bytes) :
    ∃ b0 b1 b2 b3 rest, bytes = b0 :: b1 :: b2 :: b3 :: rest ∧ b3.getLsbD 7 = false ∧
      (joinCount b0 b1 b2 b3 = 0 ∨ ∃ t region payload cs tail, rest = region ++ payload ∧ IsTreeRegion t region ∧
        PayloadHolds t payload cs tail ∧ cs.length = (joinCount b0 b1 b2 b3).toNat) := by
  obtain ⟨hlong, hfields⟩ := not_or.1 h
  obtain ⟨b0, b1, b2, b3, rest, rfl⟩ := exists_countField hlong
  have hkind := fun hbad => hfields ⟨b0, b1, b2, b3, rest, rfl, hbad⟩
  have hsign : b3.getLsbD 7 = false := eq_false_of_ne_true fun hneg => hkind (.inl hneg)
  refine ⟨b0, b1, b2, b3, rest, rfl, hsign, or_iff_not_imp_left.2 fun hzero => ?_⟩
  obtain ⟨hnoTree, hnotEarly⟩ := not_or.1 fun hbad => hkind (.inr ⟨hsign, hzero, hbad⟩)
  obtain ⟨t, tail, hbits, hleaves⟩ : ∃ t tail, rest.flatMap byteBits = treeBits t ++ tail ∧ t.leafCount ≤ 256 := by
    by_contra hnone
    exact hnoTree fun t tail hbits => not_le.1 fun hle => hnone ⟨t, tail, hbits, hle⟩
  obtain ⟨region, payload, rfl, hregion⟩ := exists_treeRegion hleaves hbits
  obtain ⟨cs, rem, hcodes, hpayload, hle, hend⟩ := exists_codes t (joinCount b0 b1 b2 b3).toNat (payload.flatMap byteBits)
  refine ⟨t, region, payload, cs, rem, rfl, hregion, ⟨hcodes, hpayload⟩, ?_⟩
  by_contra hne
  exact hnotEarly ⟨t, region, payload, cs, rfl, hregion, by omega, rem, ⟨hcodes, hpayload⟩, hend.resolve_left hne⟩

/-- The state of DECOMPRESS when it has read a count and a tree and the reader stands at `r` (R191 steps 1 and 2). -/
def treeRead (s : State) (count : Word) (t : Tree) (r : BitReader) : State :=
  { release s with dcount := count, store := ⟨layout t 0, 0, true⟩, reader := r }

/-! ### The count field -/

/-- From a byte boundary IPOS moves by the bytes that hold the bits taken (R103). -/
theorem Took.ipos_of_aligned {r r' : BitReader} {bs : List Bool} (hr : r.Ok) (hcnt : r.rcnt = 0) (h : Took r bs r') :
    r'.ipos = r.ipos + (bs.length + 7) / 8 := by
  simpa [hcnt] using h.ipos hr

section
variable {s : State} (hs : s.status = .success) (hr : s.reader.Ok)

/-- DECOMPRESS drops the bits that are held, so it begins at the unread bytes (R191). -/
theorem release_reader_bits (s : State) : (release s).reader.bits = s.reader.unread.flatMap byteBits := unread_bits rfl

include hr in
theorem release_reader_ok : (release s).reader.Ok := ⟨Nat.zero_le _, hr.2⟩

include hs hr in
/-- R87 (a): no count field. -/
theorem exec_decompress_short (h : s.reader.unread.length < 4) : exec .decompress s =
    .next (errorState .wrongInput 0x61 { s with reader := { s.reader with ipos := s.reader.input.length } }) := by
  obtain ⟨r, he, hok, hin, hnone⟩ := readCount_short (release_reader_ok hr)
    (by rw [release_reader_bits, flatMap_byteBits_length]; omega)
  have hpos : r.ipos = s.reader.input.length := ipos_of_no_bits hok hin hnone
  rw [exec_decompress hs, he, Run.bind_raised, finish_raised]
  simp only [errorState, hpos, hin, release_reader, release_writer]
  rfl

variable {b0 b1 b2 b3 : Byte} {rest : List Byte} (hu : s.reader.unread = b0 :: b1 :: b2 :: b3 :: rest)

include hr hu in
/-- Reading the count field of a container takes its four bytes (R173, R191 step 1). -/
theorem readCount_release : ∃ r : BitReader, r.Ok ∧ r.input = s.reader.input ∧ r.rcnt = 0 ∧ r.ipos = s.reader.ipos + 4 ∧
    r.bits = rest.flatMap byteBits ∧
    readCount (release s) =
      if b3.getLsbD 7 then .raised .wrongInput { release s with reader := r }
      else .done (joinCount b0 b1 b2 b3) { release s with reader := r, dcount := joinCount b0 b1 b2 b3 } := by
  have hbits : (release s).reader.bits = countBits b0 b1 b2 b3 ++ rest.flatMap byteBits := by
    simp only [release_reader_bits, hu, List.flatMap_cons, List.append_assoc]
  have hok := release_reader_ok hr
  obtain ⟨r, htook, hrest, he⟩ := readCount_took hok hbits
  have hcnt := htook.rcnt hok
  have hheld := htook.held.resolve_left fun h => absurd h.1 (by simp [byteBits])
  refine ⟨r, htook.ok, htook.input, BitVec.eq_of_toNat_eq ?_, by simpa using htook.ipos_of_aligned hok rfl, hrest, he⟩
  simp only [release_reader, List.length_append, byteBits_length, BitVec.ofNat_eq_ofNat, BitVec.toNat_zero] at hcnt ⊢
  omega

include hs hr hu

/-- R87 (b): a negative count. -/
theorem exec_decompress_negative (hneg : b3.getLsbD 7 = true) : exec .decompress s =
    .next (errorState .wrongInput 0x61 { s with reader := { s.reader with ipos := s.reader.ipos + 4 } }) := by
  obtain ⟨r, -, hin, -, hpos, -, he⟩ := readCount_release hr hu
  rw [exec_decompress hs, he, if_pos hneg, Run.bind_raised, finish_raised]
  simp only [errorState, hpos, hin, release_writer]
  rfl

variable (hsign : b3.getLsbD 7 = false)
include hsign

/-- A count of 0 decodes nothing (R191). -/
theorem exec_decompress_zero (hzero : joinCount b0 b1 b2 b3 = 0) : exec .decompress s =
    .next { released s with reader := ⟨0, 0, s.reader.input, s.reader.ipos + 4⟩ } := by
  obtain ⟨r, -, hin, -, hpos, -, he⟩ := readCount_release hr hu
  rw [exec_decompress hs, he, hsign, if_neg Bool.false_ne_true, Run.bind_done, if_pos hzero, finish_done, hzero]
  simp only [releaseTree, hpos, hin]
  rfl

variable (hcount : joinCount b0 b1 b2 b3 ≠ 0)
include hcount

/-! ### The tree region and the payload -/

/-- R87 (c), (d): no tree region of at most 511 nodes. -/
theorem exec_decompress_noTree (h : ∀ t tail, rest.flatMap byteBits = treeBits t ++ tail → 256 < t.leafCount) :
    ∃ u, exec .decompress s = .next u ∧ u.status = .wrongInput ∧ u.errOp = 0x61 := by
  obtain ⟨r, hok, -, -, -, hbits, he⟩ := readCount_release hr hu
  rw [exec_decompress hs, he, hsign, if_neg Bool.false_ne_true, Run.bind_done, if_neg hcount]
  rcases readTree_took (s := { release s with reader := r, dcount := joinCount b0 b1 b2 b3 }) hok with
    ⟨t, tail, r', hleaves, htook, -⟩ | ⟨r', nodes, htree, -⟩
  · have := h t r'.bits (hbits.symm.trans htook.bits)
    omega
  · rw [htree, Run.bind_raised, finish_raised]
    exact ⟨_, rfl, rfl, rfl⟩

/-- After a tree region DECOMPRESS decodes the payload over its tree (R191 steps 2 and 3). -/
theorem exec_decompress_tree {t : Tree} {region payload : List Byte} (hsplit : rest = region ++ payload)
    (hregion : IsTreeRegion t region) :
    ∃ r : BitReader, r.Ok ∧ r.input = s.reader.input ∧ r.rcnt = 0 ∧ r.ipos = s.reader.ipos + 4 + region.length ∧
      r.bits = payload.flatMap byteBits ∧
      exec .decompress s = finish 0x61
        ((decodePass t (joinCount b0 b1 b2 b3).toNat (treeRead s (joinCount b0 b1 b2 b3) t r)).bind fun _ s =>
          .done () (releaseTree s)) := by
  obtain ⟨r, hok, hin, hcnt, hpos, hbits, he⟩ := readCount_release hr hu
  have hlen := hregion.length
  obtain ⟨hleaves, pad, -, hpad⟩ := hregion
  rw [hsplit, List.flatMap_append, hpad, List.append_assoc] at hbits
  rw [exec_decompress hs, he, hsign, if_neg Bool.false_ne_true, Run.bind_done, if_neg hcount]
  rcases readTree_took (s := { release s with reader := r, dcount := joinCount b0 b1 b2 b3 }) hok with
    ⟨t', tail, r', -, htook, -, htree⟩ | ⟨r', nodes, -, -, -, -, hnone⟩
  · obtain ⟨rfl, -⟩ := treeBits_append_inj (htook.bits.symm.trans hbits)
    have hpos' : r'.ipos = s.reader.ipos + 4 + region.length := by
      rw [htook.ipos_of_aligned hok hcnt, treeBits_length, ← hlen]
      exact congrArg (· + region.length) hpos
    refine ⟨align r', align_ok htook.ok, htook.input.trans hin, rfl, hpos', ?_, ?_⟩
    · have hdrop : s.reader.input.drop (s.reader.ipos + 4 + region.length) = payload := by
        rw [← List.drop_drop, ← List.drop_drop]
        show ((s.reader.unread).drop 4).drop region.length = payload
        rw [hu, hsplit]
        exact List.drop_left
      rw [align_bits, htook.input, hpos']
      simp only [hin, hdrop]
    · have hsize : t'.size ≤ 511 := by rw [t'.size_eq]; omega
      rw [htree, Run.bind_done, withTree_some (layout_store t' hsize).1]
      rfl
  · have := hnone t _ hbits
    omega

/-- As many codes as the count asks for are decoded, each symbol to the sink (R191 step 3). -/
theorem exec_decompress_payload {t : Tree} {region payload : List Byte} {cs : List (List Bool × Byte)} {tail : List Bool}
    (hsplit : rest = region ++ payload) (hregion : IsTreeRegion t region) (hpayload : PayloadHolds t payload cs tail)
    (hlen : cs.length = (joinCount b0 b1 b2 b3).toNat) :
    exec .decompress s = .next { released s with
      dcount := joinCount b0 b1 b2 b3
      writer := ⟨0, 0, s.writer.out ++ cs.map Prod.snd⟩
      reader := ⟨0, 0, s.reader.input, s.reader.ipos + 4 + region.length + ((cs.flatMap Prod.fst).length + 7) / 8⟩ } := by
  obtain ⟨r, hok, hin, hcnt, hpos, hbits, he⟩ := exec_decompress_tree hs hr hu hsign hcount hsplit hregion
  obtain ⟨hcodes, hcs⟩ := hpayload
  obtain ⟨r', htook, -, hpass⟩ := decodePass_spec cs (s := treeRead s (joinCount b0 b1 b2 b3) t r) hcodes hok
    (hbits.trans hcs) 0
  have hpos' : r'.ipos = s.reader.ipos + 4 + region.length + ((cs.flatMap Prod.fst).length + 7) / 8 := by
    rw [htook.ipos_of_aligned hok hcnt]
    exact congrArg (· + _) hpos
  rw [he, ← hlen, ← Nat.add_zero cs.length, hpass, decodePass, Run.bind_done, finish_done]
  simp only [releaseTree, hpos', htook.input, treeRead, hin]
  rfl

/-- R87 (e): the symbols decoded before the source ends stay in OUT (R230). -/
theorem exec_decompress_early {t : Tree} {region payload : List Byte} {cs : List (List Bool × Byte)}
    (hsplit : rest = region ++ payload) (hregion : IsTreeRegion t region)
    (hearly : PayloadEndsEarly (joinCount b0 b1 b2 b3).toNat t payload cs) :
    exec .decompress s = .next (errorState .wrongInput 0x61 { s with
      writer := { s.writer with out := s.writer.out ++ cs.map Prod.snd }
      reader := { s.reader with ipos := s.reader.input.length } }) := by
  obtain ⟨r, hok, hin, -, -, hbits, he⟩ := exec_decompress_tree hs hr hu hsign hcount hsplit hregion
  obtain ⟨hlt, tail, ⟨hcodes, hcs⟩, hend⟩ := hearly
  obtain ⟨m, hm⟩ := Nat.exists_eq_add_of_lt hlt
  obtain ⟨r1, htook, rfl, hpass⟩ := decodePass_spec cs (s := treeRead s (joinCount b0 b1 b2 b3) t r) hcodes hok
    (hbits.trans hcs) (m + 1)
  obtain ⟨r2, hshort, hok2, hin2, hnone⟩ := decodePass_short (s := { treeRead s (joinCount b0 b1 b2 b3) t r with
    reader := r1, writer := ⟨0, 0, s.writer.out ++ cs.map Prod.snd⟩ }) m htook.ok fun p q hp => hend (p, q) hp
  have hin' : r2.input = s.reader.input := hin2.trans (htook.input.trans hin)
  have hpos : r2.ipos = s.reader.input.length := ipos_of_no_bits hok2 hin' hnone
  rw [he, hm, Nat.add_assoc, hpass]
  simp only [treeRead, release_writer] at hshort ⊢
  rw [hshort, Run.bind_raised, finish_raised]
  simp only [errorState, hpos, hin']
  rfl

end

/-! ### All byte sequences -/

section
variable {s : State} (hs : s.status = .success) (hr : s.reader.Ok)
include hs hr

/-- A refused container is WRONG_INPUT (R87). -/
theorem exec_decompress_refused (h : RefusedContainer s.reader.unread) :
    ∃ u, exec .decompress s = .next u ∧ u.status = .wrongInput ∧ u.errOp = 0x61 := by
  rcases h with hshort | ⟨b0, b1, b2, b3, rest, hu, hneg | ⟨hsign, hcount, hnoTree | hearly⟩⟩
  · exact ⟨_, exec_decompress_short hs hr hshort, rfl, rfl⟩
  · exact ⟨_, exec_decompress_negative hs hr hu hneg, rfl, rfl⟩
  · exact exec_decompress_noTree hs hr hu hsign hcount hnoTree
  · obtain ⟨t, region, payload, cs, hsplit, hregion, hearly⟩ := hearly
    exact ⟨_, exec_decompress_early hs hr hu hsign hcount hsplit hregion hearly, rfl, rfl⟩

/-- Every other byte sequence is accepted (R87). -/
theorem exec_decompress_accepted (h : ¬ RefusedContainer s.reader.unread) :
    ∃ u, exec .decompress s = .next u ∧ u.status = .success := by
  obtain ⟨b0, b1, b2, b3, rest, hu, hsign, hregions⟩ := regions_of_not_refused h
  by_cases hzero : joinCount b0 b1 b2 b3 = 0
  · exact ⟨_, exec_decompress_zero hs hr hu hsign hzero, hs⟩
  · obtain ⟨t, region, payload, cs, tail, hsplit, hregion, hpayload, hlen⟩ := hregions.resolve_left hzero
    exact ⟨_, exec_decompress_payload hs hr hu hsign hzero hsplit hregion hpayload hlen, hs⟩

end

/-- Settles O45: each refused kind is an error, and what is not refused is a zero count or a whole payload. -/
theorem decompressRefusesExactlyTheMalformed : Obligations.DecompressRefusesExactlyTheMalformed := by
  intro s hs hr
  by_cases hbad : RefusedContainer s.reader.unread
  · obtain ⟨u, he, hu⟩ := exec_decompress_refused hs hr hbad
    exact ⟨u, he, fun _ => hu, fun hgood => absurd hbad hgood⟩
  · obtain ⟨u, he, hu⟩ := exec_decompress_accepted hs hr hbad
    exact ⟨u, he, fun hbad' => absurd hbad' hbad, fun _ => hu⟩

end Sys2Proof.Machine
end

section
/-! SUPPORT. The bit writer and bit reader commands (40_bit_io.md R106 to R112): what each leaves of the buffer, the
accumulator and the streams, and that reading back what was put and flushed gives the bits put. -/

namespace Sys2Proof.Machine

variable {s : State}

/-! ### The writer commands -/

/-- An argument byte with a reserved bit set is refused with ILLEGAL_COMMAND (R73, R224). -/
theorem issue_reservedBits {op arg m : Byte} (hm : reservedMask op = some m) (ha : arg &&& m ≠ 0)
    (hs : s.status = .success) : issue (op ++ arg) s = .next (errorState .illegalCommand op s) := by
  have hop : (op ++ arg).extractLsb' 8 8 = op := opField_append op arg
  have harg : (op ++ arg).extractLsb' 0 8 = arg := argField_append op arg
  rw [issue_illegal (.inr ⟨m, by rw [hop]; exact hm, by rw [harg]; exact ha⟩), if_pos hs, hop]

/-- Settles O17: the byte PutBit leaves is ACC with bit 7 - NACC set to the operand. -/
theorem putBitFillsAccFromTheTop : Obligations.PutBitFillsAccFromTheTop :=
  ⟨fun b => decode_encode (.bwPutbit b), fun _ _ ha hs => issue_reservedBits rfl ha hs, fun b s hs =>
    ⟨setBitTo s.writer.acc (7 - s.writer.nacc.toNat) b, fun i hi => setBitTo_getLsbD _ _ i b hi, exec_bwPutbit hs b⟩⟩

/-- Settles O18: BW_PUTBYTE is PutByte, which straddles the byte boundary as `putByte_explicit` says. -/
theorem putByteStraddles : Obligations.PutByteStraddles :=
  ⟨takesByte_of_row ⟨_, rfl⟩, fun v s hs => by rw [exec_bwPutbyte hs, putByte_explicit]⟩

/-- After Flush nothing is pending, so a second Flush writes nothing (R102). -/
theorem flush_flush (w : BitWriter) : flush (flush w) = flush w := by
  by_cases h : w.nacc = 0
  · simp only [flush, if_pos h]
  · simp only [flush, if_neg h, if_true]

/-- Settles O19: BW_FLUSH is Flush, and Flush is idempotent. -/
theorem flushWritesAtMostOneByte : Obligations.FlushWritesAtMostOneByte := by
  refine ⟨takesNoOperand_of_mask rfl rfl, fun s hs => ⟨?_, fun t ht => ?_⟩⟩
  · rw [exec_bwFlush hs, flush]
    split <;> rfl
  · obtain rfl : { s with writer := flush s.writer } = t := Host.Outcome.next.inj ((exec_bwFlush hs).symm.trans ht)
    rw [exec_bwFlush (s := { s with writer := flush s.writer }) hs, flush_flush]

/-! ### The reader commands -/

section
variable (hs : s.status = .success) {r : BitReader}
include hs

theorem exec_brGetbit_done {b : Bool} (h : getBit s.reader = .done b r) :
    exec .brGetbit s = .next { s with result := bitWord b, reader := r } := by rw [exec_brGetbit hs, h]; rfl

theorem exec_brGetbit_raised (h : getBit s.reader = .raised .wrongInput r) :
    exec .brGetbit s = .next (errorState .wrongInput 0x18 { s with reader := r }) := by rw [exec_brGetbit hs, h]; rfl

theorem exec_brGetbyte_done {v : Byte} (h : getByte s.reader = .done v r) :
    exec .brGetbyte s = .next { s with result := byteWord v, reader := r } := by rw [exec_brGetbyte hs, h]; rfl

theorem exec_brGetbyte_raised (h : getByte s.reader = .raised .wrongInput r) :
    exec .brGetbyte s = .next (errorState .wrongInput 0x19 { s with reader := r }) := by rw [exec_brGetbyte hs, h]; rfl

end

section
variable {r : BitReader}

/-- With bits held, GetBit takes the highest of them (R103). -/
theorem getBit_held (h : r.rcnt ≠ 0) :
    getBit r = .done (r.rbuf.getLsbD (r.rcnt.toNat - 1)) { r with rcnt := r.rcnt - 1 } := by rw [getBit, if_neg h]; rfl

/-- With no bit held, GetBit fetches a byte and goes on as if it had been held (R103). -/
theorem getBit_fetched {v : Byte} (h : r.rcnt = 0) (hv : r.input[r.ipos]? = some v) :
    getBit r = getBit ⟨v, 8, r.input, r.ipos + 1⟩ := by
  rw [getBit, if_pos h, srcRead_some hv, getBit_held (by simp)]; rfl

/-- With no bit held and no byte to fetch, GetBit raises WRONG_INPUT (R103, R52). -/
theorem getBit_exhausted (h : r.rcnt = 0) (hv : r.input.length ≤ r.ipos) : getBit r = .raised .wrongInput r := by
  rw [getBit, if_pos h, srcRead_none (List.getElem?_eq_none hv)]; rfl

end

/-- Settles O20: the three cases of GetBit. -/
theorem getBitFetchesLazily : Obligations.GetBitFetchesLazily := by
  refine ⟨takesNoOperand_of_mask rfl rfl, fun s hs => ⟨fun hheld => ?_, fun v hnone hv => ?_, fun hnone hend => ?_⟩⟩
  · exact exec_brGetbit_done hs (getBit_held hheld)
  · exact exec_brGetbit_done hs (by rw [getBit_fetched hnone hv, getBit_held (by simp)]; simp)
  · exact exec_brGetbit_raised hs (getBit_exhausted hnone hend)

/-! ### GetByte -/

section
variable {r : BitReader}

/-- GetByte's loop in two parts. -/
theorem getByteLoop_add (m n : Nat) (x : Byte) (r : BitReader) :
    getByteLoop (m + n) x r = (getByteLoop m x r).bind fun y r' => getByteLoop n y r' := by
  induction m generalizing x r with
  | zero => rw [Nat.zero_add]; rfl
  | succ m ih =>
    rw [Nat.succ_add, getByteLoop, getByteLoop]
    cases getBit r with
    | done b r' => exact ih _ r'
    | raised e r' => rfl
    | stuck k => rfl

/-- Turns of GetByte's loop that find their bits held take the highest ones, in order, and fetch no byte (R104). -/
theorem getByteLoop_held {n : Nat} (hn : n ≤ r.rcnt.toNat) (h8 : r.rcnt.toNat ≤ 8) (x : Byte) :
    getByteLoop n x r = .done (shiftIn x (((byteBits r.rbuf).drop (8 - r.rcnt.toNat)).take n))
      { r with rcnt := r.rcnt - BitVec.ofNat 4 n } := by
  induction n generalizing x r with
  | zero => simp [getByteLoop, shiftIn]
  | succ n ih =>
    have h0 : r.rcnt ≠ 0 := fun e => by simp [e] at hn
    have hdec : (r.rcnt - 1).toNat = r.rcnt.toNat - 1 := BitVec.toNat_sub_of_le (BitVec.le_def.2 (by simp; omega))
    have hsub : r.rcnt - 1 - BitVec.ofNat 4 n = r.rcnt - BitVec.ofNat 4 (n + 1) := by
      rw [BitVec.sub_sub, Nat.add_comm, BitVec.ofNat_add]; rfl
    rw [getByteLoop, getBit_held h0, Run.bind_done,
      ih (r := { r with rcnt := r.rcnt - 1 }) (hdec ▸ Nat.le_pred_of_lt hn) (by simp only [hdec]; omega), hsub, hdec,
      drop_byteBits _ _ (by omega) h8, List.take_succ_cons]
    rfl

/-- A turn of GetByte's loop that finds no bit held goes on from the fetched byte (R104). -/
theorem getByteLoop_fetched {n : Nat} (hn : 0 < n) {v : Byte} (h : r.rcnt = 0) (hv : r.input[r.ipos]? = some v) (x : Byte) :
    getByteLoop n x r = getByteLoop n x ⟨v, 8, r.input, r.ipos + 1⟩ := by
  obtain ⟨m, rfl⟩ := Nat.exists_eq_add_one.2 hn
  rw [getByteLoop, getByteLoop, getBit_fetched h hv]

/-- A turn of GetByte's loop with no bit held and no byte to fetch raises WRONG_INPUT (R104, R52). -/
theorem getByteLoop_exhausted {n : Nat} (hn : 0 < n) (h : r.rcnt = 0) (hend : r.input.length ≤ r.ipos) (x : Byte) :
    getByteLoop n x r = .raised .wrongInput r := by
  obtain ⟨m, rfl⟩ := Nat.exists_eq_add_one.2 hn
  rw [getByteLoop, getBit_exhausted h hend, Run.bind_raised]

/-- The low k bits of one byte followed by the top 8 - k bits of another, as one byte (R110). -/
theorem byteBits_join (a b : Byte) {k : Nat} (hk : k ≤ 8) :
    byteBits (a <<< (8 - k) ||| b >>> k) = (byteBits a).drop (8 - k) ++ (byteBits b).take (8 - k) := by
  have hlow : ((byteBits a).drop (8 - k)).length = k := by rw [List.length_drop, byteBits_length]; omega
  refine List.ext_getElem? fun i => ?_
  rcases Nat.lt_or_ge i 8 with hi | hi
  · rw [byteBits_getElem? _ _ hi, BitVec.getLsbD_or, BitVec.getLsbD_shiftLeft, BitVec.getLsbD_ushiftRight]
    rcases Nat.lt_or_ge i k with hik | hik
    · rw [List.getElem?_append_left (by omega), List.getElem?_drop, byteBits_getElem? _ _ (by omega),
        BitVec.getLsbD_of_ge b _ (by omega), show 7 - i - (8 - k) = 7 - (8 - k + i) by omega]
      simp; omega
    · rw [List.getElem?_append_right (by omega), hlow, List.getElem?_take_of_lt (by omega),
        byteBits_getElem? _ _ (by omega), show k + (7 - i) = 7 - (i - k) by omega]
      simp; omega
  · rw [List.getElem?_eq_none (by simpa using hi), List.getElem?_eq_none (by simp; omega)]

/-- GetByte takes the k held bits first, and 8 - k turns of its loop are left (R104). -/
theorem getByte_eq_loop (hk : r.rcnt.toNat ≤ 8) : getByte r =
    getByteLoop (8 - r.rcnt.toNat) (shiftIn 0 ((byteBits r.rbuf).drop (8 - r.rcnt.toNat))) { r with rcnt := 0 } := by
  have hall : ((byteBits r.rbuf).drop (8 - r.rcnt.toNat)).take r.rcnt.toNat = (byteBits r.rbuf).drop (8 - r.rcnt.toNat) :=
    List.take_of_length_le (by simp; omega)
  have hnone : r.rcnt - BitVec.ofNat 4 r.rcnt.toNat = 0 := by simp
  calc getByte r
      = getByteLoop (r.rcnt.toNat + (8 - r.rcnt.toNat)) 0 r := by rw [Nat.add_sub_of_le hk, getByte]
    _ = _ := by rw [getByteLoop_add, getByteLoop_held le_rfl hk, Run.bind_done, hall, hnone]

/-- GetByte at any alignment: the held bits, then the top bits of the next byte, whose low bits are held (R110). -/
theorem getByte_join {v : Byte} (hk : r.rcnt.toNat ≤ 7) (hv : r.input[r.ipos]? = some v) :
    getByte r = .done (r.rbuf <<< (8 - r.rcnt.toNat) ||| v >>> r.rcnt.toNat) ⟨v, r.rcnt, r.input, r.ipos + 1⟩ := by
  have hleft : 8 - BitVec.ofNat 4 (8 - r.rcnt.toNat) = r.rcnt := BitVec.eq_of_toNat_eq (by simp; omega)
  have hvalue : shiftIn (shiftIn 0 ((byteBits r.rbuf).drop (8 - r.rcnt.toNat))) ((byteBits v).take (8 - r.rcnt.toNat)) =
      r.rbuf <<< (8 - r.rcnt.toNat) ||| v >>> r.rcnt.toNat := by
    rw [shiftIn, shiftIn, ← List.foldl_append, ← byteBits_join _ _ (by omega)]
    exact shiftIn_byteBits _
  rw [getByte_eq_loop (by omega), getByteLoop_fetched (r := { r with rcnt := 0 }) (by omega) rfl hv,
    getByteLoop_held (r := ⟨v, 8, r.input, r.ipos + 1⟩) (Nat.sub_le 8 _) le_rfl, hleft]
  exact congrArg (Run.done · _) hvalue

/-- GetByte with all 8 bits held takes those (R104). -/
theorem getByte_full (hk : r.rcnt = 8) : getByte r = .done r.rbuf { r with rcnt := 0 } := by
  rw [getByte_eq_loop (by simp [hk]), hk]
  exact congrArg (Run.done · _) (shiftIn_byteBits _)

/-- GetByte with too few bits held and no byte to fetch raises WRONG_INPUT, the held bits gone (R104). -/
theorem getByte_exhausted (hk : r.rcnt.toNat ≤ 7) (hend : r.input.length ≤ r.ipos) :
    getByte r = .raised .wrongInput { r with rcnt := 0 } := by
  rw [getByte_eq_loop (by omega), getByteLoop_exhausted (r := { r with rcnt := 0 }) (by omega) rfl hend]

end

/-- Settles O21: the three cases of GetByte. -/
theorem getByteJoinsHeldAndFetchedBits : Obligations.GetByteJoinsHeldAndFetchedBits := by
  refine ⟨takesNoOperand_of_mask rfl rfl, fun s hs => ⟨fun v hk hv => ?_, fun hfull => ?_, fun hk hend => ?_⟩⟩
  · exact exec_brGetbyte_done hs (getByte_join hk hv)
  · exact exec_brGetbyte_done hs (getByte_full hfull)
  · exact exec_brGetbyte_raised (r := { s.reader with rcnt := 0 }) hs (getByte_exhausted hk hend)

/-- Settles O22: BR_ALIGN is Align. -/
theorem alignDropsHeldBits : Obligations.AlignDropsHeldBits :=
  ⟨takesNoOperand_of_mask rfl rfl, fun _ hs => exec_brAlign hs⟩

/-! ### Reading back what was put -/

/-- BW_PUTBIT of each bit of a bit-string is PutBit of each (R106). -/
theorem runWords_bwPutbits (hs : s.status = .success) (bs : List Bool) :
    runWords ((bs.map Instr.bwPutbit).map encode) s = .next { s with writer := putBits bs s.writer } := by
  induction bs generalizing s with
  | nil => exact runWords_nil
  | cons b bs ih => exact runWords_encode_cons (exec_bwPutbit hs b) (ih hs)

/-- The last of n + 1 BR_GETBITs answers bit n of the bits still to be taken (R109). -/
theorem runWords_brGetbits {n : Nat} {b : Bool} (hs : s.status = .success) (hr : s.reader.Ok)
    (hb : s.reader.bits[n]? = some b) :
    ∃ u, runWords (List.replicate (n + 1) 0x1800) s = .next u ∧ u.result = bitWord b := by
  induction hbits : s.reader.bits generalizing s n with
  | nil => rw [hbits] at hb; cases hb
  | cons c bs ih =>
    obtain ⟨r, hget, hrest, hok, -⟩ := getBit_cons hr hbits
    have hfirst : issue 0x1800 s = .next { s with result := bitWord c, reader := r } :=
      (issue_ok (decode_encode .brGetbit)).trans (exec_brGetbit_done hs hget)
    rw [List.replicate_succ, runWords_cons_next hfirst]
    rw [hbits] at hb
    cases n with
    | zero => exact ⟨_, runWords_nil, by rw [Option.some.inj hb]⟩
    | succ n => exact ih hs hok (hrest ▸ hb) hrest

/-- The bits of a region: those it packs, then its zero padding (R84). -/
theorem PacksTo.getElem?_eq {bs : List Bool} {bytes : List Byte} (h : PacksTo bs bytes) {j : Nat}
    (hj : j < 8 * bytes.length) : (bytes.flatMap byteBits)[j]? = some ((bs[j]?).getD false) := by
  obtain ⟨-, hbits⟩ := h
  rw [hbits]
  rcases Nat.lt_or_ge j bs.length with hlt | hge
  · rw [List.getElem?_append_left hlt, List.getElem?_eq_getElem hlt]; rfl
  · rw [List.getElem?_append_right hge, List.getElem?_replicate, if_pos (by omega), List.getElem?_eq_none hge]; rfl

/-- Settles O23: the bits put are packed into bytes, and the bits of the unread bytes are taken in order. -/
theorem writerAndReaderAreInverses : Obligations.WriterAndReaderAreInverses := by
  intro bits s hs hnacc hacc
  obtain ⟨bytes, hpack, hflush⟩ := flush_putBits_packs (w := s.writer) (fun i _ => by simp [hacc]) hnacc bits
  refine ⟨bytes, ?_, hpack.1, fun r more hrs hcnt hunread j hj => ?_⟩
  · have hputs : runWords (bits.map fun b => encode (.bwPutbit b)) s = .next { s with writer := putBits bits s.writer } := by
      simpa [Function.comp_def] using runWords_bwPutbits hs bits
    have hlast := exec_bwFlush (s := { s with writer := putBits bits s.writer }) hs
    rw [hflush] at hlast
    exact (runWords_append_next hputs).trans (runWords_encode_singleton hlast)
  · have hne : r.reader.unread ≠ [] := by
      rw [hunread]
      exact List.append_ne_nil_of_left_ne_nil (List.ne_nil_of_length_pos (by omega)) more
    refine runWords_brGetbits hrs (ok_of_unread hcnt hne) ?_
    have hin : j < (bytes.flatMap byteBits).length := by rwa [flatMap_byteBits_length]
    rw [unread_bits hcnt, hunread, List.flatMap_append, List.getElem?_append_left hin, hpack.getElem?_eq hj]

end Sys2Proof.Machine
end

section
/-! SUPPORT. The frequency table commands (41_frequency.md R120 to R123): the two ends of FT_COUNT, and that no counter in
order has bit 31 set. -/

namespace Sys2Proof.Machine

/-! ### FT_COUNT -/

section
variable {s : State} (hs : s.status = .success) (sym : Byte)
include hs

/-- Below COUNT_MAX, FT_COUNT counts its operand and changes nothing else (R120, R121). -/
theorem exec_ftCount_below (hroom : s.ft.total ≠ 0x7FFFFFFF) :
    exec (.ftCount sym) s = .next { s with ft := counted s.ft sym } := by
  rw [exec_ftCount hs, ftCount_cases, if_neg hroom, Run.lift_done, finish_done]

/-- At COUNT_MAX, FT_COUNT raises OUT_OF_MEMORY before it writes (R120). -/
theorem exec_ftCount_full (hfull : s.ft.total = 0x7FFFFFFF) :
    exec (.ftCount sym) s = .next (errorState .outOfMemory 0x21 s) := by
  rw [exec_ftCount hs, ftCount_cases, if_pos hfull, Run.lift_raised, finish_raised]
  rfl

end

/-- Settles O24: FT_COUNT leaves `counted`, which adds one to FREQ[sym] and TOTAL and keeps R27, until TOTAL is COUNT_MAX. -/
theorem countAddsOne : Obligations.CountAddsOne := by
  refine ⟨takesByte_of_row ⟨_, rfl⟩, fun sym s hs => ⟨fun hroom => ?_, exec_ftCount_full hs sym⟩⟩
  refine ⟨counted s.ft sym, exec_ftCount_below hs sym hroom, rfl, counted_get s.ft sym, fun hok => ?_⟩
  obtain ⟨hkeeps, htotal, hsym⟩ := counted_ok hok hroom sym
  exact ⟨htotal, hsym, hkeeps⟩

/-! ### FT_CLEAR -/

/-- Settles O25: FT_CLEAR leaves the zero table. -/
theorem clearZeroesTheTable : Obligations.ClearZeroesTheTable :=
  ⟨takesNoOperand_of_mask rfl rfl, fun _ hs => ⟨.zero, exec_ftClear hs, zeroTable_count, rfl⟩⟩

/-! ### FT_READ -/

/-- No counter reaches bit 31: it is at most TOTAL, which is at most COUNT_MAX (R27). -/
theorem FreqTable.Ok.get_bit31 {t : FreqTable} (h : t.Ok) (q : Byte) : (t.get q).getLsbD 31 = false := by
  have htotal : t.total.toNat ≤ 0x7FFFFFFF := h.2
  have hle : (t.get q).toNat ≤ t.total.toNat := h.get_le q
  exact Nat.testBit_lt_two_pow (by omega)

/-- Settles O26: FT_READ puts the counter into RESULT, and a counter in order has bit 31 clear. -/
theorem readGivesTheCounter : Obligations.ReadGivesTheCounter :=
  ⟨takesByte_of_row ⟨_, rfl⟩, fun sym _ hs => ⟨exec_ftRead hs sym, fun hok => hok.get_bit31 sym⟩⟩

end Sys2Proof.Machine
end

section
/-! SUPPORT. The tree TB_BUILD makes: its merges, read from the finished node store, and its shape (42_tree_builder.md R130 to
R135; 10_state.md R22). -/

namespace Sys2Proof.Machine

/-! ### The two smallest entries of FOREST -/

/-- KEY is irreflexive (R131). -/
theorem keyBefore_irrefl (k : Nat × Nat × Nat) : ¬ keyBefore k k := by simp [keyBefore]

theorem keyBefore_trans {k l m : Nat × Nat × Nat} (h : keyBefore k l) (g : keyBefore l m) : keyBefore k m := by
  simp only [keyBefore] at *; omega

/-- When `m` merges have been made, `low` is the smallest entry of FOREST in KEY order and `high` the next (R131, R133). -/
structure TwoSmallest (tie : TieMerged) (nodes : List Node) (m low high : Nat) : Prop where
  low_mem : InForest nodes m low
  high_mem : InForest nodes m high
  low_before : keyBefore (slotKey tie nodes low) (slotKey tie nodes high)
  high_before : ∀ c, InForest nodes m c → c ≠ low → c ≠ high → keyBefore (slotKey tie nodes high) (slotKey tie nodes c)

section
variable {tie : TieMerged} {nodes ys : List Node} {m n low high : Nat}

theorem TwoSmallest.ne (h : TwoSmallest tie nodes m low high) : low ≠ high :=
  fun e => keyBefore_irrefl _ (e ▸ h.low_before)

theorem TwoSmallest.low_before_all (h : TwoSmallest tie nodes m low high) {c : Nat} (hc : InForest nodes m c) (hne : c ≠ low) :
    keyBefore (slotKey tie nodes low) (slotKey tie nodes c) := by
  by_cases hch : c = high
  · exact hch ▸ h.low_before
  · exact keyBefore_trans h.low_before (h.high_before c hc hne hch)

theorem slotKey_append (tie : TieMerged) (h : n < nodes.length) : slotKey tie (nodes ++ ys) n = slotKey tie nodes n := by
  have hleaf : isLeafSlot (nodes ++ ys) n = isLeafSlot nodes n := by
    rw [isLeafSlot, isLeafSlot, List.getElem?_append_left h]
  cases tie <;> simp only [slotKey, nodeFreq_append h, hleaf]

theorem inForest_append (h : nodes.length = 256 + m) : InForest (nodes ++ ys) m n ↔ InForest nodes m n := by
  have same : ∀ j < 256 + m, (nodes ++ ys)[j]? = nodes[j]? := fun j hj => List.getElem?_append_left (h ▸ hj)
  exact ⟨.congr same, .congr fun j hj => (same j hj).symm⟩

/-- Nodes merged later change neither FOREST as it was after `m` merges nor its keys. -/
theorem TwoSmallest.append (h : TwoSmallest tie nodes m low high) (hlen : nodes.length = 256 + m) :
    TwoSmallest tie (nodes ++ ys) m low high := by
  have key {c} (hc : InForest nodes m c) : slotKey tie (nodes ++ ys) c = slotKey tie nodes c :=
    slotKey_append tie (hlen ▸ hc.1)
  refine ⟨(inForest_append hlen).2 h.low_mem, (inForest_append hlen).2 h.high_mem, ?_, fun c hc hcl hch => ?_⟩
  · rw [key h.low_mem, key h.high_mem]
    exact h.low_before
  · have hc := (inForest_append hlen).1 hc
    rw [key h.high_mem, key hc]
    exact h.high_before c hc hcl hch

end

/-! ### One merge -/

/-- The node store and FOREST after `m` merges of BuildTree (R133). -/
abbrev forestAfter (tie : TieMerged) (t : FreqTable) (m : Nat) : Forest := mergeTimes tie m (initForest tie t)

theorem forestAfter_succ (tie : TieMerged) (t : FreqTable) (m : Nat) :
    forestAfter tie t (m + 1) = mergeOnce tie (forestAfter tie t m) := mergeTimes_add tie m 1 _

section
variable {tie : TieMerged} {t : FreqTable} {m : Nat} {f : Forest} {a b : ForestEntry} {rest : List ForestEntry}

/-- As long as a merge is left, FOREST has two entries to take (R133). -/
theorem BuildInv.forest_eq_cons (h : BuildInv tie t m f) (hm : m < 255) : ∃ a b rest, f.forest = a :: b :: rest := by
  have hlen := h.forestLen
  match hf : f.forest, hlen with
  | a :: b :: rest, _ => exact ⟨a, b, rest, rfl⟩
  | [], hlen | [_], hlen => simp at hlen; omega

theorem mergeOnce_eq (hf : f.forest = a :: b :: rest) :
    mergeOnce tie f = ⟨f.nodes ++ [.internal (a.freq + b.freq) a.slot b.slot],
      rest.insertIdx (mergePos tie (a.freq + b.freq) rest) ⟨BitVec.ofNat 9 f.nodes.length, a.freq + b.freq, false⟩⟩ := by
  simp only [mergeOnce, hf]

/-- The finished store is that after `m` merges, then the node of the next merge, then the later ones (R133). -/
theorem buildTree_nodes_eq (hm : m < 255) (hf : (forestAfter tie t m).forest = a :: b :: rest) :
    ∃ ys, (buildTree tie t).nodes =
      (forestAfter tie t m).nodes ++ .internal (a.freq + b.freq) a.slot b.slot :: ys := by
  have hlast : mergeTimes tie 255 (initForest tie t) = mergeTimes tie (254 - m) (forestAfter tie t (m + 1)) := by
    rw [forestAfter, ← mergeTimes_add]
    congr 1
    omega
  obtain ⟨ys, hys⟩ := mergeTimes_nodes tie (254 - m) (forestAfter tie t (m + 1))
  refine ⟨ys, ?_⟩
  rw [buildTree_eq, hlast, finishedStore, ← hys, forestAfter_succ, mergeOnce_eq hf]
  simp

/-- The next merge makes its node from the first two entries of FOREST and from the frequencies of their slots (R133). -/
theorem buildTree_merged (hm : m < 255) (hf : (forestAfter tie t m).forest = a :: b :: rest) :
    (buildTree tie t).nodes[256 + m]? = some (.internal
      (nodeFreq (buildTree tie t).nodes a.slot.toNat + nodeFreq (buildTree tie t).nodes b.slot.toNat) a.slot b.slot) := by
  obtain ⟨-, -, -, -, -, -, -, hmerged⟩ := buildTree_spec tie t
  obtain ⟨low, high, hnode, -⟩ := hmerged (256 + m) (by omega) (by omega)
  obtain ⟨ys, hys⟩ := buildTree_nodes_eq hm hf
  have hsame : (buildTree tie t).nodes[256 + m]? = some (.internal (a.freq + b.freq) a.slot b.slot) := by
    rw [hys, ← (forest_inv tie t m hm.le).nodesLen]
    simp
  obtain ⟨-, rfl, rfl⟩ := Node.internal.inj (Option.some.inj (hnode.symm.trans hsame))
  exact hnode

/-- FOREST stands in KEY order, so the entries merged are the two smallest (R131, R133). -/
theorem forestAfter_twoSmallest (hm : m < 255) (hf : (forestAfter tie t m).forest = a :: b :: rest) :
    TwoSmallest tie (forestAfter tie t m).nodes m a.slot.toNat b.slot.toNat := by
  have hinv := forest_inv tie t m hm.le
  have hmem := forest_mem tie t m hm.le
  have horder := hinv.order
  have hkey := fun {x y} => keyLt_slotKey (a := x) (b := y) hinv
  rw [hf] at horder
  simp only [hf, List.mem_cons] at hmem hkey
  simp only [InKeyOrder, List.pairwise_cons, List.mem_cons] at horder
  obtain ⟨ha, hb, -⟩ := horder
  refine ⟨(hmem _).1 ⟨a, .inl rfl, rfl⟩, (hmem _).1 ⟨b, .inr (.inl rfl), rfl⟩,
    hkey (.inl rfl) (.inr (.inl rfl)) (ha b (.inl rfl)), fun c hc hca hcb => ?_⟩
  obtain ⟨e, rfl | rfl | he, rfl⟩ := (hmem c).2 hc
  · exact absurd rfl hca
  · exact absurd rfl hcb
  · exact hkey (.inr (.inl rfl)) (.inr (.inr he)) (hb e he)

theorem buildTree_twoSmallest (hm : m < 255) (hf : (forestAfter tie t m).forest = a :: b :: rest) :
    TwoSmallest tie (buildTree tie t).nodes m a.slot.toNat b.slot.toNat := by
  obtain ⟨ys, hys⟩ := buildTree_nodes_eq hm hf
  exact hys ▸ (forestAfter_twoSmallest hm hf).append (forest_inv tie t m hm.le).nodesLen

end

/-- Settles O27: each merge takes the first two entries of FOREST, and the finished store shows them as the two smallest. -/
theorem buildMergesTheTwoSmallest : Obligations.BuildMergesTheTwoSmallest := by
  refine ⟨takesNoOperand_of_mask rfl rfl, fun s hs => ?_⟩
  obtain ⟨hvalid, hroot, hlen, -⟩ := buildTree_spec s.tieMerged s.ft
  refine ⟨(buildTree s.tieMerged s.ft).nodes, ?_, hlen, buildTree_leaf _ _, fun m hm => ?_⟩
  · rw [exec_tbBuild hs, buildInto, ← hroot, ← hvalid]
  · obtain ⟨a, b, rest, hf⟩ := (forest_inv s.tieMerged s.ft m hm.le).forest_eq_cons hm
    have hsmall := buildTree_twoSmallest hm hf
    exact ⟨a.slot, b.slot, buildTree_merged hm hf, hsmall.low_mem, hsmall.high_mem, fun e => hsmall.ne (congrArg _ e),
      fun _ => hsmall.low_before_all, hsmall.high_before⟩

/-! ### The shape of a built tree -/

/-- Only a tree that is a single leaf has a code of no bits. -/
theorem Tree.codes_length_pos {t : Tree} {p : List Bool} {q : Byte} (h : (p, q) ∈ t.codes) (hk : 1 < t.leafCount) :
    1 ≤ p.length := by
  cases t with
  | leaf => exact absurd hk (lt_irrefl 1)
  | node low high =>
    obtain ⟨b, path, rfl, -⟩ := Tree.mem_codes_node.1 h
    exact Nat.le_add_left 1 path.length

/-- Every symbol has a leaf of a built tree, at a depth of 1 to 255 (R135 items 1 and 4). -/
theorem buildTree_codeOf {tie : TieMerged} {t : FreqTable} {u : Tree} (h : (buildTree tie t).tree = some u) (q : Byte) :
    ∃ p, u.codeOf q = some p ∧ 1 ≤ p.length ∧ p.length ≤ 255 := by
  obtain ⟨hleaves, hsymbols⟩ := buildTree_leafCount h
  obtain ⟨p, hp⟩ := Tree.codeOf_isSome (hsymbols q)
  have hlt := Tree.codes_length_lt (Tree.codeOf_mem hp)
  exact ⟨p, hp, Tree.codes_length_pos (Tree.codeOf_mem hp) (by omega), by omega⟩

/-- A sum of words is the sum of their values, modulo the width. -/
theorem sum_eq_ofNat_sum_toNat (l : List Word) : l.sum = BitVec.ofNat 32 (l.map BitVec.toNat).sum := by
  induction l with
  | nil => rfl
  | cons x xs ih =>
    rw [List.sum_cons, List.map_cons, List.sum_cons, BitVec.ofNat_add, BitVec.ofNat_toNat, BitVec.setWidth_eq, ih]

/-- The root's frequency is TOTAL (R135 item 2). -/
theorem buildTree_root_freq {tie : TieMerged} {t : FreqTable} (h : t.Ok) : nodeFreq (buildTree tie t).nodes 510 = t.total := by
  obtain ⟨hsum, -⟩ := h
  obtain ⟨-, -, -, -, -, hroot, -⟩ := buildTree_spec tie t
  rw [hroot, ← t.toList_eq, sum_eq_ofNat_sum_toNat, ← FreqTable.sum, hsum, BitVec.ofNat_toNat, BitVec.setWidth_eq]

/-- Settles O28: the symbols of a built tree are the 256 byte values in some order, and the store is a function of FREQ and
TIE_MERGED. -/
theorem builtTreeHasEverySymbolOnce : Obligations.BuiltTreeHasEverySymbolOnce := by
  intro s hs
  obtain ⟨-, hroot, -, hok, ⟨t, ht, hperm⟩, -⟩ := buildTree_spec s.tieMerged s.ft
  obtain ⟨hleaves, -⟩ := buildTree_leafCount ht
  refine ⟨buildInto s, t, exec_tbBuild hs, hok, ht, hleaves, hperm.nodup_iff.2 allBytes_nodup, buildTree_codeOf ht,
    fun hft => ?_, fun s' u' hs' htie hfreq he => ?_⟩
  · rw [buildInto_store, hroot]
    exact buildTree_root_freq hft
  · obtain rfl := Host.Outcome.next.inj ((exec_tbBuild hs').symm.trans he)
    rw [buildInto_store, buildInto_store, htie, buildTree_freq s.tieMerged hfreq]

end Sys2Proof.Machine
end

section
/-! SUPPORT. The tree TB_BUILD makes for a single symbol: its leaf is taken last, as the root's `high` child (42_tree_builder.md
R131, R133, R134; 46_pipelines.md R196). -/

namespace Sys2Proof.Machine

/-! ### The lone entry of FOREST -/

section
variable {tie : TieMerged} {t : FreqTable} {f : Forest} {x a b : ForestEntry} {l rest : List ForestEntry} {sym : Byte}

/-- `x` is the only entry whose frequency is not zero. -/
structure LoneEntry (x : ForestEntry) (l : List ForestEntry) : Prop where
  mem : x ∈ l
  freq_ne_zero : x.freq ≠ 0
  eq_of_freq : ∀ e ∈ l, e.freq ≠ 0 → e = x

/-- The lone entry comes last in KEY order: an entry before another one has frequency zero (R131, R134). -/
theorem LoneEntry.freq_eq_zero (h : LoneEntry x l) (ha : a ∈ l) (hb : b ∈ l) (hlt : a.keyLt tie b = true) : a.freq = 0 := by
  by_contra hne
  rw [keyLt_iff] at hlt
  have hapos : a.freq.toNat ≠ 0 := fun e => hne (BitVec.eq_of_toNat_eq e)
  have hbpos : b.freq.toNat ≠ 0 := by omega
  have hbne : b.freq ≠ 0 := fun e => hbpos (congrArg BitVec.toNat e)
  obtain rfl := h.eq_of_freq a ha hne
  obtain rfl := h.eq_of_freq b hb hbne
  omega

/-- Where entries remain after the two taken, a merge takes two zero entries and leaves the lone one (R134). -/
theorem LoneEntry.after_merge (h : LoneEntry x f.forest) (horder : InKeyOrder tie f.forest) (hlen : 2 < f.forest.length) :
    LoneEntry x (mergeOnce tie f).forest := by
  match hf : f.forest with
  | [] | [_] | [_, _] => simp [hf] at hlen
  | a :: b :: c :: rest =>
    rw [hf] at h horder
    simp only [InKeyOrder, List.pairwise_cons] at horder
    obtain ⟨halt, hblt, -⟩ := horder
    have ha : a.freq = 0 := h.freq_eq_zero (b := b) (by simp) (by simp) (halt b (by simp))
    have hb : b.freq = 0 := h.freq_eq_zero (b := c) (by simp) (by simp) (hblt c (by simp))
    have hperm := insertAtPos_perm tie ⟨BitVec.ofNat 9 f.nodes.length, a.freq + b.freq, false⟩ (c :: rest)
    have hx := h.mem
    rw [mergeOnce_eq hf]
    refine ⟨hperm.mem_iff.2 ?_, h.freq_ne_zero, fun e he hne => ?_⟩
    · obtain rfl | rfl | hx := List.mem_cons.1 hx |>.imp_right List.mem_cons.1
      · exact absurd ha h.freq_ne_zero
      · exact absurd hb h.freq_ne_zero
      · exact List.mem_cons_of_mem _ hx
    · obtain rfl | he := List.mem_cons.1 (hperm.mem_iff.1 he)
      · exact absurd (by simp [ha, hb]) hne
      · exact h.eq_of_freq e (by simp [List.mem_cons.1 he]) hne

/-- The entry of a symbol's leaf in the first FOREST (R130). -/
def leafEntry (t : FreqTable) (sym : Byte) : ForestEntry := ⟨BitVec.ofNat 9 sym.toNat, t.get sym, true⟩

theorem leafEntry_slot (t : FreqTable) (sym : Byte) : (leafEntry t sym).slot.toNat = sym.toNat :=
  ofNat9_toNat (sym.isLt.trans (by decide))

theorem mem_initForest {e : ForestEntry} : e ∈ (initForest tie t).forest ↔ ∃ q, e = leafEntry t q := by
  rw [initForest, (sortByKey_perm tie (initEntries t)).mem_iff, initEntries, List.mem_map]
  constructor
  · rintro ⟨s, hs, rfl⟩
    have hs8 : (BitVec.ofNat 8 s).toNat = s := Nat.mod_eq_of_lt (List.mem_range.1 hs)
    exact ⟨BitVec.ofNat 8 s, by rw [leafEntry, hs8]⟩
  · rintro ⟨q, rfl⟩
    exact ⟨q.toNat, List.mem_range.2 q.isLt, by simp [leafEntry]⟩

/-- With one symbol of a nonzero frequency, its leaf stays the lone entry of FOREST until the last merge (R134). -/
theorem forestAfter_lone (hsym : t.get sym ≠ 0) (hzero : ∀ q, q ≠ sym → t.get q = 0) {m : Nat} (hm : m ≤ 254) :
    LoneEntry (leafEntry t sym) (forestAfter tie t m).forest := by
  induction m with
  | zero =>
    refine ⟨mem_initForest.2 ⟨sym, rfl⟩, hsym, fun e he hne => ?_⟩
    obtain ⟨q, rfl⟩ := mem_initForest.1 he
    exact congrArg (leafEntry t) (not_imp_comm.1 (hzero q) hne)
  | succ m ih =>
    have hinv := forest_inv tie t m (by omega)
    rw [forestAfter_succ]
    exact (ih (by omega)).after_merge hinv.order (by rw [hinv.forestLen]; omega)

/-- The last merge takes the lone leaf as `high` (R134). -/
theorem buildTree_root_of_lone (hsym : t.get sym ≠ 0) (hzero : ∀ q, q ≠ sym → t.get q = 0) :
    ∃ f low high, (buildTree tie t).nodes[510]? = some (.internal f low high) ∧ high.toNat = sym.toNat := by
  have hinv := forest_inv tie t 254 (by decide)
  have hlone := forestAfter_lone (tie := tie) hsym hzero le_rfl
  obtain ⟨a, b, hf⟩ := List.length_eq_two.1 hinv.forestLen
  have horder := hinv.order
  refine ⟨_, a.slot, b.slot, buildTree_merged (by decide) hf, ?_⟩
  rw [hf] at hlone horder
  have ha : a.freq = 0 := hlone.freq_eq_zero (b := b) (by simp) (by simp) (by simpa [InKeyOrder] using horder)
  have hb : leafEntry t sym = b := by
    have hmem := hlone.mem
    rw [List.mem_pair] at hmem
    exact hmem.resolve_left fun e => hlone.freq_ne_zero (e ▸ ha)
  rw [← hb, leafEntry_slot]

end

/-! ### The tree below a slot, one level at a time -/

section
variable {nodes : List Node} {fuel n : Nat} {q : Byte} {f : Word} {low high : Slot} {u : Tree}

theorem subtree_of_leaf (h : nodes[n]? = some (.leaf q f)) : subtree nodes (fuel + 1) n = some (.leaf q) := by
  simp only [subtree, h]

theorem subtree_of_internal (h : nodes[n]? = some (.internal f low high)) (hu : subtree nodes (fuel + 1) n = some u) :
    ∃ l r, u = .node l r ∧ subtree nodes fuel low.toNat = some l ∧ subtree nodes fuel high.toNat = some r := by
  simp only [subtree, h] at hu
  cases hl : subtree nodes fuel low.toNat with
  | none => simp [hl] at hu
  | some l =>
    cases hr : subtree nodes fuel high.toNat with
    | none => simp [hl, hr] at hu
    | some r => exact ⟨l, r, by simpa [hl, hr] using hu.symm, rfl, rfl⟩

end

/-- A leaf that is the `high` child of the root has the code `1` (R85). -/
theorem Tree.codeOf_node_leaf (low : Tree) (q : Byte) : (Tree.node low (.leaf q)).codeOf q = some [true] := by
  simp [Tree.codeOf, Tree.codes]

/-- The tree of a single symbol has the symbol's leaf as the root's `high` child (R134). -/
theorem buildTree_of_lone {tie : TieMerged} {t : FreqTable} {sym : Byte} (hsym : t.get sym ≠ 0)
    (hzero : ∀ q, q ≠ sym → t.get q = 0) : ∃ low, (buildTree tie t).tree = some (.node low (.leaf sym)) := by
  obtain ⟨-, hroot, hlen, -, ⟨u, hu, -⟩, -⟩ := buildTree_spec tie t
  obtain ⟨f, low, high, hnode, hhigh⟩ := buildTree_root_of_lone (tie := tie) hsym hzero
  have htree := hu
  rw [NodeStore.tree, hroot, hlen] at htree
  obtain ⟨l, r, rfl, -, hr⟩ := subtree_of_internal (fuel := 510) hnode htree
  rw [hhigh, subtree_of_leaf (fuel := 509) (buildTree_leaf tie t sym)] at hr
  cases hr
  exact ⟨l, hu⟩

/-- Settles O29: the leaf of the symbol is the `high` child of the root, so its path is the one bit 1. -/
theorem singleSymbolGetsCodeOne : Obligations.SingleSymbolGetsCodeOne := by
  intro sym s hs hsym hzero
  obtain ⟨hvalid, -⟩ := buildTree_spec s.tieMerged s.ft
  obtain ⟨low, ht⟩ := buildTree_of_lone (tie := s.tieMerged) hsym hzero
  have hget : (generateCodes (.node low (.leaf sym))).get sym = CodeEntry.ofPath [true] := by
    rw [generateCodes_get, Tree.codeOf_node_leaf]
  refine ⟨buildInto s, _, exec_tbBuild hs, exec_ctGenerate (s := buildInto s) hs hvalid ht, ?_⟩
  dsimp only
  rw [hget]
  exact ⟨rfl, rfl, rfl⟩

end Sys2Proof.Machine
end

section
/-! SUPPORT. The tree serializer and deserializer commands (43_tree_serdes.md R140 to R146): what TS_SERIALIZE writes at any
alignment, what TD_DESERIALIZE rebuilds or refuses, and that the second undoes the first. -/

namespace Sys2Proof.Machine

variable {s : State} {t : Tree}

/-! ### Writing -/

/-- The bits a writer has pending, oldest first (R31). -/
abbrev BitWriter.pending (w : BitWriter) : List Bool := (byteBits w.acc).take w.nacc.toNat

/-- A writer in order is one at a byte boundary into which its pending bits have been put (R31, R100). -/
theorem BitWriter.Ok.eq_putBits_pending {w : BitWriter} (hw : w.Ok) : w = putBits w.pending ⟨0, 0, w.out⟩ :=
  writer_ext hw (putBits_ok (writer_zero_ok w.out)) (by rw [putBits_bits]; simp [BitWriter.bits])

/-- Putting a bit-string and flushing appends the bytes that pack the pending bits and the bit-string (R102, R112). -/
theorem flush_putBits_pending {w : BitWriter} (hw : w.Ok) {bs : List Bool} {bytes : List Byte}
    (h : PacksTo (w.pending ++ bs) bytes) : flush (putBits bs w) = ⟨0, 0, w.out ++ bytes⟩ := by
  conv_lhs => rw [hw.eq_putBits_pending]
  rw [← putBits_append, flush_putBits h]

section
variable {region : List Byte} (hs : s.status = .success) (hv : s.store.valid = true) (ht : s.store.tree = some t)
  (hw : s.writer.Ok)
include hs hv ht hw

/-- TS_SERIALIZE appends the pending bits and the tree's bits, packed (R141). -/
theorem exec_tsSerialize_region (h : PacksTo (s.writer.pending ++ treeBits t) region) :
    exec .tsSerialize s = .next { s with writer := ⟨0, 0, s.writer.out ++ region⟩ } := by
  rw [exec_tsSerialize hs hv ht, serialize_eq, flush_putBits_pending hw h]

/-- From a byte boundary TS_SERIALIZE appends the tree region alone (R141, R82). -/
theorem exec_tsSerialize_aligned (hn : s.writer.nacc = 0) (h : PacksTo (treeBits t) region) :
    exec .tsSerialize s = .next { s with writer := ⟨0, 0, s.writer.out ++ region⟩ } :=
  exec_tsSerialize_region hs hv ht hw (by simpa [BitWriter.pending, hn] using h)

end

/-- Settles O30: the pending bits and the grammar's bits are packed as one bit-string. -/
theorem serializeWritesTheTreeRegion : Obligations.SerializeWritesTheTreeRegion := by
  refine ⟨takesNoOperand_of_mask rfl rfl, fun s hs hv => ?_, fun s hs hok hv hw => ?_⟩
  · exact exec_precondition (i := .tsSerialize) (by simp) hs fun hp => by simp [hp.1 (.inl rfl)] at hv
  · obtain ⟨t, ht, -⟩ := hok.tree hv
    obtain ⟨region, hpack⟩ := PacksTo.exists (s.writer.pending ++ treeBits t)
    exact ⟨t, region, ht, hpack, exec_tsSerialize_region hs hv ht hw hpack⟩

/-- A packed tree of k leaves is ceil((10k - 1) / 8) bytes (R142). -/
theorem PacksTo.length_of_tree {region : List Byte} (h : PacksTo (treeBits t) region) :
    region.length = (10 * t.leafCount - 1 + 7) / 8 := by
  obtain ⟨hlen, -⟩ := h
  rw [hlen, treeBits_length]

/-- From a byte boundary TS_SERIALIZE appends ceil((10k - 1) / 8) bytes (R142). -/
theorem exec_tsSerialize_length (hs : s.status = .success) (hv : s.store.valid = true) (ht : s.store.tree = some t)
    (hw : s.writer.Ok) (hn : s.writer.nacc = 0) :
    ∃ u, exec .tsSerialize s = .next u ∧
      u.writer.out.length = s.writer.out.length + (10 * t.leafCount - 1 + 7) / 8 := by
  obtain ⟨region, hpack⟩ := PacksTo.exists (treeBits t)
  refine ⟨_, exec_tsSerialize_aligned hs hv ht hw hn hpack, ?_⟩
  rw [List.length_append, hpack.length_of_tree]

/-- Settles O31: the size of the grammar's bit-string; a built tree has 256 leaves. -/
theorem serializedSize : Obligations.SerializedSize := by
  refine ⟨treeBits_length, fun s t => exec_tsSerialize_length, fun s hs hw hn => ?_⟩
  obtain ⟨hv, -, -, -, ⟨t, ht, -⟩, -⟩ := buildTree_spec s.tieMerged s.ft
  obtain ⟨hleaves, -⟩ := buildTree_leafCount ht
  obtain ⟨v, hser, hlen⟩ := exec_tsSerialize_length (s := buildInto s) hs hv ht hw hn
  exact ⟨_, v, t, exec_tbBuild hs, ht, hleaves, hser, by rw [hlen, hleaves, buildInto_writer]⟩

/-! ### Reading -/

/-- The deserializer gives no node a frequency (R144). -/
theorem mem_layout_cases {off : Nat} {x : Node} (h : x ∈ layout t off) :
    (∃ q, x = .leaf q 0) ∨ ∃ low high, x = .internal 0 low high := by
  induction t generalizing off with
  | leaf q => exact .inl ⟨q, List.mem_singleton.1 h⟩
  | node low high ihl ihh =>
    simp only [layout, List.mem_cons, List.mem_append] at h
    obtain rfl | h | h := h
    · exact .inr ⟨_, _, rfl⟩
    · exact ihl h
    · exact ihh h

theorem nodeFreq_layout (t : Tree) (off n : Nat) : nodeFreq (layout t off) n = 0 := by
  unfold nodeFreq
  cases hx : (layout t off)[n]? with
  | none => rfl
  | some x => obtain ⟨q, rfl⟩ | ⟨low, high, rfl⟩ := mem_layout_cases (List.mem_of_getElem? hx) <;> rfl

/-- A tree laid out from slot 0 takes the slots in pre-order (R144). -/
theorem slotsBelow_layout (h : t.size ≤ 511) :
    slotsBelow (layout t 0) (layout t 0).length 0 = List.range (layout t 0).length := by
  obtain ⟨-, hslots⟩ := subtree_layout t [] [] (layout t 0).length (by simp) (by simpa using h)
  simpa [List.range_eq_range'] using hslots

section
variable (hs : s.status = .success) (hr : s.reader.Ok)
include hs hr

/-- TD_DESERIALIZE of bits that begin with a tree the store can hold (R143, R145). -/
theorem exec_tdDeserialize_tree {rest : List Bool} (hbits : s.reader.bits = treeBits t ++ rest) (hk : t.leafCount ≤ 256) :
    ∃ rbuf, exec .tdDeserialize s = .next { s with
      store := ⟨layout t 0, 0, true⟩, ct := { s.ct with valid := false }
      reader := ⟨rbuf, 0, s.reader.input, s.reader.ipos + (10 * t.leafCount - 1 - s.reader.rcnt.toNat + 7) / 8⟩ } := by
  rw [exec_tdDeserialize hs]
  rcases readTree_took hr with ⟨t', -, r', -, htook, -, he⟩ | ⟨-, -, -, -, -, -, hnone⟩
  · obtain ⟨rfl, -⟩ := treeBits_append_inj (htook.bits.symm.trans hbits)
    refine ⟨r'.rbuf, ?_⟩
    rw [he, finish_done, align, htook.input, htook.ipos hr, treeBits_length]
  · exact absurd (hnone t rest hbits) (Nat.not_lt.2 hk)

/-- TD_DESERIALIZE of bits that begin with no such tree (R145, R230). -/
theorem exec_tdDeserialize_noTree (h : ∀ t rest, s.reader.bits = treeBits t ++ rest → 256 < t.leafCount) :
    ∃ p, s.reader.ipos ≤ p ∧ p ≤ s.reader.input.length ∧
      exec .tdDeserialize s = .next (errorState .wrongInput 0x31 { s with reader := { s.reader with ipos := p } }) := by
  rw [exec_tdDeserialize hs]
  rcases readTree_took hr with ⟨t, -, r', hk, htook, -⟩ | ⟨r', nodes, he, hok, hin, hpos, -⟩
  · exact absurd (h t r'.bits htook.bits) (Nat.not_lt.2 hk)
  · refine ⟨r'.ipos, hpos, hin ▸ hok.2, ?_⟩
    rw [he, finish_raised]
    simp only [errorState, hin]
    rfl

end

/-- Settles O32: what is rebuilt is the tree laid out in pre-order from slot 0. -/
theorem deserializeRebuildsTheTree : Obligations.DeserializeRebuildsTheTree := by
  refine ⟨takesNoOperand_of_mask rfl rfl, fun s hs hr => ⟨fun t rest hbits hk => ?_, exec_tdDeserialize_noTree hs hr⟩⟩
  obtain ⟨rbuf, he⟩ := exec_tdDeserialize_tree hs hr hbits hk
  have hsize : t.size ≤ 511 := by rw [t.size_eq]; omega
  refine ⟨layout t 0, rbuf, he, ?_, (layout_store t hsize).1, slotsBelow_layout hsize, nodeFreq_layout t 0⟩
  rw [layout_length, t.size_eq]

/-! ### Reading back what was written -/

/-- A reader at a byte boundary whose unread bytes begin with a tree region is in order and has that tree's bits to come
(R82, R103). -/
theorem IsTreeRegion.reader_bits {r : BitReader} {region more : List Byte} (h : IsTreeRegion t region) (hcnt : r.rcnt = 0)
    (hu : r.unread = region ++ more) : r.Ok ∧ ∃ rest, r.bits = treeBits t ++ rest := by
  have hpos := t.leafCount_pos
  have hlen := h.length
  obtain ⟨-, pad, -, hbits⟩ := h
  have hne : r.unread ≠ [] := by
    rw [hu]
    exact List.append_ne_nil_of_left_ne_nil (List.ne_nil_of_length_pos (by omega)) more
  refine ⟨ok_of_unread hcnt hne, pad ++ more.flatMap byteBits, ?_⟩
  rw [unread_bits hcnt, hu, List.flatMap_append, hbits, List.append_assoc]

/-- Settles O33: the region's bits begin with the grammar's bits of the tree, which determine it. -/
theorem serializeThenDeserializeGivesTheTree : Obligations.SerializeThenDeserializeGivesTheTree := by
  intro s hs hok hv hw hn
  obtain ⟨t, ht, hk⟩ := hok.leafCount hv
  have hsize : t.size ≤ 511 := by rw [t.size_eq]; omega
  obtain ⟨region, hpack⟩ := PacksTo.exists (treeBits t)
  refine ⟨t, region, ht, hpack.length_of_tree, exec_tsSerialize_aligned hs hv ht hw hn hpack,
    fun r more hrs hcnt hunread => ?_⟩
  obtain ⟨hrok, rest, hbits⟩ := (hpack.treeRegion hk).reader_bits hcnt hunread
  obtain ⟨rbuf, he⟩ := exec_tdDeserialize_tree hrs hrok hbits hk
  exact ⟨_, he, hrs, (layout_store t hsize).1, rfl, by simp [hpack.length_of_tree, hcnt], rfl⟩

end Sys2Proof.Machine
end

section
/-! SUPPORT. The code table commands (44_code_table.md R160 to R164): the entry CT_GENERATE records for each symbol, what
CT_READLEN reads of one, that no code begins another symbol's, and that the codes of a built tree are complete. -/

namespace Sys2Proof.Machine

variable {s : State} {t : Tree}

/-! ### The recorded entries -/

section
variable {p : List Bool} (hp : p.length ≤ 255)
include hp

/-- The length of a code of at most 255 bits is recorded whole (R160). -/
theorem ofPath_len : (CodeEntry.ofPath p).len.toNat = p.length := by
  simp only [CodeEntry.ofPath, BitVec.toNat_ofNat]
  omega

/-- Bit j of a recorded code is the code's j-th bit, and 0 above its length (R160). -/
theorem ofPath_getLsbD (j : Nat) : (CodeEntry.ofPath p).code.getLsbD j = (p[j]?).getD false := by
  simp only [CodeEntry.ofPath, BitVec.getLsbD_ofNat, codeNumber_testBit]
  by_cases hj : j < 255
  · rw [decide_eq_true hj, Bool.true_and]
  · rw [decide_eq_false hj, Bool.false_and, List.getElem?_eq_none (by omega), Option.getD_none]

end

/-- In a tree the store can hold, every code fits the 255 bits of an entry (R22, R160). -/
theorem Tree.codeOf_length_le {p : List Bool} {q : Byte} (hk : t.leafCount ≤ 256) (h : t.codeOf q = some p) :
    p.length ≤ 255 := by
  have := Tree.codes_length_lt (Tree.codeOf_mem h)
  omega

theorem generateCodes_get_some {p : List Bool} {q : Byte} (h : t.codeOf q = some p) :
    (generateCodes t).get q = CodeEntry.ofPath p := by
  rw [generateCodes_get, h]

theorem generateCodes_get_none {q : Byte} (h : t.codeOf q = none) : (generateCodes t).get q = CodeEntry.none := by
  rw [generateCodes_get, h]

/-- Only a symbol with a leaf gets a valid entry (R164). -/
theorem exists_codeOf_of_valid {q : Byte} (h : ((generateCodes t).get q).valid = true) : ∃ p, t.codeOf q = some p := by
  cases hq : t.codeOf q with
  | none => rw [generateCodes_get_none hq] at h; cases h
  | some p => exact ⟨p, rfl⟩

/-- Settles O34: CT_GENERATE leaves `generateCodes` of the store's tree, whose entries record the paths bit by bit. -/
theorem generateRecordsLeafPaths : Obligations.GenerateRecordsLeafPaths := by
  refine ⟨takesNoOperand_of_mask rfl rfl, fun s hs hv => ?_, fun s hs hok hv => ?_⟩
  · exact exec_precondition (i := .ctGenerate) (by simp) hs fun hp => by simp [hp.1 (.inr (.inl rfl))] at hv
  · obtain ⟨t, ht, hk⟩ := hok.leafCount hv
    refine ⟨t, generateCodes t, ht, exec_ctGenerate hs hv ht, rfl, fun sym => ⟨fun p hp => ?_, generateCodes_get_none⟩⟩
    have hlen := Tree.codeOf_length_le hk hp
    rw [generateCodes_get_some hp]
    exact ⟨rfl, ofPath_len hlen, ofPath_getLsbD hlen⟩

/-! ### Reading a length -/

/-- The validity bit stands just above the 8 bits of the length (R162). -/
theorem readLen_toNat (e : CodeEntry) : e.readLen.toNat = (if e.valid then 256 else 0) + e.len.toNat := by
  have hlen : e.len.toNat < 2 ^ 8 := e.len.isLt
  have hlow : (e.len.setWidth 32).toNat = e.len.toNat := BitVec.toNat_setWidth_of_le (by decide)
  rw [CodeEntry.readLen, BitVec.toNat_or, hlow]
  cases e.valid with
  | false => simp
  | true =>
    calc e.len.toNat ||| 256 = 2 ^ 8 * 1 ||| e.len.toNat := Nat.or_comm _ _
      _ = 2 ^ 8 * 1 + e.len.toNat := (Nat.two_pow_add_eq_or_of_lt hlen 1).symm

/-- Settles O35: RESULT becomes `readLen` of the symbol's entry, the table valid or not. -/
theorem readLengthGivesValidityAndLength : Obligations.ReadLengthGivesValidityAndLength :=
  ⟨fun sym => decode_encode (.ctReadlen sym), fun sym s hs =>
    ⟨(s.ct.get sym).readLen, exec_ctReadlen hs sym, readLen_toNat (s.ct.get sym)⟩⟩

/-! ### No code begins another -/

/-- Where the code of one symbol begins the code of another, the two are one symbol (R163). -/
theorem eq_of_generateCodes_prefix {a b : Byte} (hk : t.leafCount ≤ 256) (ha : ((generateCodes t).get a).valid = true)
    (hb : ((generateCodes t).get b).valid = true)
    (h : ((generateCodes t).get a).bits <+: ((generateCodes t).get b).bits) : a = b := by
  obtain ⟨p, hp⟩ := exists_codeOf_of_valid ha
  obtain ⟨q, hq⟩ := exists_codeOf_of_valid hb
  rw [generateCodes_bits hk, generateCodes_bits hk, hp, hq] at h
  exact (Tree.codes_prefix_free (Tree.codeOf_mem hp) (Tree.codeOf_mem hq) h).2

/-! ### Completeness -/

/-- The paths to a tree's leaves are complete (R163): scaled by 2^n, with n at least the tree's depth, the sum of
2^(-length) over them is 1. Each half of an internal node contributes half. -/
theorem Tree.sum_codes_weight {n : Nat} (h : t.leafCount ≤ n + 1) :
    (t.codes.map fun c => 2 ^ (n - c.1.length)).sum = 2 ^ n := by
  induction t generalizing n with
  | leaf => simp [Tree.codes]
  | node low high ihl ihh =>
    have hlow := low.leafCount_pos
    have hhigh := high.leafCount_pos
    simp only [Tree.leafCount] at h
    obtain ⟨m, rfl⟩ : ∃ m, n = m + 1 := ⟨n - 1, by omega⟩
    simp only [Tree.codes, List.map_append, List.map_map, Function.comp_def, List.length_cons, Nat.add_sub_add_right,
      List.sum_append]
    rw [ihl (by omega), ihh (by omega), pow_succ, mul_two]

/-- In a tree without repeated symbols a leaf's path is its symbol's code (R164). -/
theorem Tree.codeOf_eq_of_nodup {p : List Bool} {q : Byte} (hd : t.symbols.Nodup) (h : (p, q) ∈ t.codes) :
    t.codeOf q = some p := by
  obtain ⟨p', hp'⟩ := Tree.codeOf_isSome (t := t) (s := q) (t.codes_map_snd ▸ List.mem_map_of_mem h)
  rw [← Tree.codes_map_snd] at hd
  rw [hp', (Prod.mk.inj (List.inj_on_of_nodup_map hd (Tree.codeOf_mem hp') h rfl)).1]

/-- The 256 generated codes of a tree that holds each byte value once are complete (R163). -/
theorem generateCodes_complete (hperm : t.symbols.Perm allBytes) :
    (allBytes.map fun q => 2 ^ (255 - ((generateCodes t).get q).len.toNat)).sum = 2 ^ 255 := by
  have hd : t.symbols.Nodup := hperm.nodup_iff.2 allBytes_nodup
  have hk : t.leafCount = 255 + 1 := by rw [← t.symbols_length, hperm.length_eq]; simp [allBytes]
  have hlen : ∀ c ∈ t.codes, ((generateCodes t).get c.2).len.toNat = c.1.length := fun c hc => by
    have hcode := Tree.codeOf_eq_of_nodup hd hc
    rw [generateCodes_get_some hcode, ofPath_len (Tree.codeOf_length_le hk.le hcode)]
  calc (allBytes.map fun q => 2 ^ (255 - ((generateCodes t).get q).len.toNat)).sum
      = (t.symbols.map fun q => 2 ^ (255 - ((generateCodes t).get q).len.toNat)).sum := ((hperm.map _).sum_eq).symm
    _ = (t.codes.map fun c => 2 ^ (255 - ((generateCodes t).get c.2).len.toNat)).sum := by
        rw [← t.codes_map_snd, List.map_map]; rfl
    _ = (t.codes.map fun c => 2 ^ (255 - c.1.length)).sum := by
        rw [List.map_congr_left fun c hc => by rw [hlen c hc]]
    _ = 2 ^ 255 := Tree.sum_codes_weight hk.le

/-- Settles O36: codes are paths to leaves, of which none begins another; a built tree holds every symbol once. -/
theorem generatedCodesArePrefixFree : Obligations.GeneratedCodesArePrefixFree := by
  refine ⟨fun s u hs hok hv he a b hab ha hb h => ?_, fun s hs => ?_⟩
  · obtain ⟨t, ht, hk⟩ := hok.leafCount hv
    obtain rfl := Host.Outcome.next.inj ((exec_ctGenerate hs hv ht).symm.trans he)
    exact hab (eq_of_generateCodes_prefix hk ha hb h)
  · obtain ⟨hv, -, -, -, ⟨t, ht, hperm⟩, -⟩ := buildTree_spec s.tieMerged s.ft
    obtain ⟨-, hsymbols⟩ := buildTree_leafCount ht
    exact ⟨buildInto s, _, exec_tbBuild hs, exec_ctGenerate (s := buildInto s) hs hv ht,
      fun q => generateCodes_valid (hsymbols q), generateCodes_complete hperm⟩

end Sys2Proof.Machine
end

section
/-! SUPPORT. The Huffman encoder, the Huffman decoder and the count field commands (45_codec.md R170 to R174): what each
puts or takes, and that the decoder reads back the symbols whose codes the encoder put. -/

namespace Sys2Proof.Machine

variable {s : State} {t : Tree}

/-- An error leaves nothing of the reader but IN and IPOS (R226, R228). -/
theorem errorState_setReader (e : Status) (op : Byte) {r : BitReader} {p : Nat} (hin : r.input = s.reader.input)
    (hpos : r.ipos = p) : errorState e op { s with reader := r } =
      errorState e op { s with reader := { s.reader with ipos := p } } := by
  simp only [errorState, hin, hpos]

/-! ### Encoding -/

/-- An entry's bit-string has the entry's length (R29). -/
@[simp] theorem CodeEntry.bits_length (e : CodeEntry) : e.bits.length = e.len.toNat := by
  rw [CodeEntry.bits, List.length_map, List.length_range]

/-- Settles O37: PutBit of the entry's bits appends them, and flushes nothing. -/
theorem encodePutsTheCode : Obligations.EncodePutsTheCode := by
  refine ⟨fun sym => decode_encode (.heEncode sym), fun sym s hs =>
    ⟨fun hct => ?_, fun hct hcode => ?_, fun hct hcode hw => ?_⟩⟩
  · exact exec_precondition (i := .heEncode sym) (by simp) hs fun hp => by simp [hp.2 rfl] at hct
  · rw [exec_heEncode hs hct, hcode, if_neg Bool.false_ne_true]
  · refine ⟨putBits (s.ct.get sym).bits s.writer, ?_, putBits_ok hw, putBits_bits _ _, ?_⟩
    · rw [exec_heEncode hs hct, if_pos hcode]
    · rw [putBits_nacc, CodeEntry.bits_length]

/-! ### Decoding -/

section
variable (hs : s.status = .success) (hv : s.store.valid = true) (ht : s.store.tree = some t) {r : BitReader}
include hs hv ht

theorem exec_hdDecode_done {q : Byte} (h : descend t s.reader = .done q r) : exec .hdDecode s =
    .next { s with result := byteWord q, reader := r, writer := { s.writer with out := s.writer.out ++ [q] } } := by
  rw [exec_hdDecode hs hv ht, h]; rfl

theorem exec_hdDecode_raised (h : descend t s.reader = .raised .wrongInput r) :
    exec .hdDecode s = .next (errorState .wrongInput 0x48 { s with reader := r }) := by
  rw [exec_hdDecode hs hv ht, h]; rfl

end

/-- Settles O38: the descent takes a leaf's path, or raises with the source exhausted. -/
theorem decodeDescendsToALeaf : Obligations.DecodeDescendsToALeaf := by
  refine ⟨takesNoOperand_of_mask rfl rfl, fun s hs hv => ?_, fun s t hs hr hv ht =>
    ⟨fun p sym rest hp hbits => ?_, fun hshort => ?_⟩⟩
  · exact exec_precondition (i := .hdDecode) (by simp) hs fun hp => by simp [hp.1 (.inr (.inr rfl))] at hv
  · obtain ⟨r, hdesc, htook, hrest⟩ := descend_took hp hr hbits
    refine ⟨r, exec_hdDecode_done hs hv ht hdesc, htook.ok, htook.input, hrest, htook.ipos hr, fun hok => ?_⟩
    obtain ⟨t', ht', hk⟩ := hok.leafCount hv
    obtain rfl := Option.some.inj (ht.symm.trans ht')
    have := Tree.codes_length_lt hp
    omega
  · obtain ⟨r, hdesc, hok, hin, hnone⟩ := descend_short hr hshort
    rw [exec_hdDecode_raised hs hv ht hdesc, errorState_setReader _ _ hin (ipos_of_no_bits hok hin hnone)]

/-! ### The count field -/

/-- Settles O39: four whole bytes keep the alignment, and from a byte boundary they go to OUT as they are. -/
theorem writeCountPutsTotal : Obligations.WriteCountPutsTotal := by
  refine ⟨takesNoOperand_of_mask rfl rfl, fun s hs hw => ⟨⟨putBytes (countBytes s.ft.total) s.writer, exec_hdrWrite hs,
    putBytes_ok hw _, ?_, ?_, fun hn => ?_⟩, fun hft => count_sign hft.2⟩⟩
  · have hnacc := putBits_nacc ((countBytes s.ft.total).flatMap byteBits) s.writer
    have hlen : (countBytes s.ft.total).length = 4 := rfl
    rw [flatMap_byteBits_length, hlen] at hnacc
    rw [putBytes_eq_putBits]
    exact BitVec.eq_of_toNat_eq (by omega)
  · rw [putBytes_eq_putBits, putBits_bits]
    simp only [countBytes, List.flatMap_cons, List.flatMap_nil, List.append_nil, List.append_assoc]
  · rw [acc_zero hw hn, putBytes_aligned]; rfl

section
variable (hs : s.status = .success) (hr : s.reader.Ok)
include hs hr

/-- HDR_READ of 32 bits that are there (R173): it takes them all, and refuses a negative count. -/
theorem exec_hdrRead_count {b0 b1 b2 b3 : Byte} {rest : List Bool}
    (hbits : s.reader.bits = countBits b0 b1 b2 b3 ++ rest) :
    ∃ r : BitReader, r.Ok ∧ r.input = s.reader.input ∧ r.bits = rest ∧
      r.ipos = s.reader.ipos + (32 - s.reader.rcnt.toNat + 7) / 8 ∧
      exec .hdrRead s =
        if b3.getLsbD 7 then .next (errorState .wrongInput 0x51 { s with reader := r })
        else .next { s with dcount := joinCount b0 b1 b2 b3, result := joinCount b0 b1 b2 b3, reader := r } := by
  obtain ⟨r, htook, hrest, he⟩ := readCount_took hr hbits
  refine ⟨r, htook.ok, htook.input, hrest, htook.ipos hr, ?_⟩
  rw [exec_hdrRead hs, he]
  cases b3.getLsbD 7 <;> rfl

/-- HDR_READ of a source that ends before 32 bits (R173). -/
theorem exec_hdrRead_short (h : s.reader.bits.length < 32) : exec .hdrRead s =
    .next (errorState .wrongInput 0x51 { s with reader := { s.reader with ipos := s.reader.input.length } }) := by
  obtain ⟨r, he, hok, hin, hnone⟩ := readCount_short hr h
  rw [← errorState_setReader _ _ hin (ipos_of_no_bits hok hin hnone), exec_hdrRead hs, he]
  rfl

end

/-- Settles O40: the count field's sign bit is bit 7 of its last byte. -/
theorem readCountLoadsDcount : Obligations.ReadCountLoadsDcount := by
  refine ⟨takesNoOperand_of_mask rfl rfl, fun s hs hr => ⟨fun b0 b1 b2 b3 rest hbits => ?_, exec_hdrRead_short hs hr⟩⟩
  obtain ⟨r, hok, hin, hrest, hpos, he⟩ := exec_hdrRead_count hs hr hbits
  refine ⟨fun hsign => ⟨r, ?_, hok, hin, hrest, hpos⟩, fun hsign => ?_⟩
  · rw [he, hsign, if_neg Bool.false_ne_true]; rfl
  · rw [he, if_pos hsign, errorState_setReader _ _ hin hpos]

/-! ### Reading back what was encoded -/

/-- From a byte boundary, HE_ENCODE of each symbol and BW_FLUSH append the payload of the symbols (R170, R83). -/
theorem runWords_encodeFlush_aligned (hs : s.status = .success) (hw : s.writer.Ok) (hn : s.writer.nacc = 0)
    (hct : s.ct = generateCodes t) (hk : t.leafCount ≤ 256) {xs bytes : List Byte} (hx : ∀ x ∈ xs, x ∈ t.symbols)
    (hpack : PacksTo (payloadBits t xs) bytes) :
    runWords ((xs.map Instr.heEncode ++ [Instr.bwFlush]).map encode) s =
      .next { s with writer := ⟨0, 0, s.writer.out ++ bytes⟩ } := by
  have hencodes := runWords_heEncodes hs (by rw [hct]; rfl) xs fun x hm => hct ▸ generateCodes_valid (hx x hm)
  rw [hct, ← payloadBits_eq hk, acc_zero hw hn, ← hct] at hencodes
  have hflush := exec_bwFlush (s := { s with writer := putBits (payloadBits t xs) ⟨0, 0, s.writer.out⟩ }) hs
  rw [flush_putBits hpack] at hflush
  exact runWords_encode_append hencodes (runWords_encode_singleton hflush)

/-- The payload's length is the sum of the recorded code lengths (R86, R160). -/
theorem payloadBits_length (hk : t.leafCount ≤ 256) (xs : List Byte) :
    (payloadBits t xs).length = (xs.map fun x => ((generateCodes t).get x).len.toNat).sum := by
  simp only [payloadBits_eq hk, List.length_flatMap, CodeEntry.bits_length]

/-- The descent takes a leaf's path (R171). The path of a lone leaf has no bits, and then the reader is not asked. -/
theorem descend_path {p : List Bool} {q : Byte} (hp : (p, q) ∈ t.codes) {r : BitReader} (hr : p ≠ [] → r.Ok)
    {rest : List Bool} (hbits : r.bits = p ++ rest) :
    ∃ r', descend t r = .done q r' ∧ (r.Ok → r'.Ok) ∧ r'.bits = rest := by
  cases t with
  | leaf q' =>
    obtain ⟨rfl, rfl⟩ := Prod.mk.inj (List.mem_singleton.1 hp)
    exact ⟨r, rfl, id, hbits⟩
  | node low high =>
    obtain ⟨b, p', rfl, -⟩ := Tree.mem_codes_node.1 hp
    obtain ⟨r', hdesc, htook, hrest⟩ := descend_took hp (hr (List.cons_ne_nil b p')) hbits
    exact ⟨r', hdesc, fun _ => htook.ok, hrest⟩

/-- As many HD_DECODEs as codes come next append the codes' symbols and take exactly the codes' bits (R171, R174). -/
theorem runWords_hdDecodes (hs : s.status = .success) (hv : s.store.valid = true) (ht : s.store.tree = some t)
    (cs : List (List Bool × Byte)) (hcs : ∀ c ∈ cs, c ∈ t.codes) (hr : cs.flatMap Prod.fst ≠ [] → s.reader.Ok)
    {tail : List Bool} (hbits : s.reader.bits = cs.flatMap Prod.fst ++ tail) :
    ∃ v, runWords (List.replicate cs.length 0x4800) s = .next v ∧ v.status = .success ∧
      v.writer.out = s.writer.out ++ cs.map Prod.snd ∧ v.reader.bits = tail := by
  induction cs generalizing s with
  | nil => exact ⟨s, runWords_nil, hs, (List.append_nil _).symm, hbits⟩
  | cons c cs ih =>
    rw [List.flatMap_cons] at hr hbits
    obtain ⟨r, hdesc, hok, hrest⟩ := descend_path (hcs c List.mem_cons_self)
      (fun hne => hr (List.append_ne_nil_of_left_ne_nil hne _)) (hbits.trans (List.append_assoc _ _ _))
    have hfirst := (issue_ok (decode_encode .hdDecode)).trans (exec_hdDecode_done hs hv ht hdesc)
    obtain ⟨v, hrun, hvs, hout, htail⟩ := ih
      (s := { s with result := byteWord c.2, reader := r, writer := { s.writer with out := s.writer.out ++ [c.2] } })
      hs hv ht (fun d hd => hcs d (List.mem_cons_of_mem c hd))
      (fun hne => hok (hr (List.append_ne_nil_of_right_ne_nil _ hne))) hrest
    exact ⟨v, (runWords_cons_next hfirst).trans hrun, hvs, by rw [hout]; simp, htail⟩

/-- A reader at a byte boundary whose unread bytes begin with a payload has the payload's bits to come, and is in order
where there are any (R83, R103). -/
theorem PacksTo.reader_bits {bs : List Bool} {bytes more : List Byte} (h : PacksTo bs bytes) {r : BitReader}
    (hcnt : r.rcnt = 0) (hu : r.unread = bytes ++ more) : (bs ≠ [] → r.Ok) ∧ ∃ rest, r.bits = bs ++ rest := by
  obtain ⟨hlen, hpad⟩ := h
  refine ⟨fun hne => ok_of_unread hcnt ?_,
    List.replicate (8 * bytes.length - bs.length) false ++ more.flatMap byteBits, ?_⟩
  · have hpos := List.length_pos_iff.2 hne
    rw [hu]
    exact List.append_ne_nil_of_left_ne_nil (List.ne_nil_of_length_pos (by omega)) more
  · rw [unread_bits hcnt, hu, List.flatMap_append, hpad, List.append_assoc]

/-- Settles O41: the payload of the symbols is their codes in order, each a path of the tree that one HD_DECODE takes. -/
theorem encoderAndDecoderAreInverses : Obligations.EncoderAndDecoderAreInverses := by
  intro t xs s _ hx hk hs hw hn hct
  obtain ⟨bytes, hpack⟩ := PacksTo.exists (payloadBits t xs)
  refine ⟨bytes, ?_, fun r more hrs hv ht hcnt hunread => ?_⟩
  · have hrun := runWords_encodeFlush_aligned hs hw hn hct hk hx hpack
    rwa [List.map_append, List.map_map] at hrun
  · obtain ⟨hok, rest, hbits⟩ := hpack.reader_bits hcnt hunread
    obtain ⟨cs, hcodes, rfl, hpayload⟩ := payload_codes xs hx
    rw [← hpayload] at hok
    obtain ⟨v, hrun, hvs, hout, htail⟩ := runWords_hdDecodes hrs hv ht cs hcodes hok (hpayload ▸ hbits)
    refine ⟨v, (List.length_map Prod.snd).symm ▸ hrun, hvs, hout, ?_⟩
    rw [htail, hbits, hct, ← payloadBits_length hk, List.drop_left]

end Sys2Proof.Machine
end

section
/-! SUPPORT. COMPRESS and DECOMPRESS as whole commands (46_pipelines.md R190 to R195): what each leaves, that DECOMPRESS
gives back what a container holds, and that it refuses every proper prefix of a container. -/

namespace Sys2Proof.Machine

/-! ### COMPRESS -/

/-- Settles O42: COMPRESS appends the container that the input has, and a count above COUNT_MAX is the error. -/
theorem compressWritesTheContainer : Obligations.CompressWritesTheContainer := by
  refine ⟨takesNoOperand_of_mask rfl rfl, fun s hs hr hlen => ?_, fun s hs hlen => exec_compress_overflow hs hlen⟩
  obtain ⟨c, hc⟩ := exists_isContainer s.tieMerged s.reader.unread
  exact ⟨c, freqOf s.reader.unread, hc, exec_compress_container hs hr hlen hc, freqOf_total hlen, freqOf_count hlen⟩

/-- Settles O48: the container is that of the unread input under TIE_MERGED; a too long input appends nothing. -/
theorem compressIsDeterminedByInput : Obligations.CompressIsDeterminedByInput := by
  intro s r hs hrs hsr hrr htie hunread
  by_cases hlen : s.reader.unread.length ≤ 0x7FFFFFFF
  · obtain ⟨c, hc⟩ := exists_isContainer s.tieMerged s.reader.unread
    refine ⟨c, compressed s c, compressed r c, exec_compress_container hs hsr hlen hc,
      exec_compress_container hrs hrr (hunread ▸ hlen) (htie ▸ hunread ▸ hc), compressed_out s c, compressed_out r c, ?_, ?_⟩
    · rw [compressed_status, compressed_status, hs, hrs]
    · rw [compressed_ft, compressed_ft, hunread]
  · have hlong := Nat.lt_of_not_le hlen
    exact ⟨[], _, _, exec_compress_overflow hs hlong, exec_compress_overflow hrs (hunread ▸ hlong),
      (List.append_nil _).symm, (List.append_nil _).symm, rfl, rfl⟩

/-! ### DECOMPRESS -/

/-- A count of at least one code is not 0. -/
theorem joinCount_ne_zero {b0 b1 b2 b3 : Byte} {cs : List (List Bool × Byte)} (h : cs.length = (joinCount b0 b1 b2 b3).toNat)
    (hne : cs ≠ []) : joinCount b0 b1 b2 b3 ≠ 0 :=
  fun hzero => hne (List.length_eq_zero_iff.1 (h.trans (congrArg BitVec.toNat hzero)))

/-- Settles O44: a zero count, a whole payload, a payload that ends early, and the refused containers. -/
theorem decompressDecodesContainers : Obligations.DecompressDecodesContainers := by
  refine ⟨takesNoOperand_of_mask rfl rfl, fun s b0 b1 b2 b3 rest hs hr hu hsign => ⟨fun hzero => ?_,
    fun t region payload cs tail hsplit hregion hpayload hlen hne => ?_,
    fun t region payload cs hsplit hregion hearly => ?_⟩, fun s hs hr hbad => exec_decompress_refused hs hr hbad⟩
  · exact exec_decompress_zero hs hr hu hsign hzero
  · exact exec_decompress_payload hs hr hu hsign (joinCount_ne_zero hlen hne) hsplit hregion hpayload hlen
  · have hcount : joinCount b0 b1 b2 b3 ≠ 0 := fun hzero =>
      Nat.not_lt_zero _ (lt_of_lt_of_eq hearly.1 (congrArg BitVec.toNat hzero))
    exact exec_decompress_early hs hr hu hsign hcount hsplit hregion hearly

/-! ### What the decoder finds in a container -/

variable {tie : TieMerged} {xs c : List Byte}

/-- A count field written for a count up to COUNT_MAX reads as nonnegative, with that count (R81). -/
theorem exists_countBytes {w : Word} (h : w.toNat ≤ 0x7FFFFFFF) :
    ∃ b0 b1 b2 b3, countBytes w = [b0, b1, b2, b3] ∧ b3.getLsbD 7 = false ∧ joinCount b0 b1 b2 b3 = w := by
  refine ⟨_, _, _, _, rfl, ?_, joinCount_countBytes w⟩
  rw [← joinCount_sign, joinCount_countBytes, count_sign h]

/-- A container of an input that is not empty has a count above 0, a tree region the decoder accepts and, packed, as
many codes of its tree, one for each byte of the input (R80 to R85). -/
theorem IsContainer.fields (hc : IsContainer tie xs c) (hx : xs ≠ []) (hlen : xs.length ≤ 0x7FFFFFFF) :
    ∃ (b0 b1 b2 b3 : Byte) (t : Tree) (region payload : List Byte) (cs : List (List Bool × Byte)),
      c = b0 :: b1 :: b2 :: b3 :: (region ++ payload) ∧ b3.getLsbD 7 = false ∧
      joinCount b0 b1 b2 b3 ≠ 0 ∧ cs.length = (joinCount b0 b1 b2 b3).toNat ∧ IsTreeRegion t region ∧
      (∀ d ∈ cs, d ∈ t.codes) ∧ cs.map Prod.snd = xs ∧ PacksTo (cs.flatMap Prod.fst) payload := by
  obtain ⟨t, region, payload, ht, hregion, hpayload, rfl⟩ := (isContainer_iff hx).1 hc
  obtain ⟨hleaves, hsymbols⟩ := buildTree_leafCount ht
  obtain ⟨cs, hcodes, rfl, hpack⟩ := payload_codes xs fun q _ => hsymbols q
  have htotal : (BitVec.ofNat 32 (cs.map Prod.snd).length).toNat = (cs.map Prod.snd).length := freqOf_total hlen
  obtain ⟨b0, b1, b2, b3, hfield, hsign, hjoin⟩ := exists_countBytes (htotal.trans_le hlen)
  have hcount : cs.length = (joinCount b0 b1 b2 b3).toNat := by rw [hjoin, htotal, List.length_map]
  refine ⟨b0, b1, b2, b3, t, region, payload, cs, ?_, hsign,
    joinCount_ne_zero hcount fun h => hx (congrArg (List.map Prod.snd) h), hcount, hregion.treeRegion (by omega), hcodes, rfl,
    hpack ▸ hpayload⟩
  rw [hfield, List.append_assoc]
  rfl

/-- Packed codes are a payload the decoder accepts, whatever bytes follow (R83, R84). -/
theorem PacksTo.payloadHolds {t : Tree} {cs : List (List Bool × Byte)} {payload : List Byte}
    (h : PacksTo (cs.flatMap Prod.fst) payload) (hcodes : ∀ d ∈ cs, d ∈ t.codes) (more : List Byte) :
    ∃ tail, PayloadHolds t (payload ++ more) cs tail :=
  ⟨_, hcodes, by rw [List.flatMap_append, h.2, List.append_assoc]⟩

/-- DECOMPRESS of a container appends its input and takes exactly its bytes (R191, R193). -/
theorem exec_decompress_container {r : State} {more : List Byte} (hs : r.status = .success) (hr : r.reader.Ok)
    (hc : IsContainer tie xs c) (hlen : xs.length ≤ 0x7FFFFFFF) (hu : r.reader.unread = c ++ more) :
    ∃ v, exec .decompress r = .next v ∧ v.status = .success ∧ v.writer.out = r.writer.out ++ xs ∧
      v.reader.ipos = r.reader.ipos + c.length := by
  by_cases hx : xs = []
  · subst hx
    obtain rfl := isContainer_nil.1 hc
    exact ⟨_, exec_decompress_zero hs hr hu (by decide) (by decide), hs, (List.append_nil _).symm, rfl⟩
  · obtain ⟨b0, b1, b2, b3, t, region, payload, cs, rfl, hsign, hzero, hcount, hregion, hcodes, rfl, hpack⟩ :=
      hc.fields hx hlen
    obtain ⟨tail, hpayload⟩ := hpack.payloadHolds hcodes more
    refine ⟨_, exec_decompress_payload hs hr hu hsign hzero (List.append_assoc _ _ _) hregion hpayload hcount, hs, rfl, ?_⟩
    simp only [← hpack.1, List.length_cons, List.length_append]
    omega

/-! ### Prefixes of a container -/

/-- The tree regions with which a byte sequence and a prefix of it begin are the same (R82, R87). -/
theorem IsTreeRegion.eq_of_prefix {t t' : Tree} {region region' payload payload' : List Byte}
    (h : IsTreeRegion t region) (h' : IsTreeRegion t' region') (hp : region' ++ payload' <+: region ++ payload) :
    t' = t ∧ region' = region ∧ payload' <+: payload := by
  obtain ⟨more, hmore⟩ := hp
  have hlen := h.length; have hlen' := h'.length
  obtain ⟨-, pad, -, hbits⟩ := h
  obtain ⟨-, pad', -, hbits'⟩ := h'
  have hall := congrArg (List.flatMap byteBits) hmore
  simp only [List.flatMap_append, hbits, hbits', List.append_assoc] at hall
  obtain ⟨rfl, -⟩ := treeBits_append_inj hall
  rw [List.append_assoc] at hmore
  obtain ⟨hsame, hrest⟩ := List.append_inj hmore (hlen'.trans hlen.symm)
  exact ⟨rfl, hsame, more, hrest⟩

/-- A prefix of packed codes that holds as many codes is the whole of them (R84, R163). -/
theorem PayloadHolds.eq_of_prefix {t : Tree} {cs cs' : List (List Bool × Byte)} {payload payload' : List Byte}
    {tail : List Bool} (h : PayloadHolds t payload' cs' tail) (hcodes : ∀ d ∈ cs, d ∈ t.codes)
    (hpack : PacksTo (cs.flatMap Prod.fst) payload) (hlen : cs'.length = cs.length) (hp : payload' <+: payload) :
    payload' = payload := by
  obtain ⟨hcodes', hbits'⟩ := h
  obtain ⟨hsize, hbits⟩ := hpack
  have hpre := hp.flatMap byteBits
  rw [hbits', hbits] at hpre
  have hsame := codes_align cs' cs _ _ hcodes' hcodes hlen hpre
  have hsize' := congrArg List.length hbits'
  rw [flatMap_byteBits_length, List.length_append, hsame] at hsize'
  exact hp.eq_of_length_le (by omega)

/-- Every proper prefix of a container is refused (R87, R194): it has no count field, or no tree region, or too few
codes, since its codes would be those of the container. -/
theorem IsContainer.refused_of_prefix {cut : List Byte} (hc : IsContainer tie xs c) (hlen : xs.length ≤ 0x7FFFFFFF)
    (hp : cut <+: c) (hne : cut ≠ c) : RefusedContainer cut := by
  by_contra hgood
  obtain ⟨b0, b1, b2, b3, rest, rfl, -, hregions⟩ := regions_of_not_refused hgood
  refine hne ?_
  by_cases hx : xs = []
  · obtain rfl := isContainer_nil.1 (hx ▸ hc)
    exact hp.eq_of_length_le (by simp)
  · obtain ⟨a0, a1, a2, a3, t, region, payload, cs, rfl, -, hzero, hcount, hregion, hcodes, rfl, hpack⟩ :=
      hc.fields hx hlen
    simp only [List.cons_prefix_cons] at hp
    obtain ⟨rfl, rfl, rfl, rfl, hp⟩ := hp
    obtain ⟨t', region', payload', cs', tail, rfl, hregion', hpayload', hcount'⟩ := hregions.resolve_left hzero
    obtain ⟨rfl, rfl, hp'⟩ := hregion.eq_of_prefix hregion' hp
    rw [hpayload'.eq_of_prefix hcodes hpack (hcount'.trans hcount.symm) hp']

/-- Settles O47: DECOMPRESS refuses what R87 lists, and a cut container is on the list. -/
theorem truncatedContainersAreRefused : Obligations.TruncatedContainersAreRefused := by
  intro s hs hr hlen
  obtain ⟨c, hc⟩ := exists_isContainer s.tieMerged s.reader.unread
  refine ⟨c, compressed s c, exec_compress_container hs hr hlen hc, compressed_out s c, fun r cut hrs hrr hu hp hne => ?_⟩
  exact exec_decompress_refused hrs hrr (hu ▸ hc.refused_of_prefix hlen hp hne)

/-- Settles O46: COMPRESS appends the container of its input, whose codes DECOMPRESS decodes, in whichever core. -/
theorem roundTrip : Obligations.RoundTrip := by
  intro s hs hr hlen
  obtain ⟨c, hc⟩ := exists_isContainer s.tieMerged s.reader.unread
  refine ⟨c, compressed s c, exec_compress_container hs hr hlen hc, (compressed_status s c).trans hs, compressed_out s c, ?_⟩
  exact fun r more hrs hrr hu => exec_decompress_container hrs hrr hc hlen hu

end Sys2Proof.Machine
end

section
/-! SUPPORT. The control commands NOP and RESET (47_control.md R210, R211): what each does whether or not the error lock
holds, and that the lock ignores every word but RESET's. -/

namespace Sys2Proof.Machine

variable {s : State}

/-- While the error lock holds every word but RESET's is ignored, legal or not (R223). -/
theorem issue_locked {w : CmdWord} (hw : w ≠ encode .reset) (hs : s.status ≠ .success) : issue w s = .next s := by
  cases hd : decode w with
  | ok i =>
    have hi : i ≠ .reset := fun h => hw (h ▸ (encode_of_decode hd).symm)
    rw [issue_ok hd, exec_locked hi hs]
  | error e => rw [issue_illegal ((decode_error_iff w).2 ⟨e, hd⟩), if_neg hs]

/-- A word 0x01xx with xx not 0 is not RESET's (R211). -/
theorem resetOpcode_append_ne {arg : Byte} (ha : arg ≠ 0) : 0x01#8 ++ arg ≠ encode .reset := fun h =>
  ha ((argField_append 0x01 arg).symm.trans ((congrArg argField h).trans (argField_append 0x01 0)))

/-- Settles O12: RESET and power-on are ResetCore, which leaves IN, IPOS and OUT; 0x01xx with xx not 0 is not RESET's word. -/
theorem resetCommandResets : Obligations.ResetCommandResets :=
  ⟨fun s => ⟨resetCore s, rfl, rfl, rfl⟩, takesNoOperand_of_mask rfl rfl,
    fun _ _ ha hs => issue_locked (resetOpcode_append_ne ha) hs⟩

/-- Settles O13: an unlocked core runs NOP, which does nothing, and a locked core ignores it. -/
theorem nopDoesNothing : Obligations.NopDoesNothing := by
  refine ⟨fun s => ?_, takesNoOperand_of_mask rfl rfl⟩
  by_cases hs : s.status = .success
  · exact exec_nop hs
  · exact exec_locked (by decide) hs

end Sys2Proof.Machine
end

section
/-! SUPPORT. Every command terminates (60_exceptions.md R236): no procedure is stuck but for want of a tree, and R22 gives a
tree wherever one is asked for; so every command, every move of the host and every run goes on. -/

namespace Sys2Proof.Machine

/-! ### Procedures that end -/

/-- The procedure ends, normally or by an error: it is not stuck (R10, R12). -/
def Run.Ends {σ α : Type} (r : Run σ α) : Prop := ∀ k, r ≠ .stuck k

section
variable {σ τ α β : Type} {r : Run σ α} {f : α → σ → Run σ β}

theorem Run.ends_done (a : α) (s : σ) : (Run.done a s).Ends := nofun

theorem Run.ends_raised (e : ErrorKind) (s : σ) : (Run.raised e s : Run σ α).Ends := nofun

/-- A sequence ends when its first part does and its second part does wherever the first can leave off. -/
theorem Run.Ends.bind_of_post {D : α → σ → Prop} {E : ErrorKind → σ → Prop} (h : r.Ends) (hp : r.Post D E)
    (hf : ∀ a s, D a s → (f a s).Ends) : (r.bind f).Ends := by
  cases r with
  | done a s => exact hf a s hp
  | raised e s => exact Run.ends_raised e s
  | stuck k => exact absurd rfl (h k)

theorem Run.Ends.bind (h : r.Ends) (hf : ∀ a s, (f a s).Ends) : (r.bind f).Ends :=
  h.bind_of_post (.true (fun _ _ => trivial) fun _ _ => trivial) fun a s (_ : True) => hf a s

theorem Run.Ends.lift (h : r.Ends) (g : σ → τ) : (r.lift g).Ends := by
  cases r with
  | done a s => exact Run.ends_done a (g s)
  | raised e s => exact Run.ends_raised e (g s)
  | stuck k => exact absurd rfl (h k)

end

/-! ### The shared operations end -/

theorem srcRead_ends (r : BitReader) : (srcRead r).Ends := by
  unfold srcRead
  split
  · exact Run.ends_done _ _
  · exact Run.ends_raised _ _

theorem getBit_ends (r : BitReader) : (getBit r).Ends := by
  unfold getBit
  split
  · exact (srcRead_ends r).bind fun _ _ => Run.ends_done _ _
  · exact Run.ends_done _ _

theorem getByteLoop_ends (n : Nat) (v : Byte) (r : BitReader) : (getByteLoop n v r).Ends := by
  induction n generalizing v r with
  | zero => exact Run.ends_done v r
  | succ n ih => exact (getBit_ends r).bind fun _ _ => ih _ _

theorem getByte_ends (r : BitReader) : (getByte r).Ends := getByteLoop_ends 8 0 r

theorem getCount_ends (r : BitReader) : (getCount r).Ends :=
  (getByte_ends r).bind fun _ r => (getByte_ends r).bind fun _ r => (getByte_ends r).bind fun _ r =>
    (getByte_ends r).bind fun _ _ => Run.ends_done _ _

theorem descend_ends (t : Tree) (r : BitReader) : (descend t r).Ends := by
  induction t generalizing r with
  | leaf sym => exact Run.ends_done sym r
  | node low high ihl ihh =>
    refine (getBit_ends r).bind fun b r => ?_
    cases b
    · exact ihl r
    · exact ihh r

theorem ftCount_ends (sym : Byte) (t : FreqTable) : (ftCount sym t).Ends := by
  rw [ftCount_cases]
  split
  · exact Run.ends_raised _ _
  · exact Run.ends_done _ _

theorem readCount_ends (s : State) : (readCount s).Ends := by
  refine ((getCount_ends s.reader).lift _).bind fun v u => ?_
  split
  · exact Run.ends_raised _ _
  · exact Run.ends_done _ _

theorem countPass_ends (n : Nat) (s : State) : (countPass n s).Ends := by
  induction n generalizing s with
  | zero => exact Run.ends_done () s
  | succ n ih =>
    rw [countPass]
    split
    · exact ((srcRead_ends s.reader).lift _).bind fun sym u => ((ftCount_ends sym u.ft).lift _).bind fun _ v => ih v
    · exact Run.ends_done () s

theorem encodePass_ends (n : Nat) (s : State) : (encodePass n s).Ends := by
  induction n generalizing s with
  | zero => exact Run.ends_done () s
  | succ n ih =>
    rw [encodePass]
    split
    · exact ((srcRead_ends s.reader).lift _).bind fun _ _ => ih _
    · exact Run.ends_done () s

theorem decodePass_ends (t : Tree) (n : Nat) (s : State) : (decodePass t n s).Ends := by
  induction n generalizing s with
  | zero => exact Run.ends_done () s
  | succ n ih => exact ((descend_ends t s.reader).lift _).bind fun _ _ => ih _

/-- ReadTree ends, and where it ends normally the store holds the tree it read (R25, R143). -/
theorem readTree_ends {s : State} (hr : s.reader.Ok) :
    (readTree s).Ends ∧ (readTree s).Post (fun _ u => ∃ t, u.store.tree = some t) (fun _ _ => True) := by
  rcases readTree_spec hr with ⟨t, _, _, -, hsize, he, -⟩ | ⟨_, _, he, -⟩
  · rw [he]; exact ⟨Run.ends_done _ _, t, (layout_store t hsize).1⟩
  · rw [he]; exact ⟨Run.ends_raised _ _, trivial⟩

/-- COMPRESS walks the tree it has just built, which is there (R133, R190). -/
theorem compressCounted_ends (start : Nat) (s : State) : (compressCounted start s).Ends := by
  obtain ⟨-, -, -, -, ⟨t, ht, -⟩, -⟩ := buildTree_spec s.tieMerged s.ft
  rw [compressCounted, withTree_some ht]
  exact (encodePass_ends _ _).bind fun _ _ => Run.ends_done _ _

/-! ### Every command answers -/

/-- A procedure that ends answers a next state: its own or the one the error path leaves (R226). -/
theorem Run.Ends.finish_next {x : Run State Unit} (h : x.Ends) (op : Byte) : ∃ t, finish op x = .next t := by
  cases x with
  | done a s => exact ⟨s, rfl⟩
  | raised e s => exact ⟨takeError e op s, rfl⟩
  | stuck k => exact absurd rfl (h k)

section
variable {s : State} (h : s.Active)
include h

theorem State.Active.compress_next : ∃ t, exec .compress s = .next t := by
  rw [exec_compress h.unlocked]
  refine ((countPass_ends _ _).bind fun _ u => ?_).finish_next 0x60
  split
  · exact Run.ends_done _ _
  · exact compressCounted_ends _ _

theorem State.Active.decompress_next : ∃ t, exec .decompress s = .next t := by
  rw [exec_decompress h.unlocked]
  refine ((readCount_ends _).bind_of_post h.release.readCount fun v u hu => ?_).finish_next 0x61
  split
  · exact Run.ends_done _ _
  · obtain ⟨hends, htree⟩ := readTree_ends hu.inv.reader
    refine hends.bind_of_post htree fun _ w ⟨t, ht⟩ => ?_
    rw [withTree_some ht]
    exact (decodePass_ends t _ w).bind fun _ _ => Run.ends_done _ _

/-- An accepted command answers: those that walk the tree find one, since their precondition asks for it (R22, R225). -/
theorem State.Active.exec_next {i : Instr} (hi : i ≠ .reset) (hp : precondition (opcodeOf i) s) :
    ∃ t, exec i s = .next t := by
  have hs := h.unlocked
  cases i with
  | reset => exact absurd rfl hi
  | nop => exact ⟨_, exec_nop hs⟩
  | bwPutbit b => exact ⟨_, exec_bwPutbit hs b⟩
  | bwPutbyte v => exact ⟨_, exec_bwPutbyte hs v⟩
  | bwFlush => exact ⟨_, exec_bwFlush hs⟩
  | brGetbit =>
    rw [exec_brGetbit hs]
    exact (((getBit_ends s.reader).lift _).bind fun _ _ => Run.ends_done _ _).finish_next _
  | brGetbyte =>
    rw [exec_brGetbyte hs]
    exact (((getByte_ends s.reader).lift _).bind fun _ _ => Run.ends_done _ _).finish_next _
  | brAlign => exact ⟨_, exec_brAlign hs⟩
  | ftClear => exact ⟨_, exec_ftClear hs⟩
  | ftCount sym => rw [exec_ftCount hs]; exact ((ftCount_ends sym s.ft).lift _).finish_next _
  | ftRead sym => exact ⟨_, exec_ftRead hs sym⟩
  | tbBuild => exact ⟨_, exec_tbBuild hs⟩
  | tsSerialize =>
    have hv : s.store.valid = true := hp.1 (.inl rfl)
    obtain ⟨t, ht, -⟩ := h.inv.store.tree hv
    exact ⟨_, exec_tsSerialize hs hv ht⟩
  | tdDeserialize => rw [exec_tdDeserialize hs]; exact (readTree_ends h.inv.reader).1.finish_next _
  | ctGenerate =>
    have hv : s.store.valid = true := hp.1 (.inr (.inl rfl))
    obtain ⟨t, ht, -⟩ := h.inv.store.tree hv
    exact ⟨_, exec_ctGenerate hs hv ht⟩
  | ctReadlen sym => exact ⟨_, exec_ctReadlen hs sym⟩
  | heEncode sym =>
    rw [exec_heEncode hs (hp.2 rfl)]
    split
    · exact ⟨_, rfl⟩
    · exact ⟨_, rfl⟩
  | hdDecode =>
    have hv : s.store.valid = true := hp.1 (.inr (.inr rfl))
    obtain ⟨t, ht, -⟩ := h.inv.store.tree hv
    rw [exec_hdDecode hs hv ht]
    exact (((descend_ends t s.reader).lift _).bind fun _ _ => Run.ends_done _ _).finish_next _
  | hdrWrite => exact ⟨_, exec_hdrWrite hs⟩
  | hdrRead =>
    rw [exec_hdrRead hs]
    exact ((readCount_ends s).bind fun _ _ => Run.ends_done _ _).finish_next _
  | compress => exact h.compress_next
  | decompress => exact h.decompress_next

end

/-! ### Every move and every run goes on -/

section
variable {s : State} (h : s.Inv)
include h

/-- Every command answers: RESET, ignored, refused or run to its end (R224). -/
theorem State.Inv.exec_next (i : Instr) : ∃ t, Machine.exec i s = .next t := by
  by_cases hi : i = .reset
  · subst hi; exact ⟨resetCore s, rfl⟩
  by_cases hs : s.status = .success
  · by_cases hp : precondition (opcodeOf i) s
    · exact State.Active.exec_next ⟨h, hs⟩ hi hp
    · exact ⟨_, exec_precondition hi hs hp⟩
  · exact ⟨s, exec_locked hi hs⟩

theorem State.Inv.issue_next (w : CmdWord) : ∃ t, Machine.issue w s = .next t := by
  cases hd : decode w with
  | ok i => rw [issue_ok hd]; exact h.exec_next i
  | error e => exact ⟨rejectWord (opField w) s, by simp only [Machine.issue, hd]⟩

theorem State.Inv.serve_next (m : HostMove) : ∃ t, Machine.serve m s = .next t := by
  cases m with
  | writeReg addr data =>
    cases addr with
    | zero => exact h.issue_next _
    | succ n => exact ⟨s, rfl⟩
  | readReg addr => exact ⟨_, rfl⟩
  | presentInput bytes => exact ⟨_, rfl⟩
  | takeOutput => exact ⟨_, rfl⟩
  | powerOn => exact ⟨_, rfl⟩

theorem State.Inv.step_next : ∃ t, Machine.step s = .next t := by
  cases hq : s.hostQueue with
  | nil => exact ⟨s, step_idle hq⟩
  | cons m rest =>
    rw [step_serves hq]
    exact (h.withHostSide rest s.answers s.writer.out h.reader.2).serve_next m

end

/-- A run takes its first step and goes on from there. -/
theorem run_succ_of_step {s t : State} (h : step s = .next t) (k : Nat) :
    (core.run (k + 1) s : Host.Outcome State Fault Refusal) = core.run k t := by
  have hcore : core.step s = .next t := h
  simp only [Host.Core.run, hcore]

/-- From a state in order every step answers, and with a state in order (R22, R236). -/
theorem State.Inv.safeRun {s : State} (h : s.Inv) : SafeRun s := by
  intro k
  induction k generalizing s with
  | zero => exact ⟨s, rfl⟩
  | succ k ih =>
    obtain ⟨t, ht⟩ := h.step_next
    rw [run_succ_of_step ht]
    exact ih (everyStepKeepsTheInvariant s t h ht)

/-- Settles O55: under the invariant no command is stuck, and every step keeps the invariant. -/
theorem everyRunIsSafe : Obligations.EveryRunIsSafe := ⟨fun i _ h => h.exec_next i, fun _ h => h.safeRun⟩

end Sys2Proof.Machine
end

section
/-! SUPPORT. Acceptance, the one error path and the error lock (60_exceptions.md R220 to R231): where an error comes from and
what it leaves, and the one procedure for a command word. -/

namespace Sys2Proof.Machine

/-! ### Where an error comes from -/

/-- No error kind is recorded as SUCCESS (R220). -/
theorem ErrorKind.status_ne_success (e : ErrorKind) : e.status ≠ .success := by cases e <;> decide

/-- Each error kind has its own status code (R220). -/
theorem ErrorKind.status_injective : Function.Injective ErrorKind.status := by
  intro e e' h
  cases e <;> cases e' <;> cases h <;> rfl

/-- PRE(op) is false only for the commands that read a tree or a code table that is not there (R225). -/
theorem not_precondition_iff (i : Instr) (s : State) : ¬ precondition (opcodeOf i) s ↔
    ((i = .tsSerialize ∨ i = .ctGenerate ∨ i = .hdDecode) ∧ s.store.valid = false) ∨
      (∃ sym, i = .heEncode sym ∧ s.ct.valid = false) := by
  cases i <;> simp [precondition, opcodeOf]

theorem mayRaise_outOfMemory_iff (i : Instr) : mayRaise i .outOfMemory ↔ (∃ sym, i = .ftCount sym) ∨ i = .compress := by
  cases i <;> simp [mayRaise]

theorem mayRaise_wrongInput_iff (i : Instr) : mayRaise i .wrongInput ↔
    i = .brGetbit ∨ i = .brGetbyte ∨ i = .tdDeserialize ∨ i = .hdDecode ∨ i = .hdrRead ∨ i = .decompress ∨
      ∃ sym, i = .heEncode sym := by
  cases i <;> simp [mayRaise]

/-- No pseudocode raises ILLEGAL_COMMAND: it comes from acceptance alone (R221, R224). -/
theorem not_mayRaise_illegalCommand (i : Instr) : ¬ mayRaise i .illegalCommand := by cases i <;> simp [mayRaise]

section
variable {i : Instr} {s t : State} (hs : s.status = .success) (h : exec i s = .next t)
include hs h

/-- An error is that of a false precondition or of a raise, and leaves what the error path makes of a state within the
frame of the command's pseudocode (R224, R226, R230). -/
theorem exec_error (ht : t.status ≠ .success) : ∃ e u, Frame s u ∧ t = errorState e.status (opcodeOf i) u ∧
    ((e = .illegalCommand ∧ ¬ precondition (opcodeOf i) s) ∨ mayRaise i e) := by
  rcases exec_cases h with
    ⟨-, rfl⟩ | ⟨-, hl, -⟩ | ⟨-, -, hp, rfl⟩ | ⟨-, -, -, hend⟩ | ⟨-, -, -, e, u, he, hframe, rfl⟩
  · exact absurd rfl ht
  · exact absurd hs hl
  · exact ⟨.illegalCommand, s, .refl s, rfl, .inl ⟨rfl, hp⟩⟩
  · exact absurd (hend.frame.status.trans hs) ht
  · exact ⟨e, u, hframe, rfl, .inr he⟩

/-- The cause of a recorded error (R221, R225). -/
theorem exec_error_cause {e : ErrorKind} (ht : t.status = e.status) :
    (e = .illegalCommand ∧ ¬ precondition (opcodeOf i) s) ∨ mayRaise i e := by
  obtain ⟨e', u, -, rfl, hcause⟩ := exec_error hs h (ht ▸ e.status_ne_success)
  cases ErrorKind.status_injective ht
  exact hcause

theorem mayRaise_outOfMemory_of_exec (ht : t.status = .outOfMemory) : mayRaise i .outOfMemory :=
  (exec_error_cause hs h (e := .outOfMemory) ht).resolve_left nofun

theorem mayRaise_wrongInput_of_exec (ht : t.status = .wrongInput) : mayRaise i .wrongInput :=
  (exec_error_cause hs h (e := .wrongInput) ht).resolve_left nofun

theorem not_precondition_of_exec (ht : t.status = .illegalCommand) : ¬ precondition (opcodeOf i) s :=
  ((exec_error_cause hs h (e := .illegalCommand) ht).resolve_right (not_mayRaise_illegalCommand i)).2

end

/-- HE_ENCODE is WRONG_INPUT only for a symbol without a code (R170). -/
theorem heEncode_codeless_of_wrongInput {sym : Byte} {s t : State} (hs : s.status = .success)
    (h : exec (.heEncode sym) s = .next t) (ht : t.status = .wrongInput) : (s.ct.get sym).valid = false := by
  by_contra hv
  by_cases hp : precondition (opcodeOf (.heEncode sym)) s
  · rw [exec_heEncode hs (hp.2 rfl), if_pos (eq_true_of_ne_false hv)] at h
    cases h; cases hs.symm.trans ht
  · rw [exec_precondition (i := .heEncode sym) nofun hs hp] at h
    cases h; cases ht

/-- Settles O10: only what its pseudocode raises, or a false precondition, gives a command's error; else ERR_OP is kept. -/
theorem errorKindsByCommand : Obligations.ErrorKindsByCommand := by
  refine fun i s t hs h => ⟨fun ht => ?_, fun ht => ?_, fun ht => ?_, fun ht => ?_⟩
  · exact (mayRaise_outOfMemory_iff i).1 (mayRaise_outOfMemory_of_exec hs h ht)
  · have hcodeless (sym : Byte) (hi : i = .heEncode sym) : (s.ct.get sym).valid = false :=
      heEncode_codeless_of_wrongInput hs (hi ▸ h) ht
    simp only [and_iff_left_of_imp (hcodeless _)]
    exact (mayRaise_wrongInput_iff i).1 (mayRaise_wrongInput_of_exec hs h ht)
  · rcases (not_precondition_iff i s).1 (not_precondition_of_exec hs h ht) with ⟨hi, -⟩ | ⟨sym, hi, -⟩
    · tauto
    · exact .inr (.inr (.inr ⟨sym, hi⟩))
  · rcases exec_cases h with
      ⟨hi, -⟩ | ⟨-, -, rfl⟩ | ⟨-, -, -, rfl⟩ | ⟨-, -, -, hend⟩ | ⟨-, -, -, e, u, -, -, rfl⟩
    · exact .inr hi
    · exact .inl rfl
    · cases ht
    · exact .inl hend.frame.errOp
    · exact absurd ht e.status_ne_success

/-- Settles O8: a false precondition is refused, nothing else is, and the invariant ties the code table to the tree. -/
theorem preconditionsGuardTreeAndCodes : Obligations.PreconditionsGuardTreeAndCodes := by
  refine ⟨fun s hs hv => ?_, fun s sym hs hv => ?_, fun i s t hs h ht => ?_, fun s h hv => (h.codes hv).1⟩
  · have refused {i : Instr} (hi : i = .tsSerialize ∨ i = .ctGenerate ∨ i = .hdDecode) (hne : i ≠ .reset) :=
      exec_precondition hne hs ((not_precondition_iff i s).2 (.inl ⟨hi, hv⟩))
    exact ⟨refused (.inl rfl) nofun, refused (.inr (.inl rfl)) nofun, refused (.inr (.inr rfl)) nofun⟩
  · exact exec_precondition nofun hs ((not_precondition_iff _ s).2 (.inr ⟨sym, rfl, hv⟩))
  · exact (not_precondition_iff i s).1 (not_precondition_of_exec hs h ht)

/-! ### What an error leaves -/

/-- Settles O9: every error is the error path's, from a state within the frame of the command's pseudocode. -/
theorem errorPathReleases : Obligations.ErrorPathReleases := by
  intro i s t hs h ht
  obtain ⟨e, u, hframe, rfl, -⟩ := exec_error hs h ht
  exact ⟨rfl, hframe.result, zeroTable_count, rfl, rfl, rfl, rfl, rfl, zeroCodes_get, rfl, rfl, rfl, rfl, rfl,
    hframe.reader.input, hframe.reader.ipos, hframe.out⟩

/-! ### The procedure for a command word -/

section
variable {w : CmdWord} {s : State}

theorem issue_reset : issue 0x0100 s = .next (resetState s) := issue_ok (i := .reset) (decode_encode .reset)

/-- A word that is not illegal is that of a command, which it issues (R70, R73). -/
theorem issue_legal (hw : ¬ IllegalWord w) : ∃ i, decode w = .ok i ∧ opcodeOf i = w.extractLsb' 8 8 ∧
    i.arg = w.extractLsb' 0 8 ∧ issue w s = exec i s := by
  cases hd : decode w with
  | error e => exact absurd ((decode_error_iff w).2 ⟨e, hd⟩) hw
  | ok i => exact ⟨i, rfl, (decode_fields hd).1, (decode_fields hd).2, issue_ok hd⟩

end

/-- Settles O7: the lock ignores every word but RESET's, which is ResetCore. -/
theorem errorLockIgnoresAllButReset : Obligations.ErrorLockIgnoresAllButReset := by
  refine fun w s t hs h => ⟨fun hw => ?_, fun hw => ?_⟩
  · cases (issue_locked hw hs).symm.trans h; rfl
  · subst hw; cases issue_reset.symm.trans h; exact ⟨rfl, rfl, rfl⟩

/-- Settles O6: RESET's word, the lock, an illegal word, a false precondition, and else the command of the word. -/
theorem commandProcedure : Obligations.CommandProcedure := by
  refine ⟨fun _ => issue_reset, fun w s hw => ⟨issue_locked hw, fun hs => ?_⟩⟩
  have refused (hbad : IllegalWord w) : issue w s = .next (errorState .illegalCommand (w.extractLsb' 8 8) s) := by
    rw [issue_illegal hbad, if_pos hs]
  refine ⟨fun hmask => refused (.inl hmask), fun m hmask => ⟨fun harg => refused (.inr ⟨m, hmask, harg⟩), fun harg => ?_⟩⟩
  have hlegal : ¬ IllegalWord w := by
    rintro (hnone | ⟨m', hm', hne⟩)
    · cases hnone.symm.trans hmask
    · cases hm'.symm.trans hmask; exact hne harg
  obtain ⟨i, hd, hop, harg, hissue⟩ := issue_legal (s := s) hlegal
  have hi : i ≠ .reset := by rintro rfl; exact hw (decode_eq_ok_iff.1 hd)
  rw [← hop, hissue]
  refine ⟨exec_precondition hi hs, fun _ => ⟨i, hd, rfl, harg, rfl, fun t h ht => ?_⟩⟩
  obtain ⟨e, u, hframe, rfl, -⟩ := exec_error hs h ht
  exact ⟨rfl, hframe.result⟩

end Sys2Proof.Machine
end

section
/-! SUPPORT. The selector wrapper outside the core (60_exceptions.md R232), and that no command leaves a code table behind
its tree (70_reset_and_hazards.md R254). -/

namespace Sys2Proof.Machine

/-! ### The selector wrapper -/

section
variable {stream : List Byte} {s : State}

theorem wrapper_selected {w : CmdWord} {rest : List Byte} {u : State} (hsel : selectPipeline stream = some (w, rest))
    (h : issue w { s with reader := { s.reader with input := rest, ipos := 0 } } = .next u) :
    wrapper stream s = .next (u.status, u) := by
  simp only [wrapper, hsel, h]

theorem wrapper_unselected (hsel : selectPipeline stream = none) :
    wrapper stream s = .next (.wrongInput, s) ∧ wrapperMoves stream = [] := by
  simp only [wrapper, wrapperMoves, hsel, and_self]

theorem selectPipeline_other {sel : Byte} {rest : List Byte} (hc : sel ≠ 0x63) (hd : sel ≠ 0x64) :
    selectPipeline (sel :: rest) = none := by
  rw [selectPipeline, if_neg hc, if_neg hd]

end

/-- Settles O52: each selector's word runs on the rest of the stream; without a selection no word is issued. -/
theorem wrapperSelects : Obligations.WrapperSelects := by
  refine ⟨fun sel rest s u hsel h => ?_, fun sel rest s u hsel h => ?_, fun sel rest s hc hd => ?_, fun s => ?_⟩
  · subst hsel; exact wrapper_selected rfl h
  · subst hsel; exact wrapper_selected rfl h
  · exact wrapper_unselected (selectPipeline_other hc hd)
  · exact wrapper_unselected rfl

/-! ### The code table and its tree -/

/-- The commands that replace or clear the tree, by name (R254). -/
theorem replacesTree_iff (i : Instr) :
    replacesTree i = true ↔ i = .tbBuild ∨ i = .tdDeserialize ∨ i = .compress ∨ i = .decompress := by
  cases i <;> simp [replacesTree]

section
variable {i : Instr} {s t : State} (h : exec i s = .next t)
include h

/-- A command that changes the node store leaves no code table (R254). -/
theorem codes_cleared_of_store_changed (hne : t.store ≠ s.store) : t.ct.valid = false := by
  rcases exec_cases h with
    ⟨-, rfl⟩ | ⟨-, -, rfl⟩ | ⟨-, -, -, rfl⟩ | ⟨-, -, -, hend⟩ | ⟨-, -, -, e, u, -, -, rfl⟩
  · rfl
  · exact absurd rfl hne
  · rfl
  · exact hend.codes (eq_true_of_ne_false fun hr => hne (hend.tree hr).1)
  · rfl

/-- In an unlocked core the commands that replace the tree, RESET and every error clear CT_VALID (R254). -/
theorem codes_cleared (hs : s.status = .success) (hi : replacesTree i = true ∨ i = .reset ∨ t.status ≠ .success) :
    t.ct.valid = false := by
  rcases exec_cases h with
    ⟨-, rfl⟩ | ⟨-, hl, -⟩ | ⟨-, -, -, rfl⟩ | ⟨hne, -, -, hend⟩ | ⟨-, -, -, e, u, -, -, rfl⟩
  · rfl
  · exact absurd hs hl
  · rfl
  · rcases hi with hr | hi | ht
    · exact hend.codes hr
    · exact absurd hi hne
    · exact absurd (hend.frame.status.trans hs) ht
  · rfl

/-- Nothing else clears CT_VALID (R254). -/
theorem cause_of_codes_cleared (hs : s.status = .success) (hc : t.ct.valid = false) (hv : s.ct.valid = true) :
    replacesTree i = true ∨ i = .reset ∨ t.status ≠ .success := by
  rcases exec_cases h with
    ⟨hi, -⟩ | ⟨-, hl, -⟩ | ⟨-, -, -, rfl⟩ | ⟨-, -, -, hend⟩ | ⟨-, -, -, e, u, -, -, rfl⟩
  · exact .inr (.inl hi)
  · exact absurd hs hl
  · exact .inr (.inr nofun)
  · refine .inl (eq_true_of_ne_false fun hr => ?_)
    rcases (hend.tree hr).2 with hct | hset
    · cases hv.symm.trans (hct ▸ hc)
    · cases hset.symm.trans hc
  · exact .inr (.inr e.status_ne_success)

end

/-- FT_COUNT and FT_CLEAR leave the tree and the code table, where they raise no error (R121, R122, R254). -/
theorem tree_kept_of_counting {sym : Byte} {s t : State} (h : exec (.ftCount sym) s = .next t ∨ exec .ftClear s = .next t)
    (ht : t.status = .success) : t.store = s.store ∧ t.ct = s.ct := by
  by_cases hs : s.status = .success
  · rw [exec_ftCount hs, exec_ftClear hs, ftCount_cases] at h
    rcases h with h | h
    · split at h
      · cases h; cases ht
      · cases h; exact ⟨rfl, rfl⟩
    · cases h; exact ⟨rfl, rfl⟩
  · rw [exec_locked (i := .ftCount sym) nofun hs, exec_locked (i := .ftClear) nofun hs] at h
    rcases h with h | h
    all_goals cases h; exact ⟨rfl, rfl⟩

/-- Settles O51: the commands that replace or clear the tree clear CT_VALID with it, and no other command does. -/
theorem noStaleCodeTable : Obligations.NoStaleCodeTable := by
  refine ⟨fun i s t => codes_cleared_of_store_changed, fun i s t h hs hi => codes_cleared h hs ?_,
    fun i s t h hs hc hv => ?_, fun sym s hs hv => ?_, fun sym s t => tree_kept_of_counting⟩
  · rwa [replacesTree_iff, or_assoc, or_assoc, or_assoc]
  · have hcause := cause_of_codes_cleared h hs hc hv
    rwa [replacesTree_iff, or_assoc, or_assoc, or_assoc] at hcause
  · exact exec_precondition nofun hs ((not_precondition_iff _ s).2 (.inr ⟨sym, rfl, hv⟩))

end Sys2Proof.Machine
end
